-- ==== Sys2Proof/Word.lean ====
section
/-!
DEFINITION. The word types of the block (00_scope.md R8, R9): bytes, 32-bit words, binary32 values, and the two small
records every unit shares (a pixel coordinate and a value per colour channel).
-/

namespace Sys2Proof

/-- `u8` of R8: one byte of the data space, one colour channel. -/
abbrev Byte := BitVec 8

/-- `u32` of R8, and `XLEN` = 32 of R6: a register, a bus data word, a pixel word. -/
abbrev Word := BitVec 32

/-- A NaN of binary32: its sign and its fraction, which is `payload + 1` since a NaN's fraction is not 0. -/
structure Nan where
  neg : Bool
  payload : Fin 0x7FFFFF
  deriving DecidableEq, Repr, Inhabited

/-- `f32` of R8: an IEEE 754 binary32 value, one for each 32-bit pattern. A finite value is its sign and the low 31 bits of
its pattern (the 8-bit biased exponent above the 23-bit fraction), which lie below 0x7F800000, the pattern of infinity; so
+0, -0, the subnormals and the normal numbers are all `fin`. -/
inductive F32 where
  | nan (n : Nan)
  | inf (neg : Bool)
  | fin (neg : Bool) (mag : Fin 0x7F800000)
  deriving DecidableEq, Repr

/-- +0.0 -/
def F32.zero : F32 := .fin false ⟨0, by decide⟩

/-- -0.0 -/
def F32.negZero : F32 := .fin true ⟨0, by decide⟩

/-- 1.0 = 0x3F800000 -/
def F32.one : F32 := .fin false ⟨0x3F800000, by decide⟩

/-- 2.0 = 0x40000000 -/
def F32.two : F32 := .fin false ⟨0x40000000, by decide⟩

/-- A pixel coordinate (x, y), column then row (20_memory.md R51); it is also the work-item's identifier (R234). -/
structure Pixel where
  x : Nat
  y : Nat
  deriving DecidableEq, Repr, Inhabited

/-- One value for each of the channels 0 red, 1 green, 2 blue, 3 alpha (40_convolution.md R112). -/
structure Rgba (α : Type) where
  r : α
  g : α
  b : α
  a : α
  deriving DecidableEq, Repr

end Sys2Proof
end

