-- ==== Sys2Proof/Syntax.lean ====
section
/-!
DEFINITION. The operations of spec/opcode_table.json, one constructor a row: the register-window transactions
(42_host_interface.md R163 to R199) and the command words that WR_CMD carries (R201 to R204).
-/

namespace Sys2Proof

/-- One row of the opcode table. A write carries its data word; a reserved offset 0x30 + 4k carries k; BAD_ACCESS carries
the fields of its descriptor; BAD_COMMAND carries the word written to CMD. -/
inductive Instr where
  | rdId
  | wrId (data : Word)
  | rdCmd
  | wrCmd (data : Word)
  | rdStatus
  | wrStatus (data : Word)
  | rdWidth
  | wrWidth (data : Word)
  | rdHeight
  | wrHeight (data : Word)
  | rdRadius
  | wrRadius (data : Word)
  | rdSigma
  | wrSigma (data : Word)
  | rdInBase
  | wrInBase (data : Word)
  | rdInLen
  | wrInLen (data : Word)
  | rdOutBase
  | wrOutBase (data : Word)
  | rdOutLen
  | wrOutLen (data : Word)
  | rdErrAddr
  | wrErrAddr (data : Word)
  | rdRsvd (k : BitVec 2)
  | wrRsvd (k : BitVec 2) (data : Word)
  | badAccess (size : BitVec 2) (we : Bool) (offset : BitVec 6)
  | nop
  | start
  | clear
  | badCommand (word : Word)
  deriving DecidableEq, Repr

end Sys2Proof
end

