-- ==== Sys2Proof/WellFormed.lean ====
section
/-!
DEFINITION. Which terms of `Instr` an encoding can stand for. Every operand of a transaction row takes every value its
bits can take; only the two default rows of the table are limited, to what no other row matches.
-/

namespace Sys2Proof

/-- 42_host_interface.md R199: the descriptor is no aligned word access. -/
def badAccessOk (size : BitVec 2) (offset : BitVec 6) : Bool :=
  !(decide (size = 2) && decide (offset.extractLsb' 0 2 = 0))

/-- 30_encoding.md R74: the word is none of the three commands. -/
def badCommandOk (word : Word) : Bool :=
  decide (word ≠ 0) && decide (word ≠ 1) && decide (word ≠ 2)

/-- The instruction is one that some frame of the spec encodes. -/
def Instr.wellFormed : Instr → Bool
  | .badAccess size _ offset => badAccessOk size offset
  | .badCommand word => badCommandOk word
  | .rdId | .wrId _ | .rdCmd | .wrCmd _ | .rdStatus | .wrStatus _ | .rdWidth | .wrWidth _ | .rdHeight | .wrHeight _
  | .rdRadius | .wrRadius _ | .rdSigma | .wrSigma _ | .rdInBase | .wrInBase _ | .rdInLen | .wrInLen _
  | .rdOutBase | .wrOutBase _ | .rdOutLen | .wrOutLen _ | .rdErrAddr | .wrErrAddr _ | .rdRsvd _ | .wrRsvd _ _
  | .nop | .start | .clear => true

end Sys2Proof
end

