-- ==== Sys2Proof/Decode.lean ====
section
/-!
DEFINITION. Decoding and encoding (30_encoding.md). The block decodes two formats and no others (R70): a register-window
transaction, and the command word that is the data of a WR_CMD transaction. Every frame decodes to exactly one row.
-/

namespace Sys2Proof

/-- R70: what the block decodes. -/
inductive Frame where
  /-- R71: a 9-bit descriptor with its 32-bit data word (meaningless on a read). -/
  | transaction (desc : BitVec 9) (data : Word)
  /-- R73: a command word. -/
  | command (word : Word)
  deriving DecidableEq, Repr

/-- R71: `desc = {SIZE[1:0], WE, OFFSET[5:0]}`. -/
def descriptor (size : BitVec 2) (we : Bool) (offset : BitVec 6) : BitVec 9 :=
  size ++ BitVec.ofBool we ++ offset

/-- R71: bits [8:7]. -/
def descSize (desc : BitVec 9) : BitVec 2 := desc.extractLsb' 7 2

/-- R71: bit [6]. -/
def descWe (desc : BitVec 9) : Bool := desc.getLsbD 6

/-- R71: bits [5:0]. -/
def descOffset (desc : BitVec 9) : BitVec 6 := desc.extractLsb' 0 6

/-- R72, the column of read rows, by word index OFFSET[5:2]. -/
def readRow (index : BitVec 4) : Instr :=
  match index.toNat with
  | 0 => .rdId
  | 1 => .rdCmd
  | 2 => .rdStatus
  | 3 => .rdWidth
  | 4 => .rdHeight
  | 5 => .rdRadius
  | 6 => .rdSigma
  | 7 => .rdInBase
  | 8 => .rdInLen
  | 9 => .rdOutBase
  | 10 => .rdOutLen
  | 11 => .rdErrAddr
  | _ => .rdRsvd (index.extractLsb' 0 2)

/-- R72, the column of write rows, by word index OFFSET[5:2]. -/
def writeRow (index : BitVec 4) (data : Word) : Instr :=
  match index.toNat with
  | 0 => .wrId data
  | 1 => .wrCmd data
  | 2 => .wrStatus data
  | 3 => .wrWidth data
  | 4 => .wrHeight data
  | 5 => .wrRadius data
  | 6 => .wrSigma data
  | 7 => .wrInBase data
  | 8 => .wrInLen data
  | 9 => .wrOutBase data
  | 10 => .wrOutLen data
  | 11 => .wrErrAddr data
  | _ => .wrRsvd (index.extractLsb' 0 2) data

/-- R72: SIZE = 0b10 with OFFSET[1:0] = 0b00 selects the register at word index OFFSET[5:2]; any other descriptor is
BAD_ACCESS. -/
def decodeTransaction (desc : BitVec 9) (data : Word) : Instr :=
  if descSize desc = 2 ∧ (descOffset desc).extractLsb' 0 2 = 0 then
    (if descWe desc then writeRow ((descOffset desc).extractLsb' 2 4) data
     else readRow ((descOffset desc).extractLsb' 2 4))
  else .badAccess (descSize desc) (descWe desc) (descOffset desc)

/-- R74: the whole 32-bit word is compared. -/
def decodeCommand (word : Word) : Instr :=
  if word = 0 then .nop
  else if word = 1 then .start
  else if word = 2 then .clear
  else .badCommand word

/-- The instruction of a frame. -/
def decode : Frame → Instr
  | .transaction desc data => decodeTransaction desc data
  | .command word => decodeCommand word

/-- The frame of an instruction: the descriptors of R72's table, the words of R74's. The data word of a read, and of an
access that gets SLVERR, is written as 0. -/
def encode : Instr → Frame
  | .rdId => .transaction 0x100 0
  | .wrId data => .transaction 0x140 data
  | .rdCmd => .transaction 0x104 0
  | .wrCmd data => .transaction 0x144 data
  | .rdStatus => .transaction 0x108 0
  | .wrStatus data => .transaction 0x148 data
  | .rdWidth => .transaction 0x10C 0
  | .wrWidth data => .transaction 0x14C data
  | .rdHeight => .transaction 0x110 0
  | .wrHeight data => .transaction 0x150 data
  | .rdRadius => .transaction 0x114 0
  | .wrRadius data => .transaction 0x154 data
  | .rdSigma => .transaction 0x118 0
  | .wrSigma data => .transaction 0x158 data
  | .rdInBase => .transaction 0x11C 0
  | .wrInBase data => .transaction 0x15C data
  | .rdInLen => .transaction 0x120 0
  | .wrInLen data => .transaction 0x160 data
  | .rdOutBase => .transaction 0x124 0
  | .wrOutBase data => .transaction 0x164 data
  | .rdOutLen => .transaction 0x128 0
  | .wrOutLen data => .transaction 0x168 data
  | .rdErrAddr => .transaction 0x12C 0
  | .wrErrAddr data => .transaction 0x16C data
  | .rdRsvd k => .transaction (0x130 ||| (k.setWidth 9 <<< 2)) 0
  | .wrRsvd k data => .transaction (0x170 ||| (k.setWidth 9 <<< 2)) data
  | .badAccess size we offset => .transaction (descriptor size we offset) 0
  | .nop => .command 0
  | .start => .command 1
  | .clear => .command 2
  | .badCommand word => .command word

/-- Does the frame's format give its data word a meaning? Only a transaction that writes carries data (R71). -/
def frameCanonical : Frame → Bool
  | .transaction desc data => (descWe desc && decide (descSize desc = 2 ∧ (descOffset desc).extractLsb' 0 2 = 0)) ||
      decide (data = 0)
  | .command _ => true

/-- A row of opcode_table.json: its bits under `mask` equal `pattern`. -/
structure OpcodeRow where
  mnemonic : String
  isCommand : Bool
  pattern : Nat
  mask : Nat
  deriving DecidableEq, Repr

/-- The row of each instruction, as opcode_table.json gives it. -/
def rowOf : Instr → OpcodeRow
  | .rdId => ⟨"RD_ID", false, 0x100, 0x1FF⟩
  | .wrId _ => ⟨"WR_ID", false, 0x140, 0x1FF⟩
  | .rdCmd => ⟨"RD_CMD", false, 0x104, 0x1FF⟩
  | .wrCmd _ => ⟨"WR_CMD", false, 0x144, 0x1FF⟩
  | .rdStatus => ⟨"RD_STATUS", false, 0x108, 0x1FF⟩
  | .wrStatus _ => ⟨"WR_STATUS", false, 0x148, 0x1FF⟩
  | .rdWidth => ⟨"RD_WIDTH", false, 0x10C, 0x1FF⟩
  | .wrWidth _ => ⟨"WR_WIDTH", false, 0x14C, 0x1FF⟩
  | .rdHeight => ⟨"RD_HEIGHT", false, 0x110, 0x1FF⟩
  | .wrHeight _ => ⟨"WR_HEIGHT", false, 0x150, 0x1FF⟩
  | .rdRadius => ⟨"RD_RADIUS", false, 0x114, 0x1FF⟩
  | .wrRadius _ => ⟨"WR_RADIUS", false, 0x154, 0x1FF⟩
  | .rdSigma => ⟨"RD_SIGMA", false, 0x118, 0x1FF⟩
  | .wrSigma _ => ⟨"WR_SIGMA", false, 0x158, 0x1FF⟩
  | .rdInBase => ⟨"RD_IN_BASE", false, 0x11C, 0x1FF⟩
  | .wrInBase _ => ⟨"WR_IN_BASE", false, 0x15C, 0x1FF⟩
  | .rdInLen => ⟨"RD_IN_LEN", false, 0x120, 0x1FF⟩
  | .wrInLen _ => ⟨"WR_IN_LEN", false, 0x160, 0x1FF⟩
  | .rdOutBase => ⟨"RD_OUT_BASE", false, 0x124, 0x1FF⟩
  | .wrOutBase _ => ⟨"WR_OUT_BASE", false, 0x164, 0x1FF⟩
  | .rdOutLen => ⟨"RD_OUT_LEN", false, 0x128, 0x1FF⟩
  | .wrOutLen _ => ⟨"WR_OUT_LEN", false, 0x168, 0x1FF⟩
  | .rdErrAddr => ⟨"RD_ERR_ADDR", false, 0x12C, 0x1FF⟩
  | .wrErrAddr _ => ⟨"WR_ERR_ADDR", false, 0x16C, 0x1FF⟩
  | .rdRsvd _ => ⟨"RD_RSVD", false, 0x130, 0x1F3⟩
  | .wrRsvd _ _ => ⟨"WR_RSVD", false, 0x170, 0x1F3⟩
  | .badAccess _ _ _ => ⟨"BAD_ACCESS", false, 0x000, 0x000⟩
  | .nop => ⟨"NOP", true, 0x00000000, 0xFFFFFFFF⟩
  | .start => ⟨"START", true, 0x00000001, 0xFFFFFFFF⟩
  | .clear => ⟨"CLEAR", true, 0x00000002, 0xFFFFFFFF⟩
  | .badCommand _ => ⟨"BAD_COMMAND", true, 0x00000000, 0x00000000⟩

/-- The table, row by row: one instruction of each. -/
def opcodeRows : List OpcodeRow :=
  [rowOf .rdId, rowOf (.wrId 0), rowOf .rdCmd, rowOf (.wrCmd 0), rowOf .rdStatus, rowOf (.wrStatus 0),
   rowOf .rdWidth, rowOf (.wrWidth 0), rowOf .rdHeight, rowOf (.wrHeight 0), rowOf .rdRadius, rowOf (.wrRadius 0)] ++
  [rowOf .rdSigma, rowOf (.wrSigma 0), rowOf .rdInBase, rowOf (.wrInBase 0), rowOf .rdInLen, rowOf (.wrInLen 0),
   rowOf .rdOutBase, rowOf (.wrOutBase 0), rowOf .rdOutLen, rowOf (.wrOutLen 0), rowOf .rdErrAddr,
   rowOf (.wrErrAddr 0)] ++
  [rowOf (.rdRsvd 0), rowOf (.wrRsvd 0 0), rowOf (.badAccess 0 false 0), rowOf .nop, rowOf .start, rowOf .clear,
   rowOf (.badCommand 3)]

/-- The two default rows match every frame of their format, and apply only where no other row does. -/
def OpcodeRow.isDefault (row : OpcodeRow) : Bool := decide (row.mask = 0)

/-- Does a frame have the bits of a row? -/
def rowMatches (row : OpcodeRow) : Frame → Bool
  | .transaction desc _ => !row.isCommand && decide (desc.toNat &&& row.mask = row.pattern)
  | .command word => row.isCommand && decide (word.toNat &&& row.mask = row.pattern)

/-- Why an opcode-table word is no frame. -/
inductive DecodeError where
  /-- Bits stand above the nine of a descriptor, or above the data word. -/
  | bitsOutsideFormat
  /-- The width is neither that of a command word nor that of a transaction. -/
  | unknownWidth
  deriving DecidableEq, Repr

/-- The frame of a table word. 32 bits are a command word. 9 bits (16 in whole bytes) are a descriptor with the data
word 0; 48 bits are a descriptor in the low 16 bits and its data word above it. -/
def tableFrame (nbits w : Nat) : Except DecodeError Frame :=
  if nbits = 32 then
    (if w < 2 ^ 32 then .ok (.command (BitVec.ofNat 32 w)) else .error .bitsOutsideFormat)
  else if nbits = 9 ∨ nbits = 16 then
    (if w < 2 ^ 9 then .ok (.transaction (BitVec.ofNat 9 w) 0) else .error .bitsOutsideFormat)
  else if nbits = 48 then
    (if w % 2 ^ 16 < 2 ^ 9 ∧ w < 2 ^ 48 then
      .ok (.transaction (BitVec.ofNat 9 (w % 2 ^ 16)) (BitVec.ofNat 32 (w / 2 ^ 16)))
     else .error .bitsOutsideFormat)
  else .error .unknownWidth

/-- The instruction of a table word, none where it is no frame. -/
def decodeTableWord (nbits w : Nat) : Option Instr :=
  match tableFrame nbits w with
  | .ok frame => some (decode frame)
  | .error _ => none

end Sys2Proof
end

