-- ==== Sys2Proof/Machine/Order.lean ====
section
/-!
DEFINITION. The order of binary32 values (00_scope.md R12): comparisons as IEEE 754 makes them.
-/

namespace Sys2Proof.Machine

/-- The place of a value on the number line, by its pattern (both zeros at 0); NaN has no place. -/
def frank : F32 → Option Int
  | .nan _ => none
  | .inf neg => some (if neg then -0x7F800000 else 0x7F800000)
  | .fin neg m => some (if neg then -(m.val : Int) else (m.val : Int))

/-- IEEE `a <= b`; false when either is NaN. -/
def fle (a b : F32) : Bool :=
  match frank a, frank b with
  | some x, some y => decide (x ≤ y)
  | _, _ => false

/-- IEEE `a < b`; false when either is NaN. -/
def flt (a b : F32) : Bool :=
  match frank a, frank b with
  | some x, some y => decide (x < y)
  | _, _ => false

end Sys2Proof.Machine
end

