-- ==== Sys2Proof/Config.lean ====
section
/-!
DEFINITION. What an implementation fixes (the OPEN parameters of 00_scope.md R6) and the free values of
93_implementation_defined.md section 2. All of them are opaque: nothing can be proved about their values but the
properties the spec grants.
-/

namespace Sys2Proof

open Sys2Proof.Machine

/-- The two kinds of engine access that `BUS_FAULT(addr, kind)` tells apart (R6, R11). -/
inductive BusDir where
  | read
  | write
  deriving DecidableEq, Repr

/-- 40_convolution.md R105: the properties P1 to P4 of `EXP_F32`; P5 (the result depends on e alone) holds because it is
a function. A claim may assume these and nothing else. -/
structure ExpLaws (f : F32 → F32) : Prop where
  /-- P1 at +0 -/
  at_zero : f .zero = .one
  /-- P1 at -0 -/
  at_negZero : f .negZero = .one
  /-- P2 -/
  at_negInf : f (.inf true) = .zero
  /-- P3: for e in [-inf, 0] the result is +0 or a positive value of at most 1.0. -/
  range : ∀ e, fle e .zero = true → ∃ m : Fin 0x7F800000, f e = .fin false m ∧ m.val ≤ 0x3F800000
  /-- P4 -/
  mono : ∀ e₁ e₂, fle e₁ e₂ = true → fle e₂ .zero = true → fle (f e₁) (f e₂) = true

/-- The simplest function with P1 to P4: 1.0 everywhere but at -inf. It shows that `ExpLaws` can be met, and it gives the
weights of a box filter and of an identity filter, which need no reference exponential (95_test_vectors.md 4.3, 4.5). -/
def unitExp : F32 → F32
  | .inf true => .zero
  | _ => .one

theorem unitExp_laws : ExpLaws unitExp where
  at_zero := rfl
  at_negZero := rfl
  at_negInf := rfl
  range := by
    intro e _
    rcases e with _ | n | ⟨n, m⟩
    · exact ⟨⟨0x3F800000, by decide⟩, rfl, le_rfl⟩
    · cases n
      · exact ⟨⟨0x3F800000, by decide⟩, rfl, le_rfl⟩
      · exact ⟨⟨0, by decide⟩, rfl, by decide⟩
    · exact ⟨⟨0x3F800000, by decide⟩, rfl, le_rfl⟩
  mono := by
    intro e₁ e₂ h₁ _
    rcases e₁ with _ | n₁ | ⟨n₁, m₁⟩
    · simp [fle, frank] at h₁
    · cases n₁
      · rcases e₂ with _ | n₂ | ⟨n₂, m₂⟩
        · simp [fle, frank] at h₁
        · cases n₂
          · rfl
          · simp [fle, frank] at h₁
        · rfl
      · rcases e₂ with _ | n₂ | ⟨n₂, m₂⟩
        · simp [fle, frank] at h₁
        · cases n₂ <;> rfl
        · rfl
    · rcases e₂ with _ | n₂ | ⟨n₂, m₂⟩
      · simp [fle, frank] at h₁
      · cases n₂
        · rfl
        · have := m₁.isLt
          cases n₁ <;> simp [fle, frank] at h₁ <;> omega
      · rfl

/-- The OPEN parameters of R6, with the properties R6 and R105 grant them. The default values only show that the record
is inhabited. -/
structure Params where
  /-- `LANES`: how many work-item contexts there are (R36). -/
  lanes : Nat := 1
  /-- R6: `LANES` >= 1. -/
  lanes_pos : 0 < lanes := by decide
  /-- `BUS_FAULT(addr, kind)`: which engine accesses get an error response (R224). -/
  busFault : Nat → BusDir → Bool := fun _ _ => false
  /-- `EXP_F32` (R105). -/
  expF32 : F32 → F32 := unitExp
  /-- R105: P1 to P4. -/
  exp_laws : ExpLaws expF32 := by exact unitExp_laws
  /-- `MMIO_BASE`: where the platform puts the register window in the host's address map (R22, R233). The width of a host
  address is a DESIGN CHOICE (log entry 10). -/
  mmioBase : Word := 0
  deriving Inhabited

/-- The block at hand: any values of the OPEN parameters. -/
opaque Config.params : Params

/-- Host address of the register at a window offset (R22: "byte offsets 0x00 to 0x3C from `MMIO_BASE`"). DESIGN CHOICE, log
entry 10: the spec gives the host's map no width; here a host address has 32 bits and the sum wraps modulo 2^32. -/
def Config.windowAddress (P : Params) (offset : BitVec 6) : Word := P.mmioBase + offset.setWidth 32

/-- Who takes the next step (R15, R145), with the choices a step leaves open (R144). -/
inductive Turn where
  /-- The host performs its next operation. -/
  | host
  /-- The Sequencer performs WI_ISSUE of a pixel into a context. -/
  | issue (ctx : Nat) (pixel : Pixel)
  /-- A context performs its next WI_OFFSET or WI_FINISH. -/
  | context (ctx : Nat)
  /-- While a context processes an in-bounds offset, the block reads the input word of the offset (oi, oj) of its window,
  once more or ahead of its turn (20_memory.md R54: any number of times, in any order). -/
  | fetch (ctx : Nat) (oi oj : Int)
  /-- A context performs its next WI_OFFSET without a read of its own (20_memory.md R57: "or not at all"). -/
  | held (ctx : Nat)
  /-- The Sequencer performs JOB_COMPLETE. -/
  | complete
  /-- The reset input is asserted (70_reset_and_hazards.md R250). -/
  | reset
  deriving DecidableEq, Repr, Inhabited

/-- The operations that can produce a NaN. -/
inductive FloatOp where
  | add
  | mul
  | div
  deriving DecidableEq, Repr

/-- FREE VALUE. Which NaN a binary32 operation produces from its operands (00_scope.md R12 gives no sign or payload). -/
opaque Config.nanResult : FloatOp → F32 → F32 → Nan

/-- FREE VALUE. The bytes a havoc writes (R147, R250, R262) and the bytes a host read of an output region returns before
the host has learned of the job's end (R262, R264), one for each number drawn. -/
opaque Config.freeByte : Nat → Byte

/-- FREE VALUE. What a byte of the data space holds that nothing has written yet (95_test_vectors.md section 8: "Memory
not listed holds anything"). -/
opaque Config.powerOnByte : Nat → Byte

/-- FREE VALUE. Whose turn is next in a running job when the state's own schedule has run out (R144, R145: the choice is
not specified), one for each number drawn. -/
opaque Config.schedule : Nat → Turn

end Sys2Proof
end

