-- ==== Sys2Proof/Machine/State.lean ====
section
/-!
DEFINITION. The state of the machine (10_state.md), its reset value, and the reasons it can stop. Plain data throughout.
-/

namespace Sys2Proof.Machine

/-- STATUS.STATE (10_state.md R26). -/
inductive Phase where
  /-- No job has run since reset or CLEAR. -/
  | idle
  /-- A job is running. -/
  | busy
  /-- The last job completed. -/
  | done
  /-- The last command or job failed. -/
  | error
  deriving DecidableEq, Repr

/-- STATUS.ECODE (60_exceptions.md R220). The values 8 to 15 are reserved and never produced, so they have no name. -/
inductive ECode where
  | noError
  | invalidParameter
  | dimensionMismatch
  | busFault
  | misalignedBuffer
  | bufferRange
  | bufferOverlap
  | badCommand
  deriving DecidableEq, Repr

/-- The eight read-write registers (10_state.md R28 to R33). They hold all 32 bits exactly as written (R22). -/
structure Regs where
  width : Word
  height : Word
  radius : Word
  sigma : Word
  inBase : Word
  inLen : Word
  outBase : Word
  outLen : Word
  deriving DecidableEq, Repr

/-- The name of a read-write register. -/
inductive Param where
  | width
  | height
  | radius
  | sigma
  | inBase
  | inLen
  | outBase
  | outLen
  deriving DecidableEq, Repr

/-- The accumulator of a work-item: S[0..3] and T of 10_state.md R36. -/
structure Accum where
  sums : Rgba F32
  total : F32
  deriving DecidableEq, Repr

/-- A work-item context (10_state.md R36) while it is valid: its pixel, the next window offset, its accumulator. -/
structure Ctx where
  x : Nat
  y : Nat
  oi : Int
  oj : Int
  acc : Accum
  deriving DecidableEq, Repr

/-- Job state (10_state.md R34). `todo` is a set of pixels, kept in row-major order without repeats. -/
structure Job where
  todo : List Pixel
  pending : Nat
  w : Nat
  h : Nat
  r : Int
  sigma : F32
  d : F32
  inBase : Nat
  outBase : Nat
  deriving DecidableEq, Repr

/-- A range of bytes of the data space, such as an input or output region (00_scope.md glossary). -/
structure Region where
  base : Nat
  len : Nat
  deriving DecidableEq, Repr

/-- How the register window answered the latest transaction (30_encoding.md R71, 42_host_interface.md R160, R199). -/
inductive Response where
  /-- There has been no transaction. -/
  | none
  /-- A legal write: OK, also where the write was ignored. -/
  | ok
  /-- A legal read: OK with the 32-bit value. -/
  | data (value : Word)
  /-- BAD_ACCESS: the error response, which carries no data. -/
  | slverr
  deriving DecidableEq, Repr

/-- An operation of the host (30_encoding.md R79, 42_host_interface.md R205). -/
inductive HostOp where
  /-- `WR`, `RD`, or an access of any other size and offset: a transaction of the block. -/
  | access (desc : BitVec 9) (data : Word)
  /-- `MW32` and writes of any other width, lowest address first. -/
  | memWrite (addr : Word) (bytes : List Byte)
  /-- `MR32` and reads of any other width. -/
  | memRead (addr : Word) (count : Nat)
  /-- `BEQ`: taken when `(last RD result & mask) == value`. A label is its place in the program. -/
  | branchEq (target : Nat) (mask value : Word)
  /-- `BNE`: taken when they differ. -/
  | branchNe (target : Nat) (mask value : Word)
  deriving DecidableEq, Repr

/-- The host: its program, its place in it, the value of its last `RD`, the bytes of its last data-space read. -/
structure HostAgent where
  prog : List HostOp
  pc : Nat
  lastRd : Word
  memData : List Byte
  deriving DecidableEq, Repr

/-- The data space (10_state.md R39): the bytes something has written, by address. -/
abbrev Memory := List Host.Cell

/-- The machine. -/
structure State where
  /-- WIDTH to OUT_LEN (R28 to R33). -/
  regs : Regs
  /-- STATUS.STATE (R26). -/
  phase : Phase
  /-- STATUS.ECODE (R25). -/
  ecode : ECode
  /-- ERR_ADDR (R27). -/
  errAddr : Word
  /-- Job state (R34). -/
  job : Job
  /-- The valid contexts by number, rising (R36). A context that is not listed has `valid` = false, and then its other
  fields hold no value (R38). -/
  ctxs : List (Nat × Ctx)
  /-- The data space (R39). -/
  mem : Memory
  /-- The host has written an input or output byte during the running job (70_reset_and_hazards.md R262). -/
  breach : Bool
  /-- Output regions of the jobs since whose START the host has not read STATUS with STATE != BUSY
  (70_reset_and_hazards.md R262, R264; 20_memory.md R62, R64). -/
  unread : List Region
  /-- Regions of output bytes whose job has ended for the host's duty (R262), but whose writes no STATUS read of DONE or ERROR
  has ordered before the host's later reads (R264; 20_memory.md R64). A byte that the host then writes leaves them. -/
  unordered : List Region
  /-- The answer to the latest register-window transaction. -/
  resp : Response
  /-- The host (00_scope.md R15). -/
  host : HostAgent
  /-- Who steps next, in order (R145): the MODEL's field, an input of the machine. -/
  turns : List Turn
  /-- How many free values have been drawn: the MODEL's field. -/
  draws : Nat
  deriving DecidableEq, Repr

/-- Why the machine stops. Both are addresses outside the data space of 2^32 bytes (20_memory.md R50). -/
inductive Fault where
  /-- Raised by a host data-space access that runs past the last byte. SAFE: the spec gives such an access no meaning. -/
  | hostAddress
  /-- Raised by an engine access outside the data space. SAFE: R150 says no job makes one, and none is made from a state
  that keeps the invariant `MachineInv` of Sys2Proof/Safety.lean. -/
  | engineAddress
  deriving DecidableEq, Repr

/-- Why an instruction has no meaning. -/
inductive Refusal where
  /-- Raised by an arm of `exec` whose instruction is not modelled. SAFE: the machine stops. -/
  | notModelled (mnemonic : String)
  deriving DecidableEq, Repr

/-- 10_state.md R22: every read-write register resets to 0. -/
def Regs.reset : Regs := ⟨0, 0, 0, 0, 0, 0, 0, 0⟩

/-- 10_state.md R40: no pixel to issue, none pending. The other fields are don't-care (R251); DESIGN CHOICE 0, log 13. -/
def Job.reset : Job :=
  { todo := [], pending := 0, w := 0, h := 0, r := 0, sigma := .zero, d := .zero, inBase := 0, outBase := 0 }

/-- The host before it has done anything: DESIGN CHOICE, log entries 2 and 12. -/
def HostAgent.reset : HostAgent := { prog := [], pc := 0, lastRd := 0, memData := [] }

/-- The machine right after reset (10_state.md R40, 70_reset_and_hazards.md R250). -/
def State.reset : State :=
  { regs := Regs.reset, phase := .idle, ecode := .noError, errAddr := 0, job := Job.reset, ctxs := [], mem := [],
    breach := false, unread := [], unordered := [], resp := .none, host := HostAgent.reset, turns := [], draws := 0 }

end Sys2Proof.Machine
end

