-- ==== Sys2Proof/Machine/Flags.lean ====
section
/-!
DEFINITION. The STATUS word (10_state.md R25, R26; 60_exceptions.md R220; 30_encoding.md R76). The block has no other
flags (R21).
-/

namespace Sys2Proof.Machine

/-- R26: the encoding of STATE. -/
def phaseBits : Phase → BitVec 2
  | .idle => 0b00
  | .busy => 0b01
  | .done => 0b10
  | .error => 0b11

/-- R220: the encoding of ECODE. -/
def ecodeBits : ECode → BitVec 4
  | .noError => 0
  | .invalidParameter => 1
  | .dimensionMismatch => 2
  | .busFault => 3
  | .misalignedBuffer => 4
  | .bufferRange => 5
  | .bufferOverlap => 6
  | .badCommand => 7

/-- R76: `{24'b0, ECODE[3:0], 2'b00, STATE[1:0]}`. -/
def statusWord (phase : Phase) (ecode : ECode) : Word :=
  0#24 ++ ecodeBits ecode ++ 0#2 ++ phaseBits phase

end Sys2Proof.Machine
end

