-- ==== Sys2Proof/Machine/Float.lean ====
section
/-!
DEFINITION. Binary32 arithmetic (00_scope.md R12, R13): exact integers first, ONE rounding at the end. Every finite
binary32 value is a whole number of units of 2^-149, the smallest subnormal, so sums, products and quotients are taken
exactly on unit counts and `rndMag` rounds the exact result to nearest, ties to even.
-/

namespace Sys2Proof.Machine

/-- R9 `f32bits(v)`: a 32-bit pattern read as a binary32 value. -/
def f32bits (w : Word) : F32 :=
  if h : w.toNat % 2 ^ 31 < 0x7F800000 then .fin w.msb ⟨w.toNat % 2 ^ 31, h⟩
  else if w.toNat % 2 ^ 31 = 0x7F800000 then .inf w.msb
  else .nan ⟨w.msb, ⟨w.toNat % 2 ^ 31 - 0x7F800001, by omega⟩⟩

/-- The pattern with sign `neg` and the magnitude `m` below it. -/
def signedPattern (neg : Bool) (m : Nat) : Word :=
  BitVec.ofNat 32 ((if neg then 2 ^ 31 else 0) + m)

/-- R9 `bits32(f)`: the pattern of a binary32 value. It undoes `f32bits`, of a NaN too. -/
def bits32 : F32 → Word
  | .nan n => signedPattern n.neg (0x7F800001 + n.payload.val)
  | .inf neg => signedPattern neg 0x7F800000
  | .fin neg m => signedPattern neg m.val

/-- How many units of 2^-149 the magnitude pattern `m` stands for: the fraction alone for a subnormal, the fraction with
its hidden bit, scaled by the exponent, for a normal number. -/
def magUnits (m : Nat) : Nat :=
  if m < 2 ^ 23 then m else (2 ^ 23 + m % 2 ^ 23) * 2 ^ (m / 2 ^ 23 - 1)

/-- A finite value as a signed count of units. -/
def signedUnits (neg : Bool) (m : Nat) : Int :=
  if neg then -(magUnits m : Int) else (magUnits m : Int)

/-- The whole number nearest to `num / den`, an exact half going to the even one. -/
def roundDiv (num den : Nat) : Nat :=
  if den < 2 * (num % den) ∨ (2 * (num % den) = den ∧ num / den % 2 = 1) then num / den + 1 else num / den

/-- R12 `rnd32` on a magnitude: the pattern nearest to `num / den` units, ties to even. The spacing of binary32 values
around it is 2^k units, with k = 0 for subnormals and the first normal binade. A carry out of the significand moves the
pattern to the next binade, and past the largest finite number to 0x7F800000 or above. -/
def rndMag (num den : Nat) : Nat :=
  roundDiv num (den * 2 ^ (Nat.log2 (num / den) - 23)) + (Nat.log2 (num / den) - 23) * 2 ^ 23

/-- The value with a magnitude pattern, infinity where the pattern has left the finite range
(R12: |x| at least 2^128 * (1 - 2^-25)). -/
def ofMag (neg : Bool) (m : Nat) : F32 :=
  if h : m < 0x7F800000 then .fin neg ⟨m, h⟩ else .inf neg

/-- R12 `rnd32(x)` for x = ± num / den units of 2^-149. -/
def rnd32 (neg : Bool) (num den : Nat) : F32 := ofMag neg (rndMag num den)

/-- The NaN that an operation produces. R12 does not say which: sign and payload are a free value (log entry 11). -/
def nanOf (op : FloatOp) (a b : F32) : F32 := .nan (Config.nanResult op a b)

/-- R12 `fadd`. An exact zero sum is -0 only when both operands are negative, as IEEE 754 prescribes. -/
def fadd : F32 → F32 → F32
  | .nan n, b => nanOf .add (.nan n) b
  | a, .nan n => nanOf .add a (.nan n)
  | .inf s, .inf t => if s = t then .inf s else nanOf .add (.inf s) (.inf t)
  | .inf s, .fin _ _ => .inf s
  | .fin _ _, .inf t => .inf t
  | .fin s m, .fin t n =>
    if signedUnits s m.val + signedUnits t n.val = 0 then ofMag (s && t) 0
    else rnd32 (decide (signedUnits s m.val + signedUnits t n.val < 0))
      (signedUnits s m.val + signedUnits t n.val).natAbs 1

/-- R12 `fmul`; infinity times zero is NaN. -/
def fmul : F32 → F32 → F32
  | .nan n, b => nanOf .mul (.nan n) b
  | a, .nan n => nanOf .mul a (.nan n)
  | .inf s, .inf t => .inf (s != t)
  | .inf s, .fin t n => if n.val = 0 then nanOf .mul (.inf s) (.fin t n) else .inf (s != t)
  | .fin s m, .inf t => if m.val = 0 then nanOf .mul (.fin s m) (.inf t) else .inf (s != t)
  | .fin s m, .fin t n => rnd32 (s != t) (magUnits m.val * magUnits n.val) (2 ^ 149)

/-- R12 `fdiv`; 0/0 and inf/inf are NaN, x/inf is a signed zero, a nonzero value over zero a signed infinity. -/
def fdiv : F32 → F32 → F32
  | .nan n, b => nanOf .div (.nan n) b
  | a, .nan n => nanOf .div a (.nan n)
  | .inf s, .inf t => nanOf .div (.inf s) (.inf t)
  | .inf s, .fin t _ => .inf (s != t)
  | .fin s _, .inf t => ofMag (s != t) 0
  | .fin s m, .fin t n =>
    if n.val = 0 then (if m.val = 0 then nanOf .div (.fin s m) (.fin t n) else .inf (s != t))
    else rnd32 (s != t) (magUnits m.val * 2 ^ 149) (magUnits n.val)

/-- R12 `int_to_f32(n) = rnd32(n)`; the integer 0 gives +0.0 (40_convolution.md R102). -/
def intToF32 (n : Int) : F32 := rnd32 (decide (n < 0)) (n.natAbs * 2 ^ 149) 1

/-- R12 `u8_to_f32(p)`: every integer 0..255 is exact in binary32. -/
def u8ToF32 (p : Byte) : F32 := intToF32 (p.toNat : Int)

/-- Is the value +0 or -0? -/
def isZero : F32 → Bool
  | .fin _ m => decide (m.val = 0)
  | _ => false

/-- R13 `roundTiesEven(v)` of the finite value with sign `neg` and magnitude pattern `m`. -/
def roundTiesEven (neg : Bool) (m : Nat) : Int :=
  if neg then -(roundDiv (magUnits m) (2 ^ 149) : Int) else (roundDiv (magUnits m) (2 ^ 149) : Int)

/-- R13 `clamp(n, lo, hi) = min(max(n, lo), hi)`. -/
def clamp (n lo hi : Int) : Int := min (max n lo) hi

end Sys2Proof.Machine
end

