-- ==== Sys2Proof/Machine/Operands.lean ====
section
/-!
DEFINITION. How the values an operation works on are read and assembled: the register operands of a command
(30_encoding.md R75), the addresses of pixels (20_memory.md R51) and the pixel word (R52).
-/

namespace Sys2Proof.Machine

/-- The register operands of START, widened to exact integers (R75). -/
structure Operands where
  w : Nat
  h : Nat
  r : Int
  sigma : F32
  inBase : Nat
  inLen : Nat
  outBase : Nat
  outLen : Nat
  deriving DecidableEq, Repr

/-- R75: WIDTH, HEIGHT, the bases and the lengths zero-extended, RADIUS as s32, SIGMA as binary32. -/
def operandsOf (g : Regs) : Operands :=
  { w := g.width.toNat, h := g.height.toNat, r := g.radius.toInt, sigma := f32bits g.sigma,
    inBase := g.inBase.toNat, inLen := g.inLen.toNat, outBase := g.outBase.toNat, outLen := g.outLen.toNat }

/-- 41_dispatch.md R141: `N <- W * H`. -/
def pixelCount (w h : Nat) : Nat := w * h

/-- 41_dispatch.md R141: `L <- 4 * N`, the bytes of an image. -/
def imageBytes (w h : Nat) : Nat := 4 * pixelCount w h

/-- 40_convolution.md R103: `d = fmul(2.0, fmul(σ, σ))`. -/
def denominator (sigma : F32) : F32 := fmul .two (fmul sigma sigma)

/-- R51: pixel (x, y) of an image of width `w` lies at `base + 4 * (y * w + x)`. -/
def pixelAddr (base w x y : Nat) : Nat := base + 4 * (y * w + x)

/-- R52, R112: channel c of a pixel word is bits [8c+7 : 8c]. -/
def unpackPixel (word : Word) : Rgba Byte :=
  { r := word.extractLsb' 0 8, g := word.extractLsb' 8 8, b := word.extractLsb' 16 8, a := word.extractLsb' 24 8 }

/-- R52, R76: the pixel word `{A, B, G, R}`. -/
def packPixel (p : Rgba Byte) : Word := p.a ++ p.b ++ p.g ++ p.r

/-- Does a region hold the byte at an address? -/
def Region.holds (region : Region) (addr : Nat) : Bool :=
  decide (region.base ≤ addr) && decide (addr < region.base + region.len)

/-- What is left of a region without `count` bytes from `addr` on: the part before them and the part after them. -/
def Region.without (addr count : Nat) (region : Region) : List Region :=
  [⟨region.base, min addr (region.base + region.len) - region.base⟩,
   ⟨max region.base (addr + count), region.base + region.len - max region.base (addr + count)⟩].filter (0 < ·.len)

/-- The input region of the job. -/
def inputRegion (job : Job) : Region := ⟨job.inBase, imageBytes job.w job.h⟩

/-- The output region of the job. -/
def outputRegion (job : Job) : Region := ⟨job.outBase, imageBytes job.w job.h⟩

end Sys2Proof.Machine
end

