-- ==== Sys2Proof/Machine/Ops.lean ====
section
/-!
DEFINITION. The named operations over memory, contexts and registers that every unit of the block shares, the entry to
ERROR (60_exceptions.md R221) and the way out of it (R226).
-/

namespace Sys2Proof.Machine

/-! ### Lists keyed by a number, rising: the bytes of memory, the valid contexts -/

/-- The entry of a key. -/
def cellFind {α : Type} (k : Nat) : List (Nat × α) → Option α
  | [] => none
  | (j, v) :: rest => if j = k then some v else cellFind k rest

/-- The list with the entry of a key set, in its place. -/
def cellSet {α : Type} (k : Nat) (v : α) : List (Nat × α) → List (Nat × α)
  | [] => [(k, v)]
  | (j, w) :: rest =>
    if k < j then (k, v) :: (j, w) :: rest
    else if k = j then (k, v) :: rest
    else (j, w) :: cellSet k v rest

/-- The list without the entry of a key. -/
def cellErase {α : Type} (k : Nat) : List (Nat × α) → List (Nat × α)
  | [] => []
  | (j, w) :: rest => if j = k then rest else (j, w) :: cellErase k rest

/-- Keys rise strictly, so no key is listed twice. -/
abbrev Rising {α : Type} (cells : List (Nat × α)) : Prop := (cells.map Prod.fst).Pairwise (· < ·)

/-! ### The data space (10_state.md R39, 20_memory.md R50 to R53) -/

/-- R50: byte addresses are 0 to 2^32 - 1. -/
def dataSpaceSize : Nat := 2 ^ 32

/-- The canonical form of a memory: addresses rise strictly and lie in the data space. What an unlisted address holds is
no listed value (`storedByte` gives none for it), so no entry repeats it. -/
abbrev Memory.wf (m : Memory) : Prop := Rising m ∧ ∀ cell ∈ m, cell.1 < dataSpaceSize

/-- The byte that something has written at an address; none where nothing has. -/
def storedByte (m : Memory) (addr : Nat) : Option Byte := cellFind addr m

/-- The byte at an address. Where nothing has been written it is a free value of the address (log entry 6). -/
def readByte (m : Memory) (addr : Nat) : Byte := (storedByte m addr).getD (Config.powerOnByte addr)

/-- Store a byte. An address outside the data space holds nothing. -/
def writeByte (addr : Nat) (v : Byte) (m : Memory) : Memory :=
  if addr < dataSpaceSize then cellSet addr v m else m

/-- The little-endian word at an address (R52): the byte at the lowest address is bits [7:0]. -/
def readWord (m : Memory) (addr : Nat) : Word :=
  readByte m (addr + 3) ++ readByte m (addr + 2) ++ readByte m (addr + 1) ++ readByte m addr

/-- Store bytes at rising addresses. -/
def writeBytes (addr : Nat) : List Byte → Memory → Memory
  | [], m => m
  | v :: rest, m => writeBytes (addr + 1) rest (writeByte addr v m)

/-- R52: a word's bytes, bits [7:0] first. -/
def wordBytes (v : Word) : List Byte :=
  [v.extractLsb' 0 8, v.extractLsb' 8 8, v.extractLsb' 16 8, v.extractLsb' 24 8]

/-- Store a little-endian word. -/
def writeWord (addr : Nat) (v : Word) (m : Memory) : Memory := writeBytes addr (wordBytes v) m

/-- Store `value (base + k)` at every address `base + k` with k < len. -/
def fillBytes (value : Nat → Byte) (base : Nat) : Nat → Memory → Memory
  | 0, m => m
  | len + 1, m => writeByte (base + len) (value (base + len)) (fillBytes value base len m)

/-- What an access on the master port comes to (00_scope.md R11). -/
inductive BusResult (α : Type) where
  | ok (value : α)
  /-- The outcome `BusFault(addr)`. -/
  | busFault
  /-- The address lies outside the data space: no rule makes such an access (41_dispatch.md R150). -/
  | outside
  deriving Repr

/-- R11 `MemRead(addr, 4)`. -/
def memRead (P : Params) (m : Memory) (addr : Nat) : BusResult Word :=
  if dataSpaceSize < addr + 4 then .outside
  else if P.busFault addr .read then .busFault
  else .ok (readWord m addr)

/-- R11 `MemWrite(addr, 4, v)`. The unspecified effect of a faulting write is covered by the havoc of R147. -/
def memWrite (P : Params) (m : Memory) (addr : Nat) (v : Word) : BusResult Memory :=
  if dataSpaceSize < addr + 4 then .outside
  else if P.busFault addr .write then .busFault
  else .ok (writeWord addr v m)

/-! ### Free values -/

/-- Havoc a region (41_dispatch.md R147): each byte takes a free value, a fresh one for each byte. -/
def havoc (region : Region) (s : State) : State :=
  { s with
    mem := fillBytes (fun addr => Config.freeByte (s.draws + (addr - region.base))) region.base region.len s.mem
    draws := s.draws + region.len }

/-- Havoc the output region of the job. -/
def havocOutput (s : State) : State := havoc (outputRegion s.job) s

/-! ### Registers -/

/-- Read a read-write register. -/
def readParam (p : Param) (g : Regs) : Word :=
  match p with
  | .width => g.width
  | .height => g.height
  | .radius => g.radius
  | .sigma => g.sigma
  | .inBase => g.inBase
  | .inLen => g.inLen
  | .outBase => g.outBase
  | .outLen => g.outLen

/-- Store into a read-write register: all 32 bits exactly as written (10_state.md R22). -/
def setParam (p : Param) (v : Word) (g : Regs) : Regs :=
  match p with
  | .width => { g with width := v }
  | .height => { g with height := v }
  | .radius => { g with radius := v }
  | .sigma => { g with sigma := v }
  | .inBase => { g with inBase := v }
  | .inLen => { g with inLen := v }
  | .outBase => { g with outBase := v }
  | .outLen => { g with outLen := v }

/-- 42_host_interface.md R161: a write to a read-write register has no effect while STATE = BUSY. -/
def writeParam (p : Param) (v : Word) (s : State) : State :=
  if s.phase = .busy then s else { s with regs := setParam p v s.regs }

/-! ### Answers to the host -/

/-- A legal write completes with OK, also where it was ignored (R160). -/
def respondOk (s : State) : State := { s with resp := .ok }

/-- A legal read returns a value; the host keeps it as its last RD result (30_encoding.md R79). -/
def respondData (v : Word) (s : State) : State :=
  { s with resp := .data v, host := { s.host with lastRd := v } }

/-- R199: SLVERR, with no data, so the host's last RD result stays. -/
def respondSlverr (s : State) : State := { s with resp := .slverr }

/-- What a STATUS read tells the host of the jobs so far. STATE != BUSY ends its duty for each of them
(70_reset_and_hazards.md R262). DONE or ERROR orders their writes before the host's later reads (20_memory.md R62, R64); IDLE,
after a CLEAR or a reset, does not (R264). DESIGN CHOICE, log entry 29: R264 names the read of DONE alone and R64 names ERROR
too; here any ERROR orders them, whatever its code. -/
def ackStatus (s : State) : State :=
  match s.phase with
  | .busy => s
  | .idle => { s with unread := [], unordered := s.unread ++ s.unordered }
  | .done | .error => { s with unread := [], unordered := [] }

/-! ### Entering and leaving ERROR -/

/-- No context is valid, no pixel waits, none is pending: what every way out of a job does
(60_exceptions.md R221, 70_reset_and_hazards.md R250). -/
def dropJob (s : State) : State :=
  { s with ctxs := [], job := { s.job with todo := [], pending := 0 } }

/-- 60_exceptions.md R221, `raise Error(code, addr)`: the one entry to ERROR. Nothing else is saved. -/
def raiseError (code : ECode) (addr : Word) (s : State) : State :=
  { dropJob s with phase := .error, ecode := code, errAddr := addr }

/-- R226: the way out of ERROR that is no new job, as CLEAR takes it (42_host_interface.md R203). -/
def clearStatus (s : State) : State := { s with phase := .idle, ecode := .noError, errAddr := 0 }

end Sys2Proof.Machine
end

