-- ==== Sys2Proof/Machine/Convolution.lean ====
section
/-!
DEFINITION. The convolution datapath (40_convolution.md): weight generator, neighborhood accumulator, 8-bit quantizer, the
scan of the window, and PIXEL, their functional form.
-/

namespace Sys2Proof.Machine

/-- One function on every channel (R112: all four use the same operations). -/
def Rgba.map {α β : Type} (f : α → β) (p : Rgba α) : Rgba β := ⟨f p.r, f p.g, f p.b, f p.a⟩

/-- One function on every channel of two pixels. -/
def Rgba.zip {α β γ : Type} (f : α → β → γ) (p : Rgba α) (q : Rgba β) : Rgba γ :=
  ⟨f p.r q.r, f p.g q.g, f p.b q.b, f p.a q.a⟩

/-! ### Weight generator -/

/-- R102: `q = int_to_f32(-(i*i + j*j))`. -/
def numerator (i j : Int) : F32 := intToF32 (-(i * i + j * j))

/-- R104: `e = fdiv(q, d)`. -/
def exponent (d : F32) (i j : Int) : F32 := fdiv (numerator i j) d

/-- R101, R105: WEIGHT(i, j) for an exponential `exp` and a job's denominator `d`. -/
def weight (exp : F32 → F32) (d : F32) (i j : Int) : F32 := exp (exponent d i j)

/-! ### Accumulator -/

/-- R108: the sums and the total weight start at +0.0. -/
def accZero : Accum := { sums := ⟨.zero, .zero, .zero, .zero⟩, total := .zero }

/-- R110, R113: one neighbor with weight `w`. Each channel rounds twice, the product and then the sum; the total rounds
once. -/
def accAdd (w : F32) (p : Rgba Byte) (acc : Accum) : Accum :=
  { sums := Rgba.zip (fun sum c => fadd sum (fmul w (u8ToF32 c))) acc.sums p
    total := fadd acc.total w }

/-! ### Quantizer -/

/-- R115: Q8. -/
def q8 : F32 → Byte
  | .nan _ => 0
  | .inf true => 0
  | .inf false => 255
  | .fin neg m => BitVec.ofNat 8 (clamp (roundTiesEven neg m.val) 0 255).toNat

/-- R114: `b[c] = Q8(fdiv(S[c], T))`. -/
def quantize (acc : Accum) : Rgba Byte := Rgba.map (fun sum => q8 (fdiv sum acc.total)) acc.sums

/-! ### The window -/

/-- R107: `InBounds(nx, ny)`, on exact integers. -/
def inBounds (w h : Nat) (nx ny : Int) : Bool :=
  decide (0 ≤ nx) && decide (nx < (w : Int)) && decide (0 ≤ ny) && decide (ny < (h : Int))

/-- R109 `Advance(ctx)`. -/
def advance (r : Int) (c : Ctx) : Ctx :=
  if c.oi < r then { c with oi := c.oi + 1 } else { c with oi := -r, oj := c.oj + 1 }

/-- How many offsets a row, or a column, of the window has: 2r + 1. -/
def windowSide (r : Int) : Nat := (2 * r + 1).toNat

/-- R109: the window offsets (oi, oj) in scan order, row by row, each ascending from -r to r. -/
def scanOffsets (r : Int) : List (Int × Int) :=
  (List.range (windowSide r)).flatMap fun (b : Nat) =>
    (List.range (windowSide r)).map fun (a : Nat) => ((a : Int) - r, (b : Int) - r)

/-! ### PIXEL (R118) -/

/-- An image: a function from in-bounds coordinates to four bytes. -/
abbrev Image := Nat → Nat → Rgba Byte

/-- R118, the body of the two loops: skip an out-of-bounds neighbor, accumulate any other. -/
def visit (exp : F32 → F32) (img : Image) (w h : Nat) (d : F32) (x y : Nat) (acc : Accum) (o : Int × Int) : Accum :=
  if inBounds w h (x + o.1) (y + o.2) then
    accAdd (weight exp d o.1 o.2) (img ((x : Int) + o.1).toNat ((y : Int) + o.2).toNat) acc
  else acc

/-- R118: S and T after the whole window. -/
def pixelAcc (exp : F32 → F32) (img : Image) (w h : Nat) (r : Int) (d : F32) (x y : Nat) : Accum :=
  (scanOffsets r).foldl (visit exp img w h d x y) accZero

/-- R118: PIXEL(img, W, H, r, d, x, y). -/
def pixel (exp : F32 → F32) (img : Image) (w h : Nat) (r : Int) (d : F32) (x y : Nat) : Rgba Byte :=
  quantize (pixelAcc exp img w h r d x y)

/-- The image that memory holds at a base address (20_memory.md R51). -/
def imageAt (m : Memory) (base w : Nat) : Image := fun x y => unpackPixel (readWord m (pixelAddr base w x y))

/-! ### Work-item steps -/

/-- R108: the context of a fresh work-item. -/
def freshCtx (r : Int) (p : Pixel) : Ctx := { x := p.x, y := p.y, oi := -r, oj := -r, acc := accZero }

end Sys2Proof.Machine
end

