-- ==== Sys2Proof/Machine/Job.lean ====
section
/-!
DEFINITION. The Sequencer and the contexts at work (41_dispatch.md, 40_convolution.md section 4) and the reset of the
block (70_reset_and_hazards.md R250).
-/

namespace Sys2Proof.Machine

/-! ### START -/

/-- 41_dispatch.md R141, first check: s32(RADIUS) < 0; or SIGMA NaN, not positive, +inf, or with a 2σ² that underflows. -/
def badParameter (o : Operands) : Bool :=
  decide (o.r < 0) || !flt .zero o.sigma || decide (o.sigma = .inf false) || isZero (denominator o.sigma)

/-- R141, second check: each length is the image's. -/
def badLength (o : Operands) : Bool :=
  decide (o.inLen ≠ imageBytes o.w o.h) || decide (o.outLen ≠ imageBytes o.w o.h)

/-- R141, third check: bases are multiples of 4. -/
def badAlignment (o : Operands) : Bool := decide (o.inBase % 4 ≠ 0) || decide (o.outBase % 4 ≠ 0)

/-- R141, fourth check: both regions end at or below 2^32. -/
def badRange (o : Operands) : Bool :=
  decide (dataSpaceSize < o.inBase + imageBytes o.w o.h) || decide (dataSpaceSize < o.outBase + imageBytes o.w o.h)

/-- R141, fifth check: the regions share no byte. -/
def badOverlap (o : Operands) : Bool :=
  decide (0 < imageBytes o.w o.h) && decide (o.inBase < o.outBase + imageBytes o.w o.h) &&
    decide (o.outBase < o.inBase + imageBytes o.w o.h)

/-- R141: the first failing check decides the code; none when every check passes. -/
def validate (o : Operands) : Option ECode :=
  if badParameter o then some .invalidParameter
  else if badLength o then some .dimensionMismatch
  else if badAlignment o then some .misalignedBuffer
  else if badRange o then some .bufferRange
  else if badOverlap o then some .bufferOverlap
  else none

/-- R142: every pixel of the image, in row-major order. -/
def grid (w h : Nat) : List Pixel :=
  (List.range h).flatMap fun y => (List.range w).map fun x => ⟨x, y⟩

/-- R142: the job of validated operands. -/
def jobOf (o : Operands) : Job :=
  { todo := grid o.w o.h, pending := 0, w := o.w, h := o.h, r := o.r, sigma := o.sigma, d := denominator o.sigma,
    inBase := o.inBase, outBase := o.outBase }

/-- R142, R143: job setup. An empty image is DONE at once, with nothing to write. The host's duty of R262 begins anew, and
the output region of a job that runs is unread until the host reads STATUS with STATE != BUSY. -/
def setupJob (o : Operands) (s : State) : State :=
  { s with
    job := jobOf o, ecode := .noError, errAddr := 0, breach := false
    phase := if pixelCount o.w o.h = 0 then .done else .busy
    unread := if pixelCount o.w o.h = 0 then s.unread else outputRegion (jobOf o) :: s.unread }

/-- R140: START, one atomic step: validation, then error or setup. -/
def startJob (s : State) : State :=
  match validate (operandsOf s.regs) with
  | some code => raiseError code 0 s
  | none => setupJob (operandsOf s.regs) s

/-! ### The steps of a running job -/

/-- 41_dispatch.md R147, JOB_FAULT(a): havoc the output region, then the entry to ERROR with ECODE 3. -/
def jobFault (addr : Nat) (s : State) : State := raiseError .busFault (BitVec.ofNat 32 addr) (havocOutput s)

/-- 40_convolution.md R108, the condition of WI_ISSUE: a running job, a pixel not yet issued, a free context. -/
def canIssue (P : Params) (k : Nat) (p : Pixel) (s : State) : Bool :=
  decide (s.phase = .busy) && decide (p ∈ s.job.todo) && decide (k < P.lanes) && (cellFind k s.ctxs).isNone

/-- R108, WI_ISSUE. A turn that names no pixel or context the condition allows takes no step. -/
def wiIssue (P : Params) (k : Nat) (p : Pixel) (s : State) : State :=
  if canIssue P k p s then
    { s with
      job := { s.job with todo := s.job.todo.erase p, pending := s.job.pending + 1 }
      ctxs := cellSet k (freshCtx s.job.r p) s.ctxs }
  else s

/-- Store a context's fields. -/
def putCtx (k : Nat) (c : Ctx) (s : State) : State := { s with ctxs := cellSet k c s.ctxs }

/-- R110, the address of the neighbor that a context looks at next. -/
def neighborAddr (job : Job) (c : Ctx) : Nat :=
  pixelAddr job.inBase job.w ((c.x : Int) + c.oi).toNat ((c.y : Int) + c.oj).toNat

/-- R110: accumulate a neighbor's word with its weight and advance. -/
def accumulate (P : Params) (k : Nat) (c : Ctx) (word : Word) (s : State) : State :=
  putCtx k (advance s.job.r
    { c with acc := accAdd (weight P.expF32 s.job.d c.oi c.oj) (unpackPixel word) c.acc }) s

/-- R110, WI_OFFSET in bounds: read the neighbor, accumulate it, advance. -/
def wiOffsetIn (P : Params) (k : Nat) (c : Ctx) (s : State) : Host.Outcome State Fault Refusal :=
  match memRead P s.mem (neighborAddr s.job c) with
  | .outside => .fault .engineAddress
  | .busFault => .next (jobFault (neighborAddr s.job c) s)
  | .ok word => .next (accumulate P k c word s)

/-- R111, WI_OFFSET out of bounds: skip the offset. -/
def wiOffsetOut (k : Nat) (c : Ctx) (s : State) : State := putCtx k (advance s.job.r c) s

/-- R114, the address of the context's output pixel. -/
def outputAddr (job : Job) (c : Ctx) : Nat := pixelAddr job.outBase job.w c.x c.y

/-- R114, WI_FINISH: normalize, quantize, write the output pixel, free the context. -/
def wiFinish (P : Params) (k : Nat) (c : Ctx) (s : State) : Host.Outcome State Fault Refusal :=
  match memWrite P s.mem (outputAddr s.job c) (packPixel (quantize c.acc)) with
  | .outside => .fault .engineAddress
  | .busFault => .next (jobFault (outputAddr s.job c) s)
  | .ok m =>
    .next { s with mem := m, ctxs := cellErase k s.ctxs, job := { s.job with pending := s.job.pending - 1 } }

/-- The next step of a valid context of a running job: WI_OFFSET while the scan lasts, then WI_FINISH (R109). -/
def contextStep (P : Params) (k : Nat) (c : Ctx) (s : State) : Host.Outcome State Fault Refusal :=
  if c.oj ≤ s.job.r then
    (if inBounds s.job.w s.job.h (c.x + c.oi) (c.y + c.oj) then wiOffsetIn P k c s else .next (wiOffsetOut k c s))
  else if c.oj = s.job.r + 1 then wiFinish P k c s
  else .next s

/-- A context's turn. Outside BUSY, or where the context is not valid, no step of it is enabled and none is taken. -/
def contextTurn (P : Params) (k : Nat) (s : State) : Host.Outcome State Fault Refusal :=
  match cellFind k s.ctxs with
  | none => .next s
  | some c => if s.phase = .busy then contextStep P k c s else .next s

/-- R110, the condition of WI_OFFSET in bounds: a running job, a scan that lasts, a neighbor inside the image. -/
def processes (c : Ctx) (s : State) : Bool :=
  decide (s.phase = .busy) && decide (c.oj ≤ s.job.r) && inBounds s.job.w s.job.h (c.x + c.oi) (c.y + c.oj)

/-- 20_memory.md R54: is (oi, oj) an in-bounds offset of the context's window, and does the context process one? -/
def canFetch (c : Ctx) (oi oj : Int) (s : State) : Bool :=
  processes c s && decide (-s.job.r ≤ oi) && decide (oi ≤ s.job.r) && decide (-s.job.r ≤ oj) && decide (oj ≤ s.job.r) &&
    inBounds s.job.w s.job.h (c.x + oi) (c.y + oj)

/-- R54: a read of an input word besides those that R110 writes out. It can only fault: a word that it brings is the word
that memory holds, which R57 keeps unchanged. -/
def fetchTurn (P : Params) (k : Nat) (oi oj : Int) (s : State) : Host.Outcome State Fault Refusal :=
  match cellFind k s.ctxs with
  | none => .next s
  | some c =>
    if canFetch c oi oj s then
      match memRead P s.mem (neighborAddr s.job { c with oi := oi, oj := oj }) with
      | .outside => .fault .engineAddress
      | .busFault => .next (jobFault (neighborAddr s.job { c with oi := oi, oj := oj }) s)
      | .ok _ => .next s
    else .next s

/-- R54, 93_implementation_defined.md section 2 ("any count >= 0"): WI_OFFSET in bounds on the neighbor's word, with no access
to the master port in this step, so with no error response. -/
def heldTurn (P : Params) (k : Nat) (s : State) : State :=
  match cellFind k s.ctxs with
  | none => s
  | some c => if processes c s then accumulate P k c (readWord s.mem (neighborAddr s.job c)) s else s

/-- 41_dispatch.md R146, the condition of JOB_COMPLETE. -/
def canComplete (s : State) : Bool :=
  decide (s.phase = .busy) && decide (s.job.todo = []) && decide (s.job.pending = 0)

/-- R146, JOB_COMPLETE. A job during which the host wrote to one of its regions ends with its output havocked
(70_reset_and_hazards.md R262). -/
def jobComplete (s : State) : State :=
  if canComplete s then
    (if s.breach then { havocOutput s with phase := .done } else { s with phase := .done })
  else s

/-! ### Reset -/

/-- 70_reset_and_hazards.md R250. The host, its schedule and the data space outside an aborted job's output region are not
the block's to reset. -/
def resetBlock (s : State) : State :=
  { dropJob (if s.phase = .busy then havocOutput s else s) with
    regs := Regs.reset, phase := .idle, ecode := .noError, errAddr := 0, breach := false }

end Sys2Proof.Machine
end

