-- ==== Sys2Proof/Machine/Commands.lean ====
section
/-!
DEFINITION. The commands and WR_CMD, the transaction that carries them (42_host_interface.md R166, R200 to R204). A command
word is the data of a write, so each completes with an OK response.
-/

namespace Sys2Proof.Machine

/-- R161, R200: in BUSY every command word is ignored; otherwise it acts in the same step (R162). -/
def command (act : State → State) (s : State) : Host.Outcome State Fault Refusal :=
  .next (respondOk (if s.phase = .busy then s else act s))

/-- R201: no effect. -/
def execNop (s : State) : Host.Outcome State Fault Refusal := command id s

/-- R202: validation and setup (41_dispatch.md R140 to R143). -/
def execStart (s : State) : Host.Outcome State Fault Refusal := command startJob s

/-- R203: IDLE, ECODE 0, ERR_ADDR 0. -/
def execClear (s : State) : Host.Outcome State Fault Refusal := command clearStatus s

/-- R204: `raise Error(7, 0)`, whatever the word. -/
def execBadCommand (_word : Word) (s : State) : Host.Outcome State Fault Refusal := command (raiseError .badCommand 0) s

/-- R200: the case of CommandDecode, by the words of 30_encoding.md R74. -/
def runCommand (word : Word) (s : State) : Host.Outcome State Fault Refusal :=
  if word = 0 then execNop s
  else if word = 1 then execStart s
  else if word = 2 then execClear s
  else execBadCommand word s

/-- R166: CommandDecode(data). -/
def execWrCmd (data : Word) (s : State) : Host.Outcome State Fault Refusal := runCommand data s

end Sys2Proof.Machine
end

