-- ==== Sys2Proof/Machine/Registers.lean ====
section
/-!
DEFINITION. The register-window transactions but WR_CMD (42_host_interface.md R163 to R199). Every legal access completes
with an OK response; each is one atomic step (R162).
-/

namespace Sys2Proof.Machine

/-- A read of a read-write register: its value, in any state. -/
def readTransaction (p : Param) (s : State) : Host.Outcome State Fault Refusal :=
  .next (respondData (readParam p s.regs) s)

/-- A write of a read-write register: stored outside BUSY, dropped in BUSY, OK either way (R161). -/
def writeTransaction (p : Param) (data : Word) (s : State) : Host.Outcome State Fault Refusal :=
  .next (respondOk (writeParam p data s))

/-- A write that a read-only or reserved word ignores, in every state: the data goes nowhere (10_state.md R22). -/
def ignoredWrite (_data : Word) (s : State) : Host.Outcome State Fault Refusal := .next (respondOk s)

/-- R163: the constant of 10_state.md R23. -/
def execRdId (s : State) : Host.Outcome State Fault Refusal := .next (respondData 0x47420007 s)

/-- R164 -/
def execWrId (data : Word) (s : State) : Host.Outcome State Fault Refusal := ignoredWrite data s

/-- R165: CMD holds no state and reads 0. -/
def execRdCmd (s : State) : Host.Outcome State Fault Refusal := .next (respondData 0 s)

/-- R167. The read clears nothing; what the host now knows of the jobs' ends is the model's bookkeeping of
20_memory.md R62 and 70_reset_and_hazards.md R262, R264. -/
def execRdStatus (s : State) : Host.Outcome State Fault Refusal :=
  .next (respondData (statusWord s.phase s.ecode) (ackStatus s))

/-- R168 -/
def execWrStatus (data : Word) (s : State) : Host.Outcome State Fault Refusal := ignoredWrite data s

/-- R169 -/
def execRdWidth (s : State) : Host.Outcome State Fault Refusal := readTransaction .width s

/-- R170 -/
def execWrWidth (data : Word) (s : State) : Host.Outcome State Fault Refusal := writeTransaction .width data s

/-- R171 -/
def execRdHeight (s : State) : Host.Outcome State Fault Refusal := readTransaction .height s

/-- R172 -/
def execWrHeight (data : Word) (s : State) : Host.Outcome State Fault Refusal := writeTransaction .height data s

/-- R173 -/
def execRdRadius (s : State) : Host.Outcome State Fault Refusal := readTransaction .radius s

/-- R174 -/
def execWrRadius (data : Word) (s : State) : Host.Outcome State Fault Refusal := writeTransaction .radius data s

/-- R175: a NaN pattern reads back unchanged. -/
def execRdSigma (s : State) : Host.Outcome State Fault Refusal := readTransaction .sigma s

/-- R176: every pattern is stored; START validates it. -/
def execWrSigma (data : Word) (s : State) : Host.Outcome State Fault Refusal := writeTransaction .sigma data s

/-- R177 -/
def execRdInBase (s : State) : Host.Outcome State Fault Refusal := readTransaction .inBase s

/-- R178 -/
def execWrInBase (data : Word) (s : State) : Host.Outcome State Fault Refusal := writeTransaction .inBase data s

/-- R179 -/
def execRdInLen (s : State) : Host.Outcome State Fault Refusal := readTransaction .inLen s

/-- R180 -/
def execWrInLen (data : Word) (s : State) : Host.Outcome State Fault Refusal := writeTransaction .inLen data s

/-- R181 -/
def execRdOutBase (s : State) : Host.Outcome State Fault Refusal := readTransaction .outBase s

/-- R182 -/
def execWrOutBase (data : Word) (s : State) : Host.Outcome State Fault Refusal := writeTransaction .outBase data s

/-- R183 -/
def execRdOutLen (s : State) : Host.Outcome State Fault Refusal := readTransaction .outLen s

/-- R184 -/
def execWrOutLen (data : Word) (s : State) : Host.Outcome State Fault Refusal := writeTransaction .outLen data s

/-- R185 -/
def execRdErrAddr (s : State) : Host.Outcome State Fault Refusal := .next (respondData s.errAddr s)

/-- R186 -/
def execWrErrAddr (data : Word) (s : State) : Host.Outcome State Fault Refusal := ignoredWrite data s

/-- R197: every reserved word reads 0. -/
def execRdRsvd (_k : BitVec 2) (s : State) : Host.Outcome State Fault Refusal := .next (respondData 0 s)

/-- R198 -/
def execWrRsvd (_k : BitVec 2) (data : Word) (s : State) : Host.Outcome State Fault Refusal := ignoredWrite data s

/-- R199: SLVERR to the host, whatever the descriptor; the block does not change. -/
def execBadAccess (_size : BitVec 2) (_we : Bool) (_offset : BitVec 6) (s : State) :
    Host.Outcome State Fault Refusal :=
  .next (respondSlverr s)

end Sys2Proof.Machine
end

