-- ==== Sys2Proof/Machine/Dispatch.lean ====
section
/-! DEFINITION. The meaning of every instruction of the opcode table, one arm each. -/

namespace Sys2Proof.Machine

/-- One transaction or command, run on a state. -/
def exec (i : Instr) (s : State) : Host.Outcome State Fault Refusal :=
  match i with
  | .rdId => Sys2Proof.Machine.execRdId s
  | .wrId data => Sys2Proof.Machine.execWrId data s
  | .rdCmd => Sys2Proof.Machine.execRdCmd s
  | .wrCmd data => Sys2Proof.Machine.execWrCmd data s
  | .rdStatus => Sys2Proof.Machine.execRdStatus s
  | .wrStatus data => Sys2Proof.Machine.execWrStatus data s
  | .rdWidth => Sys2Proof.Machine.execRdWidth s
  | .wrWidth data => Sys2Proof.Machine.execWrWidth data s
  | .rdHeight => Sys2Proof.Machine.execRdHeight s
  | .wrHeight data => Sys2Proof.Machine.execWrHeight data s
  | .rdRadius => Sys2Proof.Machine.execRdRadius s
  | .wrRadius data => Sys2Proof.Machine.execWrRadius data s
  | .rdSigma => Sys2Proof.Machine.execRdSigma s
  | .wrSigma data => Sys2Proof.Machine.execWrSigma data s
  | .rdInBase => Sys2Proof.Machine.execRdInBase s
  | .wrInBase data => Sys2Proof.Machine.execWrInBase data s
  | .rdInLen => Sys2Proof.Machine.execRdInLen s
  | .wrInLen data => Sys2Proof.Machine.execWrInLen data s
  | .rdOutBase => Sys2Proof.Machine.execRdOutBase s
  | .wrOutBase data => Sys2Proof.Machine.execWrOutBase data s
  | .rdOutLen => Sys2Proof.Machine.execRdOutLen s
  | .wrOutLen data => Sys2Proof.Machine.execWrOutLen data s
  | .rdErrAddr => Sys2Proof.Machine.execRdErrAddr s
  | .wrErrAddr data => Sys2Proof.Machine.execWrErrAddr data s
  | .rdRsvd k => Sys2Proof.Machine.execRdRsvd k s
  | .wrRsvd k data => Sys2Proof.Machine.execWrRsvd k data s
  | .badAccess size we offset => Sys2Proof.Machine.execBadAccess size we offset s
  | .nop => Sys2Proof.Machine.execNop s
  | .start => Sys2Proof.Machine.execStart s
  | .clear => Sys2Proof.Machine.execClear s
  | .badCommand word => Sys2Proof.Machine.execBadCommand word s

end Sys2Proof.Machine
end

