-- ==== Sys2Proof/Machine/HostProgram.lean ====
section
/-!
DEFINITION. The host: fetching the next operation of its program, its register-window transactions, its own accesses to
the data space (42_host_interface.md R205, 70_reset_and_hazards.md R262), its branches, and the notation of its programs
(30_encoding.md R79, R80).
-/

namespace Sys2Proof.Machine

/-! ### The host's accesses to the data space -/

/-- Do `count` bytes from `addr` on share a byte with a region? -/
def touches (region : Region) (addr count : Nat) : Bool :=
  decide (addr < region.base + region.len) && decide (region.base < addr + count) && decide (0 < count) &&
    decide (0 < region.len)

/-- R262: is a host write of these bytes a breach of its duty to keep its hands off both regions of the running job? Only a
write in BUSY is one. The duty runs on until the host reads STATUS with STATE != BUSY, but R262 states no treatment of a
write between the job's end and that read, and 20_memory.md R63 calls its result unspecified: DESIGN CHOICE, log entry
28: it is no breach. -/
def breaches (addr count : Nat) (s : State) : Bool :=
  decide (s.phase = .busy) && (touches (inputRegion s.job) addr count || touches (outputRegion s.job) addr count)

/-- R205 `MW32` and other widths. The bytes land at once, also where the write is a breach (log entry 14) and where it falls
between a job's end and the host's STATUS read (DESIGN CHOICE, log entry 28). Once the host's duty for a job has ended, a
byte that it writes is its own again: later reads of it return the last value written (R57). -/
def hostWrite (addr : Word) (bytes : List Byte) (s : State) : Host.Outcome State Fault Refusal :=
  if dataSpaceSize < addr.toNat + bytes.length then .fault .hostAddress
  else .next { s with
    mem := writeBytes addr.toNat bytes s.mem
    breach := s.breach || breaches addr.toNat bytes.length s
    unordered := s.unordered.flatMap (Region.without addr.toNat bytes.length) }

/-- Does a host read of this byte return an unspecified value? It lies in the output region of the running job (R262), in that
of a job since whose START the host has not read STATUS with STATE != BUSY (20_memory.md R63), or among the bytes of ended
jobs that no read of DONE or ERROR has ordered and the host has not written since (R264, 20_memory.md R62, R64). -/
def unsettled (s : State) (addr : Nat) : Bool :=
  (decide (s.phase = .busy) && (outputRegion s.job).holds addr) || s.unread.any (·.holds addr) ||
    s.unordered.any (·.holds addr)

/-- The bytes a host read returns, lowest address first. -/
def hostBytes (s : State) (addr : Nat) (count : Nat) : List Byte :=
  (List.range count).map fun k =>
    if unsettled s (addr + k) then Config.freeByte (s.draws + k) else readByte s.mem (addr + k)

/-- R205 `MR32` and other widths. -/
def hostRead (addr : Word) (count : Nat) (s : State) : Host.Outcome State Fault Refusal :=
  if dataSpaceSize < addr.toNat + count then .fault .hostAddress
  else .next { s with
    host := { s.host with memData := hostBytes s addr.toNat count }
    draws := s.draws + count }

/-! ### The host's turn -/

/-- The next operation of the host's program. -/
def fetch (s : State) : Option HostOp := s.host.prog[s.host.pc]?

/-- Move the host to a place of its program. -/
def hostGoto (place : Nat) (s : State) : State := { s with host := { s.host with pc := place } }

/-- Perform an operation; the host already stands after it. -/
def hostOp (op : HostOp) (s : State) : Host.Outcome State Fault Refusal :=
  match op with
  | .access desc data => exec (decode (.transaction desc data)) s
  | .memWrite addr bytes => hostWrite addr bytes s
  | .memRead addr count => hostRead addr count s
  | .branchEq target mask value => .next (if s.host.lastRd &&& mask = value then hostGoto target s else s)
  | .branchNe target mask value => .next (if s.host.lastRd &&& mask = value then s else hostGoto target s)

/-- The host performs its next operation, or nothing where its program has ended. -/
def hostTurn (s : State) : Host.Outcome State Fault Refusal :=
  match fetch s with
  | none => .next s
  | some op => hostOp op (hostGoto (s.host.pc + 1) s)

/-! ### Host programs (30_encoding.md R79, R80) -/

/-- The window offset of a read-write register (10_state.md R22). -/
def paramOffset : Param → BitVec 6
  | .width => 0x0C
  | .height => 0x10
  | .radius => 0x14
  | .sigma => 0x18
  | .inBase => 0x1C
  | .inLen => 0x20
  | .outBase => 0x24
  | .outLen => 0x28

/-- R79 `WR <REG>, <imm32>`: descriptor `0x140 | offset`. A raw window offset may stand for a name. -/
def opWr (offset : BitVec 6) (imm : Word) : HostOp := .access (0x140 ||| offset.setWidth 9) imm

/-- R79 `RD <REG>`: descriptor `0x100 | offset`. -/
def opRd (offset : BitVec 6) : HostOp := .access (0x100 ||| offset.setWidth 9) 0

/-- R79 `MW32 <addr>, <imm32>`: a little-endian word. -/
def opMw32 (addr imm : Word) : HostOp := .memWrite addr (wordBytes imm)

/-- R79 `MR32 <addr>`. -/
def opMr32 (addr : Word) : HostOp := .memRead addr 4

/-- R80 `NOP`. -/
def opNop : HostOp := opWr 0x04 0

/-- R80 `START`. -/
def opStart : HostOp := opWr 0x04 1

/-- R80 `CLEAR`. -/
def opClear : HostOp := opWr 0x04 2

/-- R80 `WAIT`, its first operation standing at place `here` of the program: loop while STATE = BUSY. -/
def opsWait (here : Nat) : List HostOp := [opRd 0x08, .branchEq here 0x3 0x1]

/-- R80 `CONFIG W, H, r, s, in, out`. DESIGN CHOICE, log entry 27: where 4*W*H has no 32-bit immediate (R79), the length
that is written is 4*W*H modulo 2^32. -/
def opsConfig (w h radius : Word) (sigma : F32) (inBase outBase : Word) : List HostOp :=
  [opWr 0x0C w, opWr 0x10 h, opWr 0x14 radius, opWr 0x18 (bits32 sigma), opWr 0x1C inBase, opWr 0x20 (4 * w * h),
   opWr 0x24 outBase, opWr 0x28 (4 * w * h)]

end Sys2Proof.Machine
end

