-- ==== Sys2Proof/Machine/Schedule.lean ====
section
/-!
DEFINITION. Whose step is next (41_dispatch.md R144, R145) and what each agent's turn does. The state's own list of turns
comes first; it may hold any order, so what holds of every state holds of every schedule.
-/

namespace Sys2Proof.Machine

/-- Whose turn it is. Where the list has run out, only the host has a step outside BUSY (20_memory.md R62: no engine access
then), and in BUSY the choice is a free value. -/
def nextTurn (s : State) : Turn :=
  match s.turns with
  | turn :: _ => turn
  | [] => if s.phase = .busy then Config.schedule s.draws else .host

/-- The state with that turn used up: off the list, or drawn. -/
def popTurn (s : State) : State :=
  match s.turns with
  | _ :: rest => { s with turns := rest }
  | [] => if s.phase = .busy then { s with draws := s.draws + 1 } else s

/-- One turn of an agent (00_scope.md R15). A turn whose step is not enabled changes nothing. -/
def takeTurn (P : Params) (turn : Turn) (s : State) : Host.Outcome State Fault Refusal :=
  match turn with
  | .host => hostTurn s
  | .issue k p => .next (wiIssue P k p s)
  | .context k => contextTurn P k s
  | .fetch k oi oj => fetchTurn P k oi oj s
  | .held k => .next (heldTurn P k s)
  | .complete => .next (jobComplete s)
  | .reset => .next (resetBlock s)

/-- The host is about to perform one access, and it is the host's turn. -/
def hostAbout (desc : BitVec 9) (data : Word) (s : State) : State :=
  { s with
    host := { s.host with prog := [.access desc data], pc := 0 }
    turns := .host :: s.turns }

/-- The state about to run the instruction of an opcode-table word. A command word runs as the data of a WR_CMD
transaction (30_encoding.md R73). -/
def placeFrame (s : State) (frame : Frame) : State :=
  match frame with
  | .transaction desc data => hostAbout desc data s
  | .command word => hostAbout 0x144 word s

end Sys2Proof.Machine
end

