-- ==== Sys2Proof/Machine/Step.lean ====
section
/-! DEFINITION. One step of the machine: the turn of one agent. -/

namespace Sys2Proof.Machine

/-- One atomic step (00_scope.md R14, 41_dispatch.md R145). -/
def step (s : State) : Host.Outcome State Fault Refusal := takeTurn Config.params (nextTurn s) (popTurn s)

/-- `s` with the instruction of an opcode-table word next; `s` itself where the word is no frame. -/
def State.withFetchWord (s : State) (nbits w : Nat) : State :=
  match tableFrame nbits w with
  | .ok frame => placeFrame s frame
  | .error _ => s

end Sys2Proof.Machine
end

