-- ==== Sys2Proof/Safety.lean ====
section
/-!
DEFINITION. What holds of a machine that runs as the spec says: the invariants that every step keeps, what it means for a
running job to be on course to the image that 41_dispatch.md R149 promises, and the measure that bounds its steps (R148).
-/

namespace Sys2Proof.Machine

/-- 10_state.md R27: STATE = ERROR exactly when ECODE != 0; ERR_ADDR != 0 only when ECODE = 3. -/
def StatusOk (s : State) : Prop :=
  (s.phase = .error ↔ s.ecode ≠ .noError) ∧ (s.errAddr ≠ 0 → s.ecode = .busFault)

/-- Outside BUSY no pixel waits, none is pending and no context is valid (R34, R142). -/
def NoJob (s : State) : Prop := s.job.todo = [] ∧ s.job.pending = 0 ∧ s.ctxs = []

/-- R34, R142: the registers passed every check of START, and the job's copies equal them. -/
def Latched (s : State) : Prop :=
  validate (operandsOf s.regs) = none ∧
    s.job = { jobOf (operandsOf s.regs) with todo := s.job.todo, pending := s.job.pending }

/-- R36, R109: a context's pixel lies in the image and its scan position in the window, or just past it. -/
def CtxOk (job : Job) (c : Ctx) : Prop :=
  c.x < job.w ∧ c.y < job.h ∧ -job.r ≤ c.oi ∧ c.oi ≤ job.r ∧ -job.r ≤ c.oj ∧ c.oj ≤ job.r + 1 ∧
    (c.oj = job.r + 1 → c.oi = -job.r)

/-- The pixel of a context: its work-item's identifier (R234). -/
def ctxPixel (c : Ctx) : Pixel := ⟨c.x, c.y⟩

/-- Every pixel of the image is waiting, in one context, or written: none is waiting twice, or in two contexts, or both. -/
def PixelsOk (s : State) : Prop :=
  s.job.todo.Nodup ∧ (∀ p ∈ s.job.todo, p.x < s.job.w ∧ p.y < s.job.h) ∧
    (s.ctxs.map fun e => ctxPixel e.2).Nodup ∧ ∀ e ∈ s.ctxs, ctxPixel e.2 ∉ s.job.todo

/-- R36: contexts are numbered below LANES, and `pending` counts the valid ones (R34). -/
def ContextsOk (P : Params) (s : State) : Prop :=
  Rising s.ctxs ∧ (∀ e ∈ s.ctxs, e.1 < P.lanes ∧ CtxOk s.job e.2) ∧ s.job.pending = s.ctxs.length

/-- The invariant of the machine. -/
def MachineInv (P : Params) (s : State) : Prop :=
  Memory.wf s.mem ∧ StatusOk s ∧ (s.phase ≠ .busy → NoJob s) ∧
    (s.phase = .busy → Latched s ∧ PixelsOk s ∧ ContextsOk P s)

/-- The value is +0 or positive, with a magnitude pattern of at most `bound`. -/
def AtMost (bound : Nat) (f : F32) : Prop := ∃ m : Fin 0x7F800000, f = .fin false m ∧ m.val ≤ bound

/-- The value is a finite one of at least 1.0. -/
def AtLeastOne (f : F32) : Prop := ∃ m : Fin 0x7F800000, f = .fin false m ∧ 0x3F800000 ≤ m.val

/-- 40_convolution.md R103: a denominator that START accepts is positive, and +inf where 2σ² overflows. -/
def GoodDenominator (d : F32) : Prop := flt .zero d = true

/-- Where a context's scan position stands in the scan order (R109). -/
def scanIndex (r : Int) (c : Ctx) : Nat := ((c.oj + r) * (2 * r + 1) + (c.oi + r)).toNat

/-- S and T as they will stand when a context's scan is finished, by the loops of R118. -/
def finalAcc (exp : F32 → F32) (img : Image) (job : Job) (c : Ctx) : Accum :=
  ((scanOffsets job.r).drop (scanIndex job.r c)).foldl (visit exp img job.w job.h job.d c.x c.y) c.acc

/-- The pixel that R118 gives for the job, over the input image as memory `m₀` holds it. -/
def jobPixel (exp : F32 → F32) (m₀ : Memory) (job : Job) (x y : Nat) : Rgba Byte :=
  pixel exp (imageAt m₀ job.inBase job.w) job.w job.h job.r job.d x y

/-- R149: every pixel of the output region holds PIXEL. -/
def Blurred (exp : F32 → F32) (m₀ : Memory) (job : Job) (m : Memory) : Prop :=
  ∀ x y, x < job.w → y < job.h →
    readWord m (pixelAddr job.outBase job.w x y) = packPixel (jobPixel exp m₀ job x y)

/-- A running job is on course, from the memory `m₀` of its START: the input region is as it stood then, every context
will end with the sums of its pixel, and every pixel neither waiting nor in a context is written. -/
def OnCourse (exp : F32 → F32) (m₀ : Memory) (s : State) : Prop :=
  (∀ a, (inputRegion s.job).holds a = true → readByte s.mem a = readByte m₀ a) ∧
    (∀ e ∈ s.ctxs, finalAcc exp (imageAt m₀ s.job.inBase s.job.w) s.job e.2 =
      pixelAcc exp (imageAt m₀ s.job.inBase s.job.w) s.job.w s.job.h s.job.r s.job.d e.2.x e.2.y) ∧
    ∀ x y, x < s.job.w → y < s.job.h → (⟨x, y⟩ : Pixel) ∉ s.job.todo →
      (∀ e ∈ s.ctxs, ctxPixel e.2 ≠ ⟨x, y⟩) →
      readWord s.mem (pixelAddr s.job.outBase s.job.w x y) = packPixel (jobPixel exp m₀ s.job x y)

/-- How many offsets a window has: (2r+1)^2. -/
def windowSize (r : Int) : Nat := windowSide r * windowSide r

/-- The steps a context has left: its remaining offsets and WI_FINISH. -/
def ctxMeasure (r : Int) (c : Ctx) : Nat := windowSize r - scanIndex r c + 1

/-- R148: the steps a running job has left, at most. -/
def jobMeasure (s : State) : Nat :=
  s.job.todo.length * (windowSize s.job.r + 2) + (s.ctxs.map fun e => ctxMeasure s.job.r e.2).sum + 1

/-- The steps of the block itself, as against those of the host and of the reset input. -/
def isBlockTurn : Turn → Bool
  | .issue _ _ | .context _ | .fetch _ _ _ | .held _ | .complete => true
  | .host | .reset => false

/-- The steps that 30_encoding.md R81 lists, which the block must take in the end (R148). The reads of 20_memory.md R54 that
R110 does not write out are a freedom, no duty. -/
def isListedTurn : Turn → Bool
  | .issue _ _ | .context _ | .complete => true
  | .fetch _ _ _ | .held _ | .host | .reset => false

/-- A run of the machine with parameters `P`: each state steps to the next, by the turn that is next. With the block at hand
each of these is a `step`. -/
def IsRun (P : Params) (run : Nat → State) : Prop :=
  ∀ n, takeTurn P (nextTurn (run n)) (popTurn (run n)) = .next (run (n + 1))

/-- A turn's step is enabled in a state: taking it changes the state. -/
def Enabled (P : Params) (turn : Turn) (s : State) : Prop := ∃ t, takeTurn P turn s = .next t ∧ t ≠ s

/-- 41_dispatch.md R148, weak fairness: every listed step that stays enabled is eventually taken. -/
def WeaklyFair (P : Params) (run : Nat → State) : Prop :=
  ∀ (turn : Turn) (n : Nat), isListedTurn turn = true → (∀ m, n ≤ m → Enabled P turn (run m)) →
    ∃ m, n ≤ m ∧ nextTurn (run m) = turn

/-- How many of a run's first n steps were steps of the block: turns of the block that changed more than the schedule. -/
def blockSteps (run : Nat → State) : Nat → Nat
  | 0 => 0
  | n + 1 => blockSteps run n + if isBlockTurn (nextTurn (run n)) && decide (run (n + 1) ≠ popTurn (run n)) then 1 else 0

/-- R148, "whose accesses do not fault", of a run: as long as the job of its first state runs, no step takes it to ERROR. From BUSY
only JOB_FAULT leads there (R147). -/
def AccessesDoNotFault (run : Nat → State) : Prop :=
  ∀ n, (∀ m, m ≤ n → (run m).phase = .busy) → (run (n + 1)).phase ≠ .error

/-- The same of the platform: no access that the job can make, a read of an input pixel (20_memory.md R54) or a write of an
output pixel (R55), gets an error response. -/
def NoBusFaults (P : Params) (job : Job) : Prop :=
  ∀ x y, x < job.w → y < job.h →
    P.busFault (pixelAddr job.inBase job.w x y) .read = false ∧ P.busFault (pixelAddr job.outBase job.w x y) .write = false

/-- WR_CMD and the commands: the only transactions that may change the state of the job (R25). -/
def isCommand : Instr → Bool
  | .wrCmd _ | .nop | .start | .clear | .badCommand _ => true
  | .rdId | .wrId _ | .rdCmd | .rdStatus | .wrStatus _ | .rdWidth | .wrWidth _ | .rdHeight | .wrHeight _
  | .rdRadius | .wrRadius _ | .rdSigma | .wrSigma _ | .rdInBase | .wrInBase _ | .rdInLen | .wrInLen _
  | .rdOutBase | .wrOutBase _ | .rdOutLen | .wrOutLen _ | .rdErrAddr | .wrErrAddr _ | .rdRsvd _ | .wrRsvd _ _
  | .badAccess _ _ _ => false

end Sys2Proof.Machine
end

