-- ==== Sys2Proof/Certificates/Slice0/Obligations.lean ====
section
/-!
DEFINITION. The statements of this model, each from the spec's numbered rules.
-/

namespace Sys2Proof.Slice0

open Sys2Proof.Machine

/-- The read of a read-write register. -/
def readOf : Param → Instr
  | .width => .rdWidth
  | .height => .rdHeight
  | .radius => .rdRadius
  | .sigma => .rdSigma
  | .inBase => .rdInBase
  | .inLen => .rdInLen
  | .outBase => .rdOutBase
  | .outLen => .rdOutLen

/-- The write of a read-write register. -/
def writeOf : Param → Word → Instr
  | .width => .wrWidth
  | .height => .wrHeight
  | .radius => .wrRadius
  | .sigma => .wrSigma
  | .inBase => .wrInBase
  | .inLen => .wrInLen
  | .outBase => .wrOutBase
  | .outLen => .wrOutLen

/-- 41_dispatch.md R141, written out on the registers: the code of the first failing check, none where all pass. -/
def firstFailingCheck (g : Regs) : Option ECode :=
  if g.radius.toInt < 0 ∨ flt .zero (f32bits g.sigma) = false ∨ f32bits g.sigma = .inf false ∨
      isZero (fmul .two (fmul (f32bits g.sigma) (f32bits g.sigma))) = true then
    some .invalidParameter
  else if g.inLen.toNat ≠ 4 * (g.width.toNat * g.height.toNat) ∨
      g.outLen.toNat ≠ 4 * (g.width.toNat * g.height.toNat) then
    some .dimensionMismatch
  else if g.inBase.toNat % 4 ≠ 0 ∨ g.outBase.toNat % 4 ≠ 0 then
    some .misalignedBuffer
  else if g.inBase.toNat + 4 * (g.width.toNat * g.height.toNat) > 2 ^ 32 ∨
      g.outBase.toNat + 4 * (g.width.toNat * g.height.toNat) > 2 ^ 32 then
    some .bufferRange
  else if 0 < 4 * (g.width.toNat * g.height.toNat) ∧
      g.inBase.toNat < g.outBase.toNat + 4 * (g.width.toNat * g.height.toNat) ∧
      g.outBase.toNat < g.inBase.toNat + 4 * (g.width.toNat * g.height.toNat) then
    some .bufferOverlap
  else none

/-- R112 with R110: one channel's new sum. -/
def channelSum (w : F32) (sum : F32) (c : Byte) : F32 := fadd sum (fmul w (u8ToF32 c))

end Sys2Proof.Slice0

open Sys2Proof Sys2Proof.Machine Sys2Proof.Slice0

/-! ### Encodings -/

/-- 30_encoding.md R71 to R74: an encoded well-formed instruction decodes to itself, with every operand at every value. -/
def Obligations.EncodeThenDecodeGivesInstruction : Prop :=
  ∀ i : Instr, i.wellFormed = true → decode (encode i) = i

/-- R71 to R74, the other way: a frame that carries no meaningless data word is the encoding of what it decodes to. -/
def Obligations.DecodeThenEncodeGivesFrame : Prop :=
  ∀ f : Frame, frameCanonical f = true → encode (decode f) = f

/-- R72, R74: every frame decodes to a well-formed instruction; the default rows take only what no other row matches. -/
def Obligations.DecodedInstructionsAreWellFormed : Prop :=
  ∀ f : Frame, (decode f).wellFormed = true

/-- opcode_table.json with R72, R74: a frame with the bits of a row that is no default row decodes to that row, and a frame
with the bits of none decodes to the default row of its format. -/
def Obligations.OpcodeRowsDecodeAsListed : Prop :=
  (∀ (f : Frame) (row : OpcodeRow), row ∈ opcodeRows → row.isDefault = false → rowMatches row f = true →
      rowOf (decode f) = row) ∧
    ∀ f : Frame, (∀ row ∈ opcodeRows, row.isDefault = false → rowMatches row f = false) →
      (rowOf (decode f)).isDefault = true ∧ rowMatches (rowOf (decode f)) f = true

/-- Words written out from R71, R72 and R74, and the instructions they stand for. -/
def Obligations.SpecWordsDecodeAsListed : Prop :=
  decode (.transaction 0b100000000#9 0) = .rdId ∧
    decode (.transaction 0b101000100#9 1) = .wrCmd 1 ∧
    decode (.transaction 0b100001000#9 0) = .rdStatus ∧
    decode (.transaction 0b101011000#9 0x3F800000) = .wrSigma 0x3F800000 ∧
    decode (.transaction 0b100110100#9 0) = .rdRsvd 1 ∧
    decode (.transaction 0b000000100#9 1) = .badAccess 0b00 false 0x04 ∧
    decode (.transaction 0b001000100#9 1) = .badAccess 0b00 true 0x04 ∧
    decode (.transaction 0b100001001#9 0) = .badAccess 0b10 false 0x09 ∧
    decode (.command 0x00000001) = .start ∧
    decode (.command 0x00000101) = .badCommand 0x101

/-! ### The step -/

/-- The step takes the turn that is next: the state's own list first, then the host outside BUSY. On the host's turn, when
the operation it stands at is an access, the step is `exec` of the instruction that the access decodes to, with the host
moved past the operation and the turn used up. -/
def Obligations.StepRunsTheFetchedInstruction : Prop :=
  (∀ (s : State) (turn : Turn) (rest : List Turn), s.turns = turn :: rest →
      step s = takeTurn Config.params turn { s with turns := rest }) ∧
    (∀ s : State, s.turns = [] → s.phase ≠ .busy → step s = takeTurn Config.params .host s) ∧
    ∀ (s : State) (desc : BitVec 9) (data : Word), nextTurn s = .host → fetch s = some (.access desc data) →
      step s = exec (decode (.transaction desc data)) (hostGoto (s.host.pc + 1) (popTurn s))

/-- 30_encoding.md R79: `BEQ` is taken when `(last RD result & mask) == value`, `BNE` when they differ. -/
def Obligations.HostBranchesTestTheLastRead : Prop :=
  (∀ (s : State) (target : Nat) (mask value : Word), fetch s = some (.branchEq target mask value) →
      hostTurn s = .next (hostGoto (if s.host.lastRd &&& mask = value then target else s.host.pc + 1) s)) ∧
    ∀ (s : State) (target : Nat) (mask value : Word), fetch s = some (.branchNe target mask value) →
      hostTurn s = .next (hostGoto (if s.host.lastRd &&& mask ≠ value then target else s.host.pc + 1) s)

/-! ### Register-window transactions -/

/-- 42_host_interface.md R163, R165, R197: the words that hold no state read as constants, in every state, and nothing else
changes but the answer and the host's copy of it. -/
def Obligations.ConstantWordsReadAsConstants : Prop :=
  ∀ (s : State) (k : BitVec 2),
    exec .rdId s = .next { s with resp := .data 0x47420007, host := { s.host with lastRd := 0x47420007 } } ∧
      exec .rdCmd s = .next { s with resp := .data 0, host := { s.host with lastRd := 0 } } ∧
      exec (.rdRsvd k) s = .next { s with resp := .data 0, host := { s.host with lastRd := 0 } }

/-- R167, 30_encoding.md R76: RD_STATUS returns ECODE in bits [7:4], STATE in bits [1:0], 0 elsewhere, and clears nothing. STATE
has the codes of 10_state.md R26 and ECODE those of 60_exceptions.md R220. The only other change is in the model's own lists
of output regions that wait for a STATUS read: DONE and ERROR empty both, IDLE ends the host's duty alone (log entries 15,
29). -/
def Obligations.StatusReadsAsItsFields : Prop :=
  ∀ s : State, ∃ v : Word,
    v.extractLsb' 0 2 = (match s.phase with | .idle => 0#2 | .busy => 1#2 | .done => 2#2 | .error => 3#2) ∧
      v.extractLsb' 2 2 = 0#2 ∧
      v.extractLsb' 4 4 = (match s.ecode with
        | .noError => 0#4 | .invalidParameter => 1#4 | .dimensionMismatch => 2#4 | .busFault => 3#4
        | .misalignedBuffer => 4#4 | .bufferRange => 5#4 | .bufferOverlap => 6#4 | .badCommand => 7#4) ∧
      v.extractLsb' 8 24 = 0#24 ∧
      exec .rdStatus s = .next { s with
        resp := .data v
        host := { s.host with lastRd := v }
        unread := if s.phase = .busy then s.unread else []
        unordered := match s.phase with
          | .busy => s.unordered
          | .idle => s.unread ++ s.unordered
          | .done | .error => [] }

/-- R169 to R185, the reads: each read-write register and ERR_ADDR returns its 32 bits in every state, and nothing else
changes but the answer and the host's copy of it. -/
def Obligations.RegistersReadTheirValue : Prop :=
  ∀ s : State,
    exec .rdWidth s = .next { s with resp := .data s.regs.width, host := { s.host with lastRd := s.regs.width } } ∧
      exec .rdHeight s = .next { s with resp := .data s.regs.height, host := { s.host with lastRd := s.regs.height } } ∧
      exec .rdRadius s = .next { s with resp := .data s.regs.radius, host := { s.host with lastRd := s.regs.radius } } ∧
      exec .rdSigma s = .next { s with resp := .data s.regs.sigma, host := { s.host with lastRd := s.regs.sigma } } ∧
      exec .rdInBase s = .next { s with resp := .data s.regs.inBase, host := { s.host with lastRd := s.regs.inBase } } ∧
      exec .rdInLen s = .next { s with resp := .data s.regs.inLen, host := { s.host with lastRd := s.regs.inLen } } ∧
      exec .rdOutBase s =
        .next { s with resp := .data s.regs.outBase, host := { s.host with lastRd := s.regs.outBase } } ∧
      exec .rdOutLen s = .next { s with resp := .data s.regs.outLen, host := { s.host with lastRd := s.regs.outLen } } ∧
      exec .rdErrAddr s = .next { s with resp := .data s.errAddr, host := { s.host with lastRd := s.errAddr } }

/-- R164, R168, R186, R198: a write to ID, STATUS, ERR_ADDR or a reserved word gets OK and changes nothing, in every state. -/
def Obligations.ReadOnlyWordsIgnoreWrites : Prop :=
  ∀ (s : State) (k : BitVec 2) (data : Word),
    exec (.wrId data) s = .next { s with resp := .ok } ∧ exec (.wrStatus data) s = .next { s with resp := .ok } ∧
      exec (.wrErrAddr data) s = .next { s with resp := .ok } ∧ exec (.wrRsvd k data) s = .next { s with resp := .ok }

/-- R170 to R184, the writes: `if STATE != BUSY then reg.NAME <- data`, all 32 bits, whatever they are; nothing else changes but
the OK answer. -/
def Obligations.RegisterWritesStoreOutsideBusy : Prop :=
  ∀ (s : State) (data : Word),
    exec (.wrWidth data) s = .next { s with
        regs := if s.phase = .busy then s.regs else { s.regs with width := data }, resp := .ok } ∧
      exec (.wrHeight data) s = .next { s with
        regs := if s.phase = .busy then s.regs else { s.regs with height := data }, resp := .ok } ∧
      exec (.wrRadius data) s = .next { s with
        regs := if s.phase = .busy then s.regs else { s.regs with radius := data }, resp := .ok } ∧
      exec (.wrSigma data) s = .next { s with
        regs := if s.phase = .busy then s.regs else { s.regs with sigma := data }, resp := .ok } ∧
      exec (.wrInBase data) s = .next { s with
        regs := if s.phase = .busy then s.regs else { s.regs with inBase := data }, resp := .ok } ∧
      exec (.wrInLen data) s = .next { s with
        regs := if s.phase = .busy then s.regs else { s.regs with inLen := data }, resp := .ok } ∧
      exec (.wrOutBase data) s = .next { s with
        regs := if s.phase = .busy then s.regs else { s.regs with outBase := data }, resp := .ok } ∧
      exec (.wrOutLen data) s = .next { s with
        regs := if s.phase = .busy then s.regs else { s.regs with outLen := data }, resp := .ok }

/-- R161: while BUSY a write to a read-write register or to CMD has no effect, and the answer is still OK; so has each
command word. -/
def Obligations.BusyIgnoresWritesAndCommands : Prop :=
  ∀ (s : State) (data : Word), s.phase = .busy →
    (∀ p : Param, exec (writeOf p data) s = .next { s with resp := .ok }) ∧
      exec (.wrCmd data) s = .next { s with resp := .ok } ∧ exec .nop s = .next { s with resp := .ok } ∧
      exec .start s = .next { s with resp := .ok } ∧ exec .clear s = .next { s with resp := .ok } ∧
      exec (.badCommand data) s = .next { s with resp := .ok }

/-- 70_reset_and_hazards.md R260, R263: a read after a write returns the written value, or the unchanged value where the write
was dropped in BUSY; the write of one register does not change another. -/
def Obligations.WrittenRegisterReadsBack : Prop :=
  ∀ (s : State) (p q : Param) (data : Word), ∃ t u : State,
    exec (writeOf p data) s = .next t ∧ exec (readOf q) t = .next u ∧
      u.resp = .data (if p = q ∧ s.phase ≠ .busy then data else readParam q s.regs)

/-- R199: BAD_ACCESS answers SLVERR, whatever its descriptor; nothing else changes, and the read returns no data. -/
def Obligations.BadAccessAnswersSlverr : Prop :=
  ∀ (s : State) (size : BitVec 2) (we : Bool) (offset : BitVec 6),
    exec (.badAccess size we offset) s = .next { s with resp := .slverr }

/-- R160, 20_memory.md R50: every transaction and command completes, with an OK answer unless it is BAD_ACCESS, and none
of them touches the data space, the schedule, the host's program or the free values drawn. -/
def Obligations.EveryTransactionCompletes : Prop :=
  ∀ (i : Instr) (s : State), ∃ t : State, exec i s = .next t ∧ t.mem = s.mem ∧ t.turns = s.turns ∧ t.draws = s.draws ∧
    t.host = { s.host with lastRd := t.host.lastRd } ∧
    (t.resp = .slverr ↔ ∃ size we offset, i = .badAccess size we offset) ∧ t.resp ≠ .none

/-- 10_state.md R25: STATE and ECODE, and with them ERR_ADDR and the job, change only through commands: every other
transaction leaves them, the contexts and the breach of R262 as they are. -/
def Obligations.OnlyCommandsChangeTheJob : Prop :=
  ∀ (i : Instr) (s t : State), isCommand i = false → exec i s = .next t →
    t.phase = s.phase ∧ t.ecode = s.ecode ∧ t.errAddr = s.errAddr ∧ t.job = s.job ∧ t.ctxs = s.ctxs ∧
      t.breach = s.breach

/-- R161, 10_state.md R34: while BUSY no transaction and no command changes anything but the answer and the host's last read
value. -/
def Obligations.BusyJobKeepsItsParameters : Prop :=
  ∀ (i : Instr) (s t : State), s.phase = .busy → exec i s = .next t →
    t = { s with resp := t.resp, host := { s.host with lastRd := t.host.lastRd } }

/-! ### Commands -/

/-- R166, R200 with 30_encoding.md R74: the three words of the commands decode to them and every other word to BAD_COMMAND; WR_CMD
answers the next state of the command its data word decodes to, and while BUSY none of them has an effect. -/
def Obligations.WrCmdRunsTheDecodedCommand : Prop :=
  (decode (.command 0x00000000) = .nop ∧ decode (.command 0x00000001) = .start ∧
      decode (.command 0x00000002) = .clear ∧
      ∀ word : Word, word ≠ 0 → word ≠ 1 → word ≠ 2 → decode (.command word) = .badCommand word) ∧
    ∀ (s : State) (word : Word), ∃ t : State,
      exec (decode (.command word)) s = .next t ∧ exec (.wrCmd word) s = .next t ∧
        (s.phase = .busy → t = { s with resp := .ok })

/-- R201: NOP has no effect, in any state. -/
def Obligations.NopHasNoEffect : Prop :=
  ∀ s : State, exec .nop s = .next { s with resp := .ok }

/-- R203: CLEAR sets IDLE, ECODE 0 and ERR_ADDR 0, and touches neither the parameter registers nor memory; in BUSY it has no
effect. -/
def Obligations.ClearReturnsToIdle : Prop :=
  ∀ s : State, exec .clear s = .next
    (if s.phase = .busy then { s with resp := .ok }
     else { s with phase := .idle, ecode := .noError, errAddr := 0, resp := .ok })

/-- R204, 60_exceptions.md R221: a bad command enters ERROR with ECODE 7 and ERR_ADDR 0, whatever the error before, and no context is
valid after it; the parameter registers and memory are unchanged. In BUSY it has no effect. -/
def Obligations.BadCommandEntersError : Prop :=
  ∀ (s : State) (word : Word), exec (.badCommand word) s = .next
    (if s.phase = .busy then { s with resp := .ok }
     else { s with
       phase := .error, ecode := .badCommand, errAddr := 0, ctxs := [], resp := .ok
       job := { s.job with todo := [], pending := 0 } })

/-- 41_dispatch.md R141, R151, 60_exceptions.md R225: outside BUSY, a START whose registers fail a check enters ERROR with
the code of the first failing check and ERR_ADDR 0; registers and memory are unchanged and no context is valid. -/
def Obligations.StartReportsTheFirstFailingCheck : Prop :=
  ∀ (s : State) (code : ECode), s.phase ≠ .busy → firstFailingCheck s.regs = some code →
    exec .start s = .next { s with
      phase := .error, ecode := code, errAddr := 0, ctxs := [], resp := .ok
      job := { s.job with todo := [], pending := 0 } }

/-- R142: outside BUSY, a START whose registers pass every check, of an image that is not empty, latches the parameters and
enters BUSY with every pixel to issue; registers and memory are unchanged. That the output region becomes unread is the
model's bookkeeping (log entry 15). -/
def Obligations.StartBeginsTheJob : Prop :=
  ∀ s : State, s.phase ≠ .busy → firstFailingCheck s.regs = none → s.regs.width ≠ 0 → s.regs.height ≠ 0 →
    ∃ todo : List Pixel, todo.Nodup ∧ (∀ p : Pixel, p ∈ todo ↔ p.x < s.regs.width.toNat ∧ p.y < s.regs.height.toNat) ∧
      exec .start s = .next { s with
        phase := .busy, ecode := .noError, errAddr := 0, breach := false, resp := .ok
        unread := ⟨s.regs.outBase.toNat, 4 * (s.regs.width.toNat * s.regs.height.toNat)⟩ :: s.unread
        job := { todo := todo, pending := 0, w := s.regs.width.toNat, h := s.regs.height.toNat, r := s.regs.radius.toInt,
                 sigma := f32bits s.regs.sigma, d := fmul .two (fmul (f32bits s.regs.sigma) (f32bits s.regs.sigma)),
                 inBase := s.regs.inBase.toNat, outBase := s.regs.outBase.toNat } }

/-- R142, R143: a START of an empty image that passes every check latches the parameters and goes straight to DONE, with ECODE
and ERR_ADDR 0 and nothing to issue, and writes nothing. That no breach is recorded is the model's bookkeeping (log entry
14). -/
def Obligations.EmptyImageIsDoneAtOnce : Prop :=
  ∀ s : State, s.phase ≠ .busy → firstFailingCheck s.regs = none → (s.regs.width = 0 ∨ s.regs.height = 0) →
    exec .start s = .next { s with
      phase := .done, ecode := .noError, errAddr := 0, breach := false, resp := .ok
      job := { todo := [], pending := 0, w := s.regs.width.toNat, h := s.regs.height.toNat, r := s.regs.radius.toInt,
               sigma := f32bits s.regs.sigma, d := fmul .two (fmul (f32bits s.regs.sigma) (f32bits s.regs.sigma)),
               inBase := s.regs.inBase.toNat, outBase := s.regs.outBase.toNat } }

/-- 70_reset_and_hazards.md R252: after reset, a START without any register write fails with INVALID_PARAMETER, and STATUS then
reads 0x00000013. -/
def Obligations.StartAfterResetFails : Prop :=
  ∃ t u : State, exec .start State.reset = .next t ∧ t.ecode = .invalidParameter ∧ exec .rdStatus t = .next u ∧
    u.resp = .data 0x00000013

/-- 60_exceptions.md R226: no transaction leaves ERROR but CLEAR and START, alone or as the data of WR_CMD; and no turn leaves it but
the host's and the reset input's, which always does. -/
def Obligations.ErrorIsLeftOnlyByClearOrStart : Prop :=
  (∀ (i : Instr) (s t : State), s.phase = .error → exec i s = .next t → t.phase ≠ .error →
      i = .clear ∨ i = .start ∨ i = .wrCmd 1 ∨ i = .wrCmd 2) ∧
    (∀ (P : Params) (turn : Turn) (s t : State), s.phase = .error → takeTurn P turn s = .next t → t.phase ≠ .error →
      turn = .reset ∨
        (turn = .host ∧ ∃ (desc : BitVec 9) (data : Word), fetch s = some (.access desc data) ∧
          (decode (.transaction desc data) = .wrCmd 1 ∨ decode (.transaction desc data) = .wrCmd 2))) ∧
    ∀ (P : Params) (s : State), ∃ t : State, takeTurn P .reset s = .next t ∧ t.phase = .idle

/-! ### Reset -/

/-- 10_state.md R22, R40: after reset every register holds 0, STATE = IDLE, ECODE = 0, ERR_ADDR = 0, no context is valid, no
pixel waits and none is pending. -/
def Obligations.ResetStateValues : Prop :=
  State.reset.regs = ⟨0, 0, 0, 0, 0, 0, 0, 0⟩ ∧ State.reset.phase = .idle ∧ State.reset.ecode = .noError ∧
    State.reset.errAddr = 0 ∧ (∀ k, cellFind k State.reset.ctxs = none) ∧ State.reset.job.todo = [] ∧
    State.reset.job.pending = 0

/-- 70_reset_and_hazards.md R250: the reset input, asserted at any time, gives every register its reset value and drops the job;
memory is unchanged outside the output region of a job that was running, and everywhere where none was; in that region every
byte is a free value (log entry 5). That the other fields of the job keep their values, which R251 calls don't-care, is the
model's choice (log entry 13), and so is what of the host stays (log entry 26). -/
def Obligations.ResetTurnResetsTheBlock : Prop :=
  ∀ (P : Params) (s : State), ∃ (m : Memory) (n : Nat),
    takeTurn P .reset s = .next { s with
      regs := ⟨0, 0, 0, 0, 0, 0, 0, 0⟩, phase := .idle, ecode := .noError, errAddr := 0, ctxs := [], breach := false
      job := { s.job with todo := [], pending := 0 }, mem := m, draws := n } ∧
    (s.phase ≠ .busy → m = s.mem) ∧
    (∀ a, (outputRegion s.job).holds a = false → readByte m a = readByte s.mem a) ∧
    (s.phase = .busy → ∀ a, (outputRegion s.job).holds a = true → a < 2 ^ 32 →
      readByte m a = Config.freeByte (s.draws + (a - s.job.outBase)))

/-! ### The steps of a running job -/

/-- 40_convolution.md R108: WI_ISSUE takes any waiting pixel into any free context below LANES, with the scan at (-r, -r) and
every sum at +0.0; nothing else changes. A turn whose condition does not hold changes nothing. -/
def Obligations.IssueMakesAFreshContext : Prop :=
  (∀ (P : Params) (k : Nat) (p : Pixel) (s : State), s.phase = .busy → p ∈ s.job.todo → k < P.lanes →
      cellFind k s.ctxs = none →
      takeTurn P (.issue k p) s = .next { s with
        job := { s.job with todo := s.job.todo.erase p, pending := s.job.pending + 1 }
        ctxs := cellSet k
          { x := p.x, y := p.y, oi := -s.job.r, oj := -s.job.r
            acc := { sums := ⟨.zero, .zero, .zero, .zero⟩, total := .zero } } s.ctxs }) ∧
    ∀ (P : Params) (k : Nat) (p : Pixel) (s : State),
      (s.phase ≠ .busy ∨ p ∉ s.job.todo ∨ P.lanes ≤ k ∨ cellFind k s.ctxs ≠ none) →
      takeTurn P (.issue k p) s = .next s

/-- R110: WI_OFFSET at a neighbor (nx, ny) in bounds reads its word; the access faults, or each channel's sum takes the rounded
product of weight and channel, the total takes the weight, and the scan advances. Nothing else changes. -/
def Obligations.OffsetStepAccumulatesTheNeighbor : Prop :=
  ∀ (P : Params) (k : Nat) (c : Ctx) (s : State) (nx ny : Nat),
    s.phase = .busy → cellFind k s.ctxs = some c → c.oj ≤ s.job.r →
    (nx : Int) = c.x + c.oi → (ny : Int) = c.y + c.oj → nx < s.job.w → ny < s.job.h →
    s.job.inBase + 4 * (ny * s.job.w + nx) + 4 ≤ 2 ^ 32 →
    ∃ (w : F32) (p : Word), w = P.expF32 (fdiv (intToF32 (-(c.oi * c.oi + c.oj * c.oj))) s.job.d) ∧
      p = readWord s.mem (s.job.inBase + 4 * (ny * s.job.w + nx)) ∧
      takeTurn P (.context k) s = .next
        (if P.busFault (s.job.inBase + 4 * (ny * s.job.w + nx)) .read = true then
          jobFault (s.job.inBase + 4 * (ny * s.job.w + nx)) s
        else { s with
          ctxs := cellSet k
            { x := c.x, y := c.y
              oi := if c.oi < s.job.r then c.oi + 1 else -s.job.r
              oj := if c.oi < s.job.r then c.oj else c.oj + 1
              acc := { sums := ⟨channelSum w c.acc.sums.r (p.extractLsb' 0 8), channelSum w c.acc.sums.g (p.extractLsb' 8 8),
                         channelSum w c.acc.sums.b (p.extractLsb' 16 8), channelSum w c.acc.sums.a (p.extractLsb' 24 8)⟩
                       total := fadd c.acc.total w } } s.ctxs })

/-- R111: WI_OFFSET out of bounds advances the scan and does nothing else: no access, S and T unchanged. -/
def Obligations.OutOfBoundsOffsetIsSkipped : Prop :=
  ∀ (P : Params) (k : Nat) (c : Ctx) (s : State), s.phase = .busy → cellFind k s.ctxs = some c → c.oj ≤ s.job.r →
    ((c.x : Int) + c.oi < 0 ∨ (s.job.w : Int) ≤ c.x + c.oi ∨ (c.y : Int) + c.oj < 0 ∨ (s.job.h : Int) ≤ c.y + c.oj) →
    takeTurn P (.context k) s = .next { s with
      ctxs := cellSet k
        { c with oi := if c.oi < s.job.r then c.oi + 1 else -s.job.r
                 oj := if c.oi < s.job.r then c.oj else c.oj + 1 } s.ctxs }

/-- R114: WI_FINISH writes the word of the quantized quotients to the pixel's place in the output region and frees the context,
or takes JOB_FAULT where that write gets an error response. Nothing else changes. -/
def Obligations.FinishStepWritesThePixel : Prop :=
  ∀ (P : Params) (k : Nat) (c : Ctx) (s : State), s.phase = .busy → cellFind k s.ctxs = some c → c.oj = s.job.r + 1 →
    s.job.outBase + 4 * (c.y * s.job.w + c.x) + 4 ≤ 2 ^ 32 →
    takeTurn P (.context k) s = .next
      (if P.busFault (s.job.outBase + 4 * (c.y * s.job.w + c.x)) .write = true then
        jobFault (s.job.outBase + 4 * (c.y * s.job.w + c.x)) s
      else { s with
        mem := writeWord (s.job.outBase + 4 * (c.y * s.job.w + c.x))
          (q8 (fdiv c.acc.sums.a c.acc.total) ++ q8 (fdiv c.acc.sums.b c.acc.total) ++
            q8 (fdiv c.acc.sums.g c.acc.total) ++ q8 (fdiv c.acc.sums.r c.acc.total)) s.mem
        ctxs := cellErase k s.ctxs
        job := { s.job with pending := s.job.pending - 1 } })

/-- 41_dispatch.md R147: JOB_FAULT(a) enters ERROR with ECODE 3 and ERR_ADDR = a and drops the job; memory outside the output
region, the registers and the host are unchanged, and every byte of the region is a free value (log entry 5). -/
def Obligations.JobFaultEntersError : Prop :=
  ∀ (a : Nat) (s : State), ∃ (m : Memory) (n : Nat),
    jobFault a s = { s with
      phase := .error, ecode := .busFault, errAddr := BitVec.ofNat 32 a, ctxs := [], mem := m, draws := n
      job := { s.job with todo := [], pending := 0 } } ∧
    (∀ b, (outputRegion s.job).holds b = false → readByte m b = readByte s.mem b) ∧
    ∀ b, (outputRegion s.job).holds b = true → b < 2 ^ 32 →
      readByte m b = Config.freeByte (s.draws + (b - s.job.outBase))

/-- R146: when no pixel waits and none is pending, JOB_COMPLETE sets DONE; without a breach of R262 nothing else changes.
Before that it does nothing. -/
def Obligations.JobCompleteEntersDone : Prop :=
  (∀ (P : Params) (s : State), s.phase = .busy → s.job.todo = [] → s.job.pending = 0 → s.breach = false →
      takeTurn P .complete s = .next { s with phase := .done }) ∧
    ∀ (P : Params) (s : State), (s.phase ≠ .busy ∨ s.job.todo ≠ [] ∨ s.job.pending ≠ 0) →
      takeTurn P .complete s = .next s

/-- 20_memory.md R62, 60_exceptions.md R236: outside BUSY the block takes no step, so it makes no access. -/
def Obligations.BlockIsStillOutsideBusy : Prop :=
  ∀ (P : Params) (turn : Turn) (s : State), s.phase ≠ .busy → isBlockTurn turn = true → takeTurn P turn s = .next s

/-! ### The datapath -/

/-- R109: from a fresh context, the n-th advance stands at the n-th offset in scan order, column n mod (2r+1) and row
n / (2r+1) of the window, and after (2r+1)^2 of them the scan is finished. -/
def Obligations.ScanVisitsTheWindowRowByRow : Prop :=
  ∀ (r : Nat) (p : Pixel),
    (∀ n, n < (2 * r + 1) * (2 * r + 1) →
      ((advance r)^[n] (freshCtx r p)).oi = (n % (2 * r + 1) : Nat) - (r : Int) ∧
        ((advance r)^[n] (freshCtx r p)).oj = (n / (2 * r + 1) : Nat) - (r : Int) ∧
        (scanOffsets r)[n]? =
          some (((advance r)^[n] (freshCtx r p)).oi, ((advance r)^[n] (freshCtx r p)).oj)) ∧
      ((advance r)^[(2 * r + 1) * (2 * r + 1)] (freshCtx r p)).oi = -(r : Int) ∧
      ((advance r)^[(2 * r + 1) * (2 * r + 1)] (freshCtx r p)).oj = (r : Int) + 1

/-- R119: a window has (2r+1)^2 offsets, of which cx * cy are in bounds. -/
def Obligations.WindowOffsetsInBounds : Prop :=
  ∀ (w h r x y : Nat), x < w → y < h →
    (scanOffsets r).length = (2 * r + 1) * (2 * r + 1) ∧
      ((scanOffsets r).filter fun o => inBounds w h (x + o.1) (y + o.2)).length =
        (min x r + min (w - 1 - x) r + 1) * (min y r + min (h - 1 - y) r + 1)

/-- R104, R106: for every exponential with P1 to P4 and every denominator that START accepts, the center weight is 1.0, every
weight is between +0 and 1.0, the weight depends on i² + j² alone, and every weight is 1.0 when d = +inf. -/
def Obligations.WeightsAreBoundedAndSymmetric : Prop :=
  (∀ (exp : F32 → F32) (d : F32) (i j i' j' : Int), i * i + j * j = i' * i' + j' * j' →
      weight exp d i j = weight exp d i' j') ∧
  ∀ (exp : F32 → F32) (d : F32) (i j : Int), ExpLaws exp → GoodDenominator d → |i| ≤ 2 ^ 31 → |j| ≤ 2 ^ 31 →
    weight exp d 0 0 = .one ∧ AtMost 0x3F800000 (weight exp d i j) ∧ weight exp d (-i) j = weight exp d i j ∧
      weight exp d i (-j) = weight exp d i j ∧ weight exp d j i = weight exp d i j ∧
      weight exp (.inf false) i j = .one

/-- 90_conflicts.md C5, by P4: for a fixed denominator, a larger i² + j² gives a weight that is not larger. -/
def Obligations.WeightsFallWithDistance : Prop :=
  ∀ (exp : F32 → F32) (d : F32) (i j i' j' : Int), ExpLaws exp → GoodDenominator d →
    |i| ≤ 2 ^ 31 → |j| ≤ 2 ^ 31 → |i'| ≤ 2 ^ 31 → |j'| ≤ 2 ^ 31 → i * i + j * j ≤ i' * i' + j' * j' →
    fle (weight exp d i' j') (weight exp d i j) = true

/-- 00_scope.md R12: the rounded magnitude is a nearest one, of two nearest the even one; `rnd32` is the value with that
magnitude and the exact value's sign, and infinite exactly from 2^128 * (1 - 2^-25) on (in units of 2^-149, from
2^277 - 2^252 on). Of finite operands `fadd`, `fmul`, `fdiv` and `int_to_f32` give `rnd32` of the exact sum, product, quotient
and integer, all counted in units of 2^-149. The signs of zero sums, products and quotients are those of IEEE 754, PRESUMED
from general knowledge (log entry 23). -/
def Obligations.RoundingIsToNearestEven : Prop :=
  (∀ (num den : Nat), 0 < den →
    (∀ m : Nat, |(magUnits (rndMag num den) * den : Int) - num| ≤ |(magUnits m * den : Int) - num|) ∧
      (∀ m : Nat, m ≠ rndMag num den → |(magUnits m * den : Int) - num| = |(magUnits (rndMag num den) * den : Int) - num| →
        rndMag num den % 2 = 0) ∧
      (∀ neg : Bool, rnd32 neg num den = .inf neg ↔ (2 ^ 277 - 2 ^ 252) * den ≤ num) ∧
      ∀ neg : Bool, num < (2 ^ 277 - 2 ^ 252) * den →
        ∃ h : rndMag num den < 0x7F800000, rnd32 neg num den = .fin neg ⟨rndMag num den, h⟩) ∧
    (∀ (s t : Bool) (m n : Fin 0x7F800000), fadd (.fin s m) (.fin t n) =
      if signedUnits s m.val + signedUnits t n.val = 0 then (if s = true ∧ t = true then .negZero else .zero)
      else rnd32 (decide (signedUnits s m.val + signedUnits t n.val < 0))
        (signedUnits s m.val + signedUnits t n.val).natAbs 1) ∧
    (∀ (s t : Bool) (m n : Fin 0x7F800000),
      fmul (.fin s m) (.fin t n) = rnd32 (s != t) (magUnits m.val * magUnits n.val) (2 ^ 149)) ∧
    (∀ (s t : Bool) (m n : Fin 0x7F800000), n.val ≠ 0 →
      fdiv (.fin s m) (.fin t n) = rnd32 (s != t) (magUnits m.val * 2 ^ 149) (magUnits n.val)) ∧
    ∀ z : Int, intToF32 z = rnd32 (decide (z < 0)) (z.natAbs * 2 ^ 149) 1

/-- 40_convolution.md R115: Q8 of NaN and -inf is 0, of +inf 255; a negative value gives 0; a value below 255.5 gives a nearest
integer, the even one of two, and any larger value 255. -/
def Obligations.QuantizerRoundsAndSaturates : Prop :=
  (∀ n, q8 (.nan n) = 0) ∧ q8 (.inf true) = 0 ∧ q8 (.inf false) = 255 ∧ (∀ m, q8 (.fin true m) = 0) ∧
    ∀ m : Fin 0x7F800000,
      (2 * magUnits m.val < 511 * 2 ^ 149 →
        2 * |((q8 (.fin false m)).toNat * 2 ^ 149 : Int) - magUnits m.val| ≤ 2 ^ 149 ∧
          (2 * |((q8 (.fin false m)).toNat * 2 ^ 149 : Int) - magUnits m.val| = 2 ^ 149 →
            (q8 (.fin false m)).toNat % 2 = 0)) ∧
        (511 * 2 ^ 149 ≤ 2 * magUnits m.val → q8 (.fin false m) = 255)

/-- R115: a larger value never quantizes to a smaller byte. -/
def Obligations.QuantizerIsMonotone : Prop :=
  ∀ a b : F32, fle a b = true → (q8 a).toNat ≤ (q8 b).toNat

/-- 95_test_vectors.md 1.2: with radius 0, PIXEL is the input pixel, for every sigma that START accepts. -/
def Obligations.RadiusZeroIsTheIdentity : Prop :=
  ∀ (exp : F32 → F32) (d : F32) (img : Image) (w h x y : Nat), ExpLaws exp → GoodDenominator d → x < w → y < h →
    pixel exp img w h 0 d x y = img x y

/-- 40_convolution.md R112: channels are blurred independently. Two images that agree in one channel give outputs that agree in
that channel. -/
def Obligations.ChannelsAreIndependent : Prop :=
  ∀ (exp : F32 → F32) (d : F32) (img img' : Image) (w h : Nat) (r : Int) (x y : Nat),
    ((∀ u v, (img u v).r = (img' u v).r) → (pixel exp img w h r d x y).r = (pixel exp img' w h r d x y).r) ∧
      ((∀ u v, (img u v).g = (img' u v).g) → (pixel exp img w h r d x y).g = (pixel exp img' w h r d x y).g) ∧
      ((∀ u v, (img u v).b = (img' u v).b) → (pixel exp img w h r d x y).b = (pixel exp img' w h r d x y).b) ∧
      ((∀ u v, (img u v).a = (img' u v).a) → (pixel exp img w h r d x y).a = (pixel exp img' w h r d x y).a)

/-- R116: when a pixel's scan is finished, the total weight is at least 1.0 and every quotient is finite and not negative. -/
def Obligations.TotalWeightIsAtLeastOne : Prop :=
  ∀ (exp : F32 → F32) (d : F32) (img : Image) (w h r x y : Nat), ExpLaws exp → GoodDenominator d →
    r < 2 ^ 31 → x < w → y < h →
    ∃ S : Rgba F32, ∃ T : F32, pixelAcc exp img w h r d x y = { sums := S, total := T } ∧ AtLeastOne T ∧
      AtMost 0x7F7FFFFF (fdiv S.r T) ∧ AtMost 0x7F7FFFFF (fdiv S.g T) ∧ AtMost 0x7F7FFFFF (fdiv S.b T) ∧
      AtMost 0x7F7FFFFF (fdiv S.a T)

/-! ### Invariants and whole jobs -/

/-- 20_memory.md R54 to R56, 41_dispatch.md R150: every engine address of a running job is a multiple of 4 inside the input
region for a read, of the context's own offset or of any other that is in bounds, and inside the output region for a write,
both below 2^32, and the regions share no byte. -/
def Obligations.EngineAddressesStayInTheirRegions : Prop :=
  ∀ (P : Params) (s : State) (k : Nat) (c : Ctx), MachineInv P s → s.phase = .busy → cellFind k s.ctxs = some c →
    (∀ oi oj : Int, inBounds s.job.w s.job.h (c.x + oi) (c.y + oj) = true →
      neighborAddr s.job { c with oi := oi, oj := oj } % 4 = 0 ∧
        s.job.inBase ≤ neighborAddr s.job { c with oi := oi, oj := oj } ∧
        neighborAddr s.job { c with oi := oi, oj := oj } + 4 ≤ s.job.inBase + 4 * (s.job.w * s.job.h)) ∧
      outputAddr s.job c % 4 = 0 ∧ s.job.outBase ≤ outputAddr s.job c ∧
      outputAddr s.job c + 4 ≤ s.job.outBase + 4 * (s.job.w * s.job.h) ∧
      s.job.inBase + 4 * (s.job.w * s.job.h) ≤ 2 ^ 32 ∧ s.job.outBase + 4 * (s.job.w * s.job.h) ≤ 2 ^ 32 ∧
      ∀ a, ¬((inputRegion s.job).holds a = true ∧ (outputRegion s.job).holds a = true)

/-- R55: a step of the block changes no byte outside the output region of the running job. -/
def Obligations.BlockWritesOnlyTheOutputRegion : Prop :=
  ∀ (P : Params) (turn : Turn) (s t : State), MachineInv P s → isBlockTurn turn = true → takeTurn P turn s = .next t →
    ∀ a, (outputRegion s.job).holds a = false → readByte t.mem a = readByte s.mem a

/-- The invariant holds at reset. -/
def Obligations.InvariantHoldsAtReset : Prop := ∀ P : Params, MachineInv P State.reset

/-- Every step keeps the invariant: memory stays canonical, R27 holds, outside BUSY there is no job, and in BUSY the job's
copies equal registers that passed every check, each pixel is in one place, and each context stands in its window. -/
def Obligations.EveryStepKeepsTheInvariant : Prop :=
  ∀ s t : State, MachineInv Config.params s → step s = .next t → MachineInv Config.params t

/-- 10_state.md R27, its invariants, from any state that meets them: STATE = ERROR exactly when ECODE != 0, and ERR_ADDR != 0 only
when ECODE = 3. -/
def Obligations.StatusInvariantIsKept : Prop :=
  ∀ s t : State, StatusOk s → step s = .next t → StatusOk t

/-- 41_dispatch.md R150: no step from a state with the invariant makes an engine access outside the data space; and no step is
ever refused. -/
def Obligations.EngineNeverLeavesTheDataSpace : Prop :=
  ∀ s : State, (MachineInv Config.params s → step s ≠ .fault .engineAddress) ∧ ∀ r : Refusal, step s ≠ .refused r

/-- 20_memory.md R61, 41_dispatch.md R142: a START that begins a job puts it on course from memory as it stands. -/
def Obligations.StartPutsTheJobOnCourse : Prop :=
  ∀ (P : Params) (s : State), MachineInv P s → s.phase ≠ .busy → firstFailingCheck s.regs = none →
    s.regs.width ≠ 0 → s.regs.height ≠ 0 →
    ∃ t : State, exec .start s = .next t ∧ t.phase = .busy ∧ t.breach = false ∧ OnCourse P.expF32 s.mem t

/-- 41_dispatch.md R149: a step of a job that is on course, while the host keeps its hands off both regions (no breach), leaves it
on course, and if it ends the job in DONE then every pixel of the output region holds PIXEL of the image as it stood at
START. -/
def Obligations.JobStaysOnCourseToTheBlurredImage : Prop :=
  ∀ (m₀ : Memory) (s t : State), MachineInv Config.params s → s.phase = .busy → OnCourse Config.params.expF32 m₀ s →
    step s = .next t → t.breach = false →
    (t.phase = .busy → OnCourse Config.params.expF32 m₀ t) ∧
      (t.phase = .done → Blurred Config.params.expF32 m₀ s.job t.mem)

/-- R148: every enabled step of the block brings the job one step nearer its end, and at START the steps left are
N * ((2r+1)^2 + 2) + 1. -/
def Obligations.JobStepsAreBounded : Prop :=
  (∀ (P : Params) (turn : Turn) (s t : State), MachineInv P s → s.phase = .busy → isBlockTurn turn = true →
      takeTurn P turn s = .next t → t = s ∨ t.phase ≠ .busy ∨ jobMeasure t + 1 = jobMeasure s) ∧
    ∀ s : State, s.phase ≠ .busy → s.ctxs = [] → firstFailingCheck s.regs = none → s.regs.width ≠ 0 →
      s.regs.height ≠ 0 → ∃ t : State, exec .start s = .next t ∧
        jobMeasure t = s.regs.width.toNat * s.regs.height.toNat *
          ((2 * s.regs.radius.toInt.toNat + 1) * (2 * s.regs.radius.toInt.toNat + 1) + 2) + 1

/-- R148: a running job always has an enabled step of those that R81 lists, one that ends it or brings it nearer its end. And in
every run that is weakly fair, in which no reset comes, a running job whose accesses do not fault reaches DONE, after at
most as many steps of the block as its measure counts. Where no read of an input pixel and no write of an output pixel gets
an error response, no step of the block takes a running job to ERROR. -/
def Obligations.BusyJobCanAlwaysStep : Prop :=
  (∀ (P : Params) (s : State), MachineInv P s → s.phase = .busy →
    ∃ (turn : Turn) (t : State), isListedTurn turn = true ∧ takeTurn P turn s = .next t ∧
      (t.phase ≠ .busy ∨ jobMeasure t < jobMeasure s)) ∧
    (∀ (P : Params) (run : Nat → State), IsRun P run → WeaklyFair P run → (∀ n, nextTurn (run n) ≠ .reset) →
      MachineInv P (run 0) → (run 0).phase = .busy → AccessesDoNotFault run →
      ∃ n, (run n).phase = .done ∧ blockSteps run n ≤ jobMeasure (run 0)) ∧
    ∀ (P : Params) (turn : Turn) (s t : State), MachineInv P s → s.phase = .busy → NoBusFaults P s.job →
      isBlockTurn turn = true → takeTurn P turn s = .next t → t.phase ≠ .error

/-- 40_convolution.md R117, 20_memory.md R60: steps of two contexts of a running job, taken in either order, lead to the same
state when neither access faults. R54, 93_implementation_defined.md section 2: how often an input word is read shows only in
faults. An extra read changes nothing where it gets no error response, and a WI_OFFSET without a read does what WI_OFFSET
does where no access gets one. -/
def Obligations.ContextStepsCommute : Prop :=
  (∀ (P : Params) (k : Nat) (c : Ctx) (oi oj : Int) (s : State), MachineInv P s → s.phase = .busy →
    cellFind k s.ctxs = some c → c.oj ≤ s.job.r → inBounds s.job.w s.job.h (c.x + c.oi) (c.y + c.oj) = true →
    takeTurn P (.fetch k oi oj) s = .next
      (if (|oi| ≤ s.job.r ∧ |oj| ≤ s.job.r ∧ inBounds s.job.w s.job.h (c.x + oi) (c.y + oj) = true) ∧
          P.busFault (neighborAddr s.job { c with oi := oi, oj := oj }) .read = true then
        jobFault (neighborAddr s.job { c with oi := oi, oj := oj }) s
      else s) ∧
      takeTurn P (.held k) s = takeTurn { P with busFault := fun _ _ => false } (.context k) s) ∧
  ∀ (P : Params) (j k : Nat) (s a b c d : State), MachineInv P s → s.phase = .busy → j ≠ k →
    takeTurn P (.context j) s = .next a → takeTurn P (.context k) a = .next b →
    takeTurn P (.context k) s = .next c → takeTurn P (.context j) c = .next d →
    b.phase = .busy → d.phase = .busy → b = d

/-! ### The host's accesses to the data space -/

/-- 70_reset_and_hazards.md R262: a host write that touches a region of the running job lands, and is remembered as a breach;
JOB_COMPLETE of a job with a breach havocs its output region and sets DONE as usual. A write elsewhere is free. R147: a havoc
gives every byte of the region a free value, one draw for each (log entry 5), and leaves all else. That the write takes its
bytes out of the list `unordered` is the model's bookkeeping (log entry 15). -/
def Obligations.HostWriteIntoARunningJobIsABreach : Prop :=
  (∀ (s : State) (addr : Word) (bytes : List Byte), addr.toNat + bytes.length ≤ 2 ^ 32 →
      hostWrite addr bytes s = .next { s with
        mem := writeBytes addr.toNat bytes s.mem
        breach := s.breach || breaches addr.toNat bytes.length s
        unordered := s.unordered.flatMap (Region.without addr.toNat bytes.length) }) ∧
    (∀ (s : State) (addr count a : Nat), s.phase = .busy → addr ≤ a → a < addr + count →
      ((inputRegion s.job).holds a = true ∨ (outputRegion s.job).holds a = true) → breaches addr count s = true) ∧
    (∀ (s : State) (addr count : Nat), breaches addr count s = true → s.phase = .busy ∧
      ∃ a, addr ≤ a ∧ a < addr + count ∧ ((inputRegion s.job).holds a = true ∨ (outputRegion s.job).holds a = true)) ∧
    (∀ (P : Params) (s : State), s.phase = .busy → s.job.todo = [] → s.job.pending = 0 → s.breach = true →
      takeTurn P .complete s = .next { havocOutput s with phase := .done }) ∧
    ∀ s : State, ∃ m : Memory,
      havocOutput s = { s with mem := m, draws := s.draws + 4 * (s.job.w * s.job.h) } ∧
      (∀ a, (outputRegion s.job).holds a = true → a < 2 ^ 32 →
        readByte m a = Config.freeByte (s.draws + (a - s.job.outBase))) ∧
      ∀ a, (outputRegion s.job).holds a = false → readByte m a = readByte s.mem a

/-- R262, R264, 20_memory.md R62, R64: a byte is unsettled exactly in the output region of the running job and in the regions that
wait for a STATUS read (log entry 15). A host read returns memory's byte wherever the byte is settled. A STATUS read of DONE
or ERROR settles every byte; one of IDLE ends the host's duty for every job, and settles none. That an ERROR of any code
settles them is the model's choice (log entry 29). -/
def Obligations.HostReadsSettledBytes : Prop :=
  (∀ (s : State) (addr : Word) (count : Nat), addr.toNat + count ≤ 2 ^ 32 →
      ∃ t : State, hostRead addr count s = .next t ∧ t.mem = s.mem ∧ t.host.memData.length = count ∧
        ∀ k, k < count → unsettled s (addr.toNat + k) = false →
          t.host.memData[k]? = some (readByte s.mem (addr.toNat + k))) ∧
    (∀ (s : State) (a : Nat), unsettled s a = true ↔
      (s.phase = .busy ∧ (outputRegion s.job).holds a = true) ∨ (∃ region ∈ s.unread, region.holds a = true) ∨
        ∃ region ∈ s.unordered, region.holds a = true) ∧
    (∀ s : State, s.phase = .done ∨ s.phase = .error →
      ∃ t : State, exec .rdStatus s = .next t ∧ ∀ a, unsettled t a = false) ∧
    ∀ s : State, s.phase = .idle →
      ∃ t : State, exec .rdStatus s = .next t ∧ t.unread = [] ∧ ∀ a, unsettled t a = unsettled s a

/-- 30_encoding.md R79, 20_memory.md R52, R57: MR32 returns the word that MW32 stored, where the word touches no output region of
a running job and none that waits for the end of the host's duty; and the write settles its four bytes and no other (log
entry 15). That this holds of input regions too while the duty runs, where R63 leaves the result open, is the model's choice
(log entries 14, 28). -/
def Obligations.HostReadsBackWhatItWrote : Prop :=
  ∀ (s : State) (addr v : Word), addr.toNat + 4 ≤ 2 ^ 32 →
    (∀ a, addr.toNat ≤ a → a < addr.toNat + 4 →
      ¬(s.phase = .busy ∧ (outputRegion s.job).holds a = true) ∧ ∀ region ∈ s.unread, region.holds a = false) →
    ∃ t u : State, hostWrite addr (wordBytes v) s = .next t ∧ hostRead addr 4 t = .next u ∧
      u.host.memData = wordBytes v ∧
      ∀ a, unsettled t a = if addr.toNat ≤ a ∧ a < addr.toNat + 4 then false else unsettled s a
end

