-- ==== Sys2Proof/Laws/Cells.lean ====
section
/-!
SUPPORT. The lists keyed by rising numbers that hold memory and contexts: what find, set and erase answer, and that they
keep the canonical form.
-/

namespace Sys2Proof.Machine

variable {α : Type}

@[simp] theorem cellFind_nil (k : Nat) : cellFind k ([] : List (Nat × α)) = none := rfl

theorem rising_cons {j : Nat} {w : α} {l : List (Nat × α)} :
    Rising ((j, w) :: l) ↔ (∀ e ∈ l, j < e.1) ∧ Rising l := by
  simp [Rising]

theorem cellFind_none_of_lt {k : Nat} {l : List (Nat × α)} (h : ∀ e ∈ l, k < e.1) : cellFind k l = none := by
  induction l with
  | nil => rfl
  | cons e l ih =>
    have he := h e (by simp)
    simp only [cellFind]
    rw [if_neg (by omega)]
    exact ih fun e' he' => h e' (by simp [he'])

theorem cellFind_mem {k : Nat} {v : α} {l : List (Nat × α)} (h : cellFind k l = some v) : (k, v) ∈ l := by
  induction l with
  | nil => simp at h
  | cons e l ih =>
    obtain ⟨j, w⟩ := e
    simp only [cellFind] at h
    split at h
    · next hj => subst hj; cases h; simp
    · exact List.mem_cons_of_mem _ (ih h)

theorem cellFind_of_mem {k : Nat} {v : α} {l : List (Nat × α)} (hr : Rising l) (h : (k, v) ∈ l) :
    cellFind k l = some v := by
  induction l with
  | nil => simp at h
  | cons e l ih =>
    obtain ⟨j, w⟩ := e
    rw [rising_cons] at hr
    simp only [cellFind]
    rcases List.mem_cons.1 h with h | h
    · cases h; simp
    · have := hr.1 _ h
      rw [if_neg (by simp at this; omega)]
      exact ih hr.2 h

theorem mem_cellSet {k : Nat} {v : α} {l : List (Nat × α)} {e : Nat × α} (h : e ∈ cellSet k v l) :
    e = (k, v) ∨ e ∈ l := by
  induction l with
  | nil => simpa [cellSet] using h
  | cons e' l ih =>
    obtain ⟨j, w⟩ := e'
    simp only [cellSet] at h
    split at h
    · simpa using h
    · split at h
      · rcases List.mem_cons.1 h with h | h
        · exact .inl h
        · exact .inr (List.mem_cons_of_mem _ h)
      · rcases List.mem_cons.1 h with h | h
        · exact .inr (by simp [h])
        · exact (ih h).imp id (List.mem_cons_of_mem _)

theorem rising_cellSet (k : Nat) (v : α) {l : List (Nat × α)} (h : Rising l) : Rising (cellSet k v l) := by
  induction l with
  | nil => simp [cellSet, Rising]
  | cons e l ih =>
    obtain ⟨j, w⟩ := e
    have h' := rising_cons.1 h
    simp only [cellSet]
    split
    · next hk =>
      refine rising_cons.2 ⟨fun e he => ?_, h⟩
      rcases List.mem_cons.1 he with rfl | he
      · exact hk
      · exact lt_trans hk (h'.1 e he)
    · split
      · next hk => subst hk; exact rising_cons.2 h'
      · refine rising_cons.2 ⟨fun e he => ?_, ih h'.2⟩
        rcases mem_cellSet he with rfl | he
        · simp; omega
        · exact h'.1 e he

theorem cellFind_cellSet_same (k : Nat) (v : α) (l : List (Nat × α)) : cellFind k (cellSet k v l) = some v := by
  induction l with
  | nil => simp [cellSet, cellFind]
  | cons e l ih =>
    obtain ⟨j, w⟩ := e
    simp only [cellSet]
    split
    · simp [cellFind]
    · split
      · simp [cellFind]
      · next h => simp only [cellFind]; rw [if_neg (fun h' => h h'.symm)]; exact ih

theorem cellFind_cellSet_ne {k k' : Nat} (hne : k' ≠ k) (v : α) (l : List (Nat × α)) :
    cellFind k' (cellSet k v l) = cellFind k' l := by
  induction l with
  | nil => simp [cellSet, cellFind, Ne.symm hne]
  | cons e l ih =>
    obtain ⟨j, w⟩ := e
    simp only [cellSet]
    split
    · simp [cellFind, Ne.symm hne]
    · split
      · next h => subst h; simp [cellFind, Ne.symm hne]
      · simp only [cellFind]; rw [ih]

theorem cellFind_cellSet (k k' : Nat) (v : α) (l : List (Nat × α)) :
    cellFind k' (cellSet k v l) = if k' = k then some v else cellFind k' l := by
  split
  · next h => subst h; exact cellFind_cellSet_same _ _ _
  · next h => exact cellFind_cellSet_ne h _ _

theorem mem_of_mem_cellErase {k : Nat} {l : List (Nat × α)} {e : Nat × α} (h : e ∈ cellErase k l) : e ∈ l := by
  induction l with
  | nil => simp [cellErase] at h
  | cons e' l ih =>
    obtain ⟨j, w⟩ := e'
    simp only [cellErase] at h
    split at h
    · exact List.mem_cons_of_mem _ h
    · rcases List.mem_cons.1 h with h | h
      · simp [h]
      · exact List.mem_cons_of_mem _ (ih h)

theorem rising_cellErase (k : Nat) {l : List (Nat × α)} (h : Rising l) : Rising (cellErase k l) := by
  induction l with
  | nil => exact h
  | cons e l ih =>
    obtain ⟨j, w⟩ := e
    have h' := rising_cons.1 h
    simp only [cellErase]
    split
    · exact h'.2
    · exact rising_cons.2 ⟨fun e he => h'.1 e (mem_of_mem_cellErase he), ih h'.2⟩

theorem cellFind_cellErase_same (k : Nat) {l : List (Nat × α)} (h : Rising l) : cellFind k (cellErase k l) = none := by
  induction l with
  | nil => rfl
  | cons e l ih =>
    obtain ⟨j, w⟩ := e
    have h' := rising_cons.1 h
    simp only [cellErase]
    split
    · next hj => subst hj; exact cellFind_none_of_lt h'.1
    · next hj => simp only [cellFind]; rw [if_neg hj]; exact ih h'.2

theorem cellFind_cellErase_ne {k k' : Nat} (hne : k' ≠ k) (l : List (Nat × α)) :
    cellFind k' (cellErase k l) = cellFind k' l := by
  induction l with
  | nil => rfl
  | cons e l ih =>
    obtain ⟨j, w⟩ := e
    simp only [cellErase]
    split
    · next hj => subst hj; simp [cellFind, Ne.symm hne]
    · simp only [cellFind]; rw [ih]

/-- Two lists in canonical form that answer every key alike are the same data. -/
theorem rising_ext {l l' : List (Nat × α)} (h : Rising l) (h' : Rising l')
    (hf : ∀ k, cellFind k l = cellFind k l') : l = l' := by
  induction l generalizing l' with
  | nil =>
    cases l' with
    | nil => rfl
    | cons e l' => have := hf e.1; simp [cellFind] at this
  | cons e l ih =>
    obtain ⟨j, w⟩ := e
    cases l' with
    | nil => have := hf j; simp [cellFind] at this
    | cons e' l' =>
      obtain ⟨j', w'⟩ := e'
      have hl := rising_cons.1 h
      have hl' := rising_cons.1 h'
      have hj : j = j' := by
        rcases Nat.lt_trichotomy j j' with hlt | heq | hgt
        · have := hf j
          rw [show cellFind j ((j', w') :: l') = none from
            cellFind_none_of_lt fun e he => by
              rcases List.mem_cons.1 he with rfl | he
              · exact hlt
              · exact lt_trans hlt (hl'.1 e he)] at this
          simp [cellFind] at this
        · exact heq
        · have := hf j'
          rw [show cellFind j' ((j, w) :: l) = none from
            cellFind_none_of_lt fun e he => by
              rcases List.mem_cons.1 he with rfl | he
              · exact hgt
              · exact lt_trans hgt (hl.1 e he)] at this
          simp [cellFind] at this
      subst hj
      have hw := hf j
      simp [cellFind] at hw
      subst hw
      congr 1
      refine ih hl.2 hl'.2 fun k => ?_
      by_cases hk : k = j
      · subst hk; rw [cellFind_none_of_lt hl.1, cellFind_none_of_lt hl'.1]
      · have := hf k
        simpa [cellFind, Ne.symm hk] using this

/-- Setting different keys, in either order, gives the same list. -/
theorem cellSet_comm {k k' : Nat} (hne : k ≠ k') (v v' : α) {l : List (Nat × α)} (h : Rising l) :
    cellSet k v (cellSet k' v' l) = cellSet k' v' (cellSet k v l) := by
  refine rising_ext (rising_cellSet _ _ (rising_cellSet _ _ h)) (rising_cellSet _ _ (rising_cellSet _ _ h)) fun j => ?_
  simp only [cellFind_cellSet]
  by_cases h1 : j = k <;> by_cases h2 : j = k' <;> simp_all

theorem length_cellSet_new {k : Nat} (v : α) {l : List (Nat × α)} (h : cellFind k l = none) :
    (cellSet k v l).length = l.length + 1 := by
  induction l with
  | nil => rfl
  | cons e l ih =>
    obtain ⟨j, w⟩ := e
    simp only [cellFind] at h
    split at h
    · simp at h
    · next hj =>
      simp only [cellSet]
      split
      · rfl
      · rw [if_neg (fun h' => hj h'.symm)]
        simp [ih h]

theorem length_cellSet_old {k : Nat} {v' : α} (v : α) {l : List (Nat × α)} (hr : Rising l)
    (h : cellFind k l = some v') : (cellSet k v l).length = l.length := by
  induction l with
  | nil => simp at h
  | cons e l ih =>
    obtain ⟨j, w⟩ := e
    have hl := rising_cons.1 hr
    simp only [cellFind] at h
    simp only [cellSet]
    split at h
    · next hj => subst hj; simp
    · next hj =>
      have hlt := hl.1 _ (cellFind_mem h)
      simp only at hlt
      rw [if_neg (by omega), if_neg (by omega)]
      simp [ih hl.2 h]

theorem length_cellErase {k : Nat} {v : α} {l : List (Nat × α)} (h : cellFind k l = some v) :
    (cellErase k l).length + 1 = l.length := by
  induction l with
  | nil => simp at h
  | cons e l ih =>
    obtain ⟨j, w⟩ := e
    simp only [cellFind] at h
    simp only [cellErase]
    split at h
    · next hj => simp [hj]
    · next hj => rw [if_neg hj]; simp [ih h]

/-- A new entry joins the others. -/
theorem cellSet_perm {k : Nat} (v : α) {l : List (Nat × α)} (h : cellFind k l = none) :
    (cellSet k v l).Perm ((k, v) :: l) := by
  induction l with
  | nil => exact .refl _
  | cons e l ih =>
    obtain ⟨j, w⟩ := e
    simp only [cellFind] at h
    split at h
    · cases h
    · next hne =>
      simp only [cellSet]
      split
      · exact .refl _
      · rw [if_neg (by omega)]
        exact ((ih h).cons _).trans (.swap _ _ _)

/-- An entry taken away leaves the others. -/
theorem cellErase_perm {k : Nat} {v : α} {l : List (Nat × α)} (h : cellFind k l = some v) :
    l.Perm ((k, v) :: cellErase k l) := by
  induction l with
  | nil => simp at h
  | cons e l ih =>
    obtain ⟨j, w⟩ := e
    simp only [cellFind] at h
    simp only [cellErase]
    split at h
    · next he => rw [if_pos he]; injection h with h; rw [he, h]
    · next he =>
      rw [if_neg he]
      exact ((ih h).cons _).trans (.swap _ _ _)

theorem cellErase_sublist (k : Nat) (l : List (Nat × α)) : (cellErase k l).Sublist l := by
  induction l with
  | nil => exact .refl _
  | cons e l ih =>
    obtain ⟨j, w⟩ := e
    simp only [cellErase]
    split
    · exact List.sublist_cons_self _ _
    · exact ih.cons_cons _

/-- Replacing an entry by one with the same image under `f` changes no image. -/
theorem map_cellSet_old {β : Type} (f : α → β) {k : Nat} {v v' : α} {l : List (Nat × α)} (hr : Rising l)
    (h : cellFind k l = some v') (hf : f v = f v') :
    (cellSet k v l).map (fun e => f e.2) = l.map fun e => f e.2 := by
  induction l with
  | nil => simp at h
  | cons e l ih =>
    obtain ⟨j, w⟩ := e
    rw [rising_cons] at hr
    simp only [cellFind] at h
    simp only [cellSet]
    split at h
    · next he =>
      injection h with h
      rw [if_neg (by omega), if_pos he.symm]
      simp [hf, h]
    · next he =>
      have := hr.1 _ (cellFind_mem h)
      rw [if_neg (by simp at this; omega), if_neg (Ne.symm he)]
      simp only [List.map_cons, ih hr.2 h]

end Sys2Proof.Machine
end

