-- ==== Sys2Proof/Laws/Float.lean ====
section
/-!
SUPPORT. What rounding can do: when `roundDiv` and `rndMag` pass a given result, and from that their monotonicity.
-/

namespace Sys2Proof.Machine

/-- R9: the pattern of the value of a pattern is that pattern, also for a NaN. -/
theorem bits32_f32bits (w : Word) : bits32 (f32bits w) = w := by
  apply BitVec.eq_of_toNat_eq
  have hw := w.isLt
  have hm : w.msb = decide (2 ^ 31 ≤ w.toNat) := BitVec.msb_eq_decide w
  unfold f32bits
  split
  · simp only [bits32, signedPattern, hm, BitVec.toNat_ofNat, decide_eq_true_eq]
    split <;> omega
  · split <;> simp only [bits32, signedPattern, hm, BitVec.toNat_ofNat, decide_eq_true_eq] <;> split <;> omega

/-- When a rounded quotient exceeds j: past the midpoint above j, or on it where j is odd. -/
theorem lt_roundDiv_iff {num den j : Nat} (hd : 0 < den) :
    j < roundDiv num den ↔ (2 * j + 1) * den < 2 * num ∨ ((2 * j + 1) * den = 2 * num ∧ j % 2 = 1) := by
  have hm := Nat.mod_lt num hd
  have he := Nat.div_add_mod num den
  generalize hq : num / den = q at *
  generalize hr : num % den = r at *
  have e1 : (2 * j + 1) * den = 2 * (j * den) + den := by ring
  have e2 : 2 * num = 2 * (q * den) + 2 * r := by rw [← he]; ring
  rw [e1, e2]
  unfold roundDiv
  rw [hq, hr]
  rcases Nat.lt_trichotomy j q with h | h | h
  · have : (j + 1) * den ≤ q * den := Nat.mul_le_mul_right _ h
    rw [Nat.add_mul] at this
    split <;> omega
  · subst h; split <;> omega
  · have : (q + 1) * den ≤ j * den := Nat.mul_le_mul_right _ h
    rw [Nat.add_mul] at this
    split <;> omega

theorem roundDiv_le {num den j : Nat} (hd : 0 < den) (h : num ≤ j * den) : roundDiv num den ≤ j := by
  by_contra hc
  rw [not_le, lt_roundDiv_iff hd] at hc
  have : (2 * j + 1) * den = 2 * (j * den) + den := by ring
  omega

theorem le_roundDiv {num den j : Nat} (hd : 0 < den) (h : j * den ≤ num) : j ≤ roundDiv num den := by
  cases j with
  | zero => omega
  | succ j =>
    rw [Nat.succ_le_iff, lt_roundDiv_iff hd]
    have : (2 * j + 1) * den + den = 2 * ((j + 1) * den) := by ring
    omega

/-- The exponent of two by which `rndMag` scales. -/
theorem rndMag_eq (num den : Nat) :
    rndMag num den = roundDiv num (den * 2 ^ (Nat.log2 (num / den) - 23)) + (Nat.log2 (num / den) - 23) * 2 ^ 23 := rfl

/-- The units of a pattern, binade by binade: j in units of 2^k. -/
theorem magUnits_scaled (k j : Nat) (hj : j ≤ 2 ^ 24) (hk : k = 0 ∨ 2 ^ 23 ≤ j) :
    magUnits (j + k * 2 ^ 23) = j * 2 ^ k := by
  unfold magUnits
  by_cases h23 : j < 2 ^ 23
  · have hk0 : k = 0 := by omega
    subst hk0; simp; omega
  · rw [if_neg (by omega)]
    by_cases h24 : j = 2 ^ 24
    · subst h24
      have a : (2 ^ 24 + k * 2 ^ 23) % 2 ^ 23 = 0 := by omega
      have b : (2 ^ 24 + k * 2 ^ 23) / 2 ^ 23 = k + 2 := by omega
      rw [a, b, show k + 2 - 1 = k + 1 by omega, pow_succ]; ring
    · have a : (j + k * 2 ^ 23) % 2 ^ 23 = j - 2 ^ 23 := by omega
      have b : (j + k * 2 ^ 23) / 2 ^ 23 = k + 1 := by omega
      rw [a, b, show 2 ^ 23 + (j - 2 ^ 23) = j by omega, show k + 1 - 1 = k by omega]

/-- Every pattern is some j in units of some 2^k. -/
theorem pattern_scaled (m : Nat) : ∃ k j, m = j + k * 2 ^ 23 ∧ j < 2 ^ 24 ∧ (k = 0 ∨ 2 ^ 23 ≤ j) := by
  by_cases h : m < 2 ^ 24
  · exact ⟨0, m, by omega, h, .inl rfl⟩
  · exact ⟨m / 2 ^ 23 - 1, m % 2 ^ 23 + 2 ^ 23, by omega, by omega, .inr (by omega)⟩

theorem magUnits_lt_succ (m : Nat) : magUnits m < magUnits (m + 1) := by
  obtain ⟨k, j, rfl, hj, hk⟩ := pattern_scaled m
  rw [magUnits_scaled k j (by omega) hk, show j + k * 2 ^ 23 + 1 = (j + 1) + k * 2 ^ 23 by omega,
    magUnits_scaled k (j + 1) (by omega) (by omega)]
  exact Nat.mul_lt_mul_of_pos_right (by omega) (by positivity)

/-- A larger pattern is a larger magnitude. -/
theorem magUnits_strictMono : StrictMono magUnits := strictMono_nat_of_lt_succ magUnits_lt_succ

@[simp] theorem magUnits_zero : magUnits 0 = 0 := rfl

theorem magUnits_one : magUnits 0x3F800000 = 2 ^ 149 := by decide

theorem magUnits_pos {m : Nat} (h : 0 < m) : 0 < magUnits m := by
  have := magUnits_strictMono h; simpa using this

/-- When a rounded magnitude exceeds the pattern m: past the midpoint between m and the next, or on it where m is odd. This
is all that `rndMag` does. -/
theorem lt_rndMag_iff {num den : Nat} (m : Nat) (hd : 0 < den) :
    m < rndMag num den ↔
      (magUnits m + magUnits (m + 1)) * den < 2 * num ∨
        ((magUnits m + magUnits (m + 1)) * den = 2 * num ∧ m % 2 = 1) := by
  rw [rndMag_eq]
  have hlog : (Nat.log2 (num / den) - 23 = 0 ∧ num < 2 ^ 24 * den) ∨
      (2 ^ 23 * 2 ^ (Nat.log2 (num / den) - 23) * den ≤ num ∧
        num < 2 ^ 24 * 2 ^ (Nat.log2 (num / den) - 23) * den) := by
    by_cases hq : num / den = 0
    · left
      rw [hq]
      refine ⟨by decide, ?_⟩
      have := (Nat.div_eq_zero_iff.mp hq).resolve_left (by omega)
      omega
    · have h1 : 2 ^ (num / den).log2 ≤ num / den := Nat.log2_self_le hq
      have h2 : num / den < 2 ^ ((num / den).log2 + 1) := Nat.lt_log2_self
      generalize (num / den).log2 = l at h1 h2 ⊢
      rw [Nat.le_div_iff_mul_le hd] at h1
      rw [Nat.div_lt_iff_lt_mul hd] at h2
      by_cases hl : l ≤ 23
      · left
        refine ⟨by omega, lt_of_lt_of_le h2 (Nat.mul_le_mul_right _ (Nat.pow_le_pow_right (by omega) (by omega)))⟩
      · right
        rw [← pow_add, ← pow_add, show 23 + (l - 23) = l by omega, show 24 + (l - 23) = l + 1 by omega]
        exact ⟨h1, h2⟩
  generalize hk : Nat.log2 (num / den) - 23 = k at hlog ⊢
  have hp : 0 < 2 ^ k := by positivity
  have hD : 0 < den * 2 ^ k := by positivity
  have hub : num < 2 ^ 24 * (den * 2 ^ k) := by
    rcases hlog with ⟨h0, h⟩ | ⟨_, h⟩
    · subst h0; simpa using h
    · calc num < _ := h
        _ = _ := by ring
  have hlb : k = 0 ∨ 2 ^ 23 * (den * 2 ^ k) ≤ num := by
    rcases hlog with ⟨h0, _⟩ | ⟨h, _⟩
    · exact .inl h0
    · right
      calc _ = 2 ^ 23 * 2 ^ k * den := by ring
        _ ≤ num := h
  -- the rounded significand is at most 2^24, and at least 2^23 unless subnormal
  have hn1 : roundDiv num (den * 2 ^ k) ≤ 2 ^ 24 := roundDiv_le hD hub.le
  have hn2 : k = 0 ∨ 2 ^ 23 ≤ roundDiv num (den * 2 ^ k) := hlb.imp_right (le_roundDiv hD)
  by_cases hlow : m < (k + 1) * 2 ^ 23 ∧ k ≠ 0
  · -- below the binade: both sides hold
    obtain ⟨hlow, hk0⟩ := hlow
    refine iff_of_true (by omega) (.inl ?_)
    have hU : magUnits ((k + 1) * 2 ^ 23) = 2 ^ 23 * 2 ^ k := by
      have := magUnits_scaled k (2 ^ 23) (by norm_num) (.inr le_rfl)
      rw [← this]; congr 1; ring
    have h1 : magUnits (m + 1) ≤ 2 ^ 23 * 2 ^ k := by rw [← hU]; exact magUnits_strictMono.monotone (by omega)
    have h2 : magUnits m < magUnits (m + 1) := magUnits_lt_succ m
    have h3 : (magUnits m + magUnits (m + 1)) * den < (2 ^ 23 * 2 ^ k + 2 ^ 23 * 2 ^ k) * den :=
      Nat.mul_lt_mul_of_pos_right (by omega) hd
    have h4 : (2 ^ 23 * 2 ^ k + 2 ^ 23 * 2 ^ k) * den = 2 * (2 ^ 23 * (den * 2 ^ k)) := by ring
    have := hlb.resolve_left hk0
    omega
  · by_cases hhigh : (k + 2) * 2 ^ 23 ≤ m
    · -- above the binade: neither side holds
      refine iff_of_false (by omega) ?_
      have hU : magUnits ((k + 2) * 2 ^ 23) = 2 ^ 24 * 2 ^ k := by
        have := magUnits_scaled k (2 ^ 24) le_rfl (.inr (by norm_num))
        rw [← this]; congr 1; ring
      have h1 : 2 ^ 24 * 2 ^ k ≤ magUnits m := by rw [← hU]; exact magUnits_strictMono.monotone hhigh
      have h2 := magUnits_lt_succ m
      have h3 : (2 ^ 24 * 2 ^ k + 2 ^ 24 * 2 ^ k) * den ≤ (magUnits m + magUnits (m + 1)) * den :=
        Nat.mul_le_mul_right _ (by omega)
      have h4 : (2 ^ 24 * 2 ^ k + 2 ^ 24 * 2 ^ k) * den = 2 * (2 ^ 24 * (den * 2 ^ k)) := by ring
      omega
    · -- in the binade
      obtain ⟨j, rfl⟩ : ∃ j, m = j + k * 2 ^ 23 := ⟨m - k * 2 ^ 23, by
        rcases Nat.eq_zero_or_pos k with h | h <;> omega⟩
      rw [magUnits_scaled k j (by omega) (by omega), show j + k * 2 ^ 23 + 1 = (j + 1) + k * 2 ^ 23 by omega,
        magUnits_scaled k (j + 1) (by omega) (by omega),
        show (j * 2 ^ k + (j + 1) * 2 ^ k) * den = (2 * j + 1) * (den * 2 ^ k) by ring,
        Nat.add_lt_add_iff_right, lt_roundDiv_iff hD, show (j + k * 2 ^ 23) % 2 = j % 2 by omega]

/-- A value of at most a pattern's rounds to at most that pattern. -/
theorem rndMag_le {num den m : Nat} (hd : 0 < den) (h : num ≤ magUnits m * den) : rndMag num den ≤ m := by
  by_contra hc
  rw [not_le, lt_rndMag_iff m hd] at hc
  have h1 : magUnits m * den < magUnits (m + 1) * den := Nat.mul_lt_mul_of_pos_right (magUnits_lt_succ m) hd
  rw [Nat.add_mul] at hc
  omega

/-- A value of at least a pattern's rounds to at least that pattern. -/
theorem le_rndMag {num den m : Nat} (hd : 0 < den) (h : magUnits m * den ≤ num) : m ≤ rndMag num den := by
  cases m with
  | zero => omega
  | succ m =>
    rw [Nat.succ_le_iff, lt_rndMag_iff m hd]
    have h1 : magUnits m * den < magUnits (m + 1) * den := Nat.mul_lt_mul_of_pos_right (magUnits_lt_succ m) hd
    rw [Nat.add_mul]
    omega

/-- A representable value is kept. -/
theorem rndMag_exact {den : Nat} (m : Nat) (hd : 0 < den) : rndMag (magUnits m * den) den = m :=
  le_antisymm (rndMag_le hd le_rfl) (le_rndMag hd le_rfl)

/-- Rounding keeps the order of quotients. -/
theorem rndMag_mono {num den num' den' : Nat} (hd : 0 < den) (hd' : 0 < den') (h : num * den' ≤ num' * den) :
    rndMag num den ≤ rndMag num' den' := by
  by_contra hc
  rw [not_le] at hc
  have h1 := (lt_rndMag_iff _ hd).mp hc
  have h2 : ¬ rndMag num' den' < rndMag num' den' := lt_irrefl _
  rw [lt_rndMag_iff _ hd'] at h2
  generalize rndMag num' den' = m at h1 h2
  generalize magUnits m + magUnits (m + 1) = a at h1 h2
  rw [not_or, not_lt] at h2
  have h3 : a * den * den' ≤ 2 * num * den' := Nat.mul_le_mul_right _ (by omega)
  have h4 : 2 * num' * den ≤ a * den' * den := Nat.mul_le_mul_right _ h2.1
  have e1 : a * den * den' = a * den' * den := by ring
  have e2 : 2 * num * den' = 2 * (num * den') := by ring
  have e3 : 2 * num' * den = 2 * (num' * den) := by ring
  have h5 : 2 * num * den' = 2 * num' * den := by omega
  rcases h1 with h1 | ⟨h1, hm⟩
  · have : a * den * den' < 2 * num * den' := Nat.mul_lt_mul_of_pos_right h1 hd'
    omega
  · apply h2.2
    refine ⟨?_, hm⟩
    have : a * den' * den = 2 * num' * den := by rw [← h5, ← h1]; ring
    exact Nat.eq_of_mul_eq_mul_right hd this

/-- Zero rounds to zero. -/
@[simp] theorem rndMag_zero (den : Nat) : rndMag 0 den = 0 := by
  simp [rndMag, roundDiv, Nat.log2]

theorem ofMag_of_lt {m : Nat} (neg : Bool) (h : m < 0x7F800000) : ofMag neg m = .fin neg ⟨m, h⟩ := dif_pos h

theorem ofMag_of_ge {m : Nat} (neg : Bool) (h : ¬ m < 0x7F800000) : ofMag neg m = .inf neg := dif_neg h

/-- The sum of two values that are not negative. -/
theorem fadd_pos (m n : Fin 0x7F800000) :
    fadd (.fin false m) (.fin false n) = ofMag false (rndMag (magUnits m.val + magUnits n.val) 1) := by
  simp only [fadd, signedUnits, Bool.false_eq_true, if_false, Bool.and_false]
  split
  · next h =>
    have : magUnits m.val + magUnits n.val = 0 := by omega
    rw [this, rndMag_zero]
  · next h =>
    have h1 : ¬ ((magUnits m.val : Int) + magUnits n.val < 0) := by omega
    have h2 : ((magUnits m.val : Int) + magUnits n.val).natAbs = magUnits m.val + magUnits n.val := by omega
    rw [h2]; simp only [h1, decide_false, rnd32]

/-- The product of two values that are not negative. -/
theorem fmul_pos (m n : Fin 0x7F800000) :
    fmul (.fin false m) (.fin false n) = ofMag false (rndMag (magUnits m.val * magUnits n.val) (2 ^ 149)) := rfl

/-- A finite value over a positive one. -/
theorem fdiv_fin (s t : Bool) (m n : Fin 0x7F800000) (h : n.val ≠ 0) :
    fdiv (.fin s m) (.fin t n) = ofMag (s != t) (rndMag (magUnits m.val * 2 ^ 149) (magUnits n.val)) := by
  simp only [fdiv, if_neg h, rnd32]

theorem intToF32_eq (n : Int) : intToF32 n = ofMag (decide (n < 0)) (rndMag (n.natAbs * 2 ^ 149) 1) := rfl

end Sys2Proof.Machine
end

