-- ==== Sys2Proof/Laws/Memory.lean ====
section
/-!
SUPPORT. The data space: a read after a write gives the value written, a write leaves every other byte alone, and every
memory operation keeps the canonical form.
-/

namespace Sys2Proof.Machine

theorem wf_nil : Memory.wf [] := by simp [Memory.wf, Rising]

/-! ### One byte -/

theorem storedByte_writeByte (a a' : Nat) (v : Byte) (m : Memory) (h : a < dataSpaceSize) :
    storedByte (writeByte a v m) a' = if a' = a then some v else storedByte m a' := by
  simp only [storedByte, writeByte, if_pos h]
  exact cellFind_cellSet a a' v m

theorem writeByte_outside {a : Nat} (h : ¬ a < dataSpaceSize) (v : Byte) (m : Memory) : writeByte a v m = m := by
  simp [writeByte, h]

theorem readByte_writeByte_same {a : Nat} (h : a < dataSpaceSize) (v : Byte) (m : Memory) :
    readByte (writeByte a v m) a = v := by
  simp [readByte, storedByte_writeByte _ _ _ _ h]

theorem storedByte_writeByte_ne {a a' : Nat} (hne : a' ≠ a) (v : Byte) (m : Memory) :
    storedByte (writeByte a v m) a' = storedByte m a' := by
  by_cases h : a < dataSpaceSize
  · simp [storedByte_writeByte _ _ _ _ h, hne]
  · rw [writeByte_outside h]

theorem readByte_writeByte_ne {a a' : Nat} (hne : a' ≠ a) (v : Byte) (m : Memory) :
    readByte (writeByte a v m) a' = readByte m a' := by
  simp [readByte, storedByte_writeByte_ne hne]

theorem writeByte_wf (a : Nat) (v : Byte) {m : Memory} (h : Memory.wf m) : Memory.wf (writeByte a v m) := by
  by_cases ha : a < dataSpaceSize
  · simp only [writeByte, if_pos ha]
    refine ⟨rising_cellSet _ _ h.1, fun e he => ?_⟩
    rcases mem_cellSet he with rfl | he
    · exact ha
    · exact h.2 e he
  · rwa [writeByte_outside ha]

/-! ### Runs of bytes -/

theorem writeBytes_wf (vs : List Byte) : ∀ (a : Nat) {m : Memory}, Memory.wf m → Memory.wf (writeBytes a vs m) := by
  induction vs with
  | nil => intro a m h; exact h
  | cons v vs ih => intro a m h; exact ih _ (writeByte_wf _ _ h)

theorem readByte_writeBytes_out (vs : List Byte) : ∀ (a : Nat) (m : Memory) {a' : Nat},
    (a' < a ∨ a + vs.length ≤ a') → readByte (writeBytes a vs m) a' = readByte m a' := by
  induction vs with
  | nil => intro a m a' _; rfl
  | cons v vs ih =>
    intro a m a' h
    simp only [List.length_cons] at h
    rw [writeBytes, ih _ _ (by omega), readByte_writeByte_ne (by omega)]

theorem readByte_writeBytes_in (vs : List Byte) : ∀ (a : Nat) (m : Memory) (k : Nat) (hk : k < vs.length),
    a + vs.length ≤ dataSpaceSize → readByte (writeBytes a vs m) (a + k) = vs[k] := by
  induction vs with
  | nil => intro a m k hk; simp at hk
  | cons v vs ih =>
    intro a m k hk h
    simp only [List.length_cons] at h hk
    rw [writeBytes]
    cases k with
    | zero =>
      rw [readByte_writeBytes_out _ _ _ (by omega)]
      exact readByte_writeByte_same (by omega) _ _
    | succ k =>
      have := ih (a + 1) (writeByte a v m) k (by omega) (by omega)
      rw [show a + (k + 1) = a + 1 + k by omega, this]
      rfl

theorem fillBytes_wf (f : Nat → Byte) (base : Nat) : ∀ (len : Nat) {m : Memory}, Memory.wf m →
    Memory.wf (fillBytes f base len m) := by
  intro len
  induction len with
  | zero => intro m h; exact h
  | succ len ih => intro m h; exact writeByte_wf _ _ (ih h)

theorem readByte_fillBytes_out (f : Nat → Byte) (base : Nat) : ∀ (len : Nat) (m : Memory) {a : Nat},
    (a < base ∨ base + len ≤ a) → readByte (fillBytes f base len m) a = readByte m a := by
  intro len
  induction len with
  | zero => intro m a _; rfl
  | succ len ih =>
    intro m a h
    rw [fillBytes, readByte_writeByte_ne (by omega), ih _ (by omega)]

theorem readByte_fillBytes_in (f : Nat → Byte) (base : Nat) : ∀ (len : Nat) (m : Memory) {a : Nat},
    base ≤ a → a < base + len → a < dataSpaceSize → readByte (fillBytes f base len m) a = f a := by
  intro len
  induction len with
  | zero => intro m a h1 h2; omega
  | succ len ih =>
    intro m a h1 h2 h3
    rw [fillBytes]
    by_cases h : a = base + len
    · subst h; exact readByte_writeByte_same h3 _ _
    · rw [readByte_writeByte_ne h]; exact ih m h1 (by omega) h3

/-! ### Words -/

theorem writeWord_wf (a : Nat) (v : Word) {m : Memory} (h : Memory.wf m) : Memory.wf (writeWord a v m) :=
  writeBytes_wf _ _ h

theorem readByte_writeWord_out {a a' : Nat} (v : Word) (m : Memory) (h : a' < a ∨ a + 4 ≤ a') :
    readByte (writeWord a v m) a' = readByte m a' :=
  readByte_writeBytes_out _ _ _ (by simpa [wordBytes] using h)

/-- A word's bytes put back together are the word. -/
theorem word_of_bytes (v : Word) :
    v.extractLsb' 24 8 ++ v.extractLsb' 16 8 ++ v.extractLsb' 8 8 ++ v.extractLsb' 0 8 = v := by
  apply BitVec.eq_of_getLsbD_eq
  intro i hi
  simp only [BitVec.getLsbD_append, BitVec.getLsbD_extractLsb']
  have : i < 32 := hi
  by_cases h1 : i < 8
  · simp [h1]
  · by_cases h2 : i - 8 < 8
    · simp [h1, h2]; congr 1; omega
    · by_cases h3 : i - 8 - 8 < 8
      · simp [h1, h2, h3]; congr 1; omega
      · have h4 : i - 8 - 8 - 8 < 8 := by omega
        simp [h1, h2, h3, h4]; congr 1; omega

theorem readWord_writeWord_same {a : Nat} (h : a + 4 ≤ dataSpaceSize) (v : Word) (m : Memory) :
    readWord (writeWord a v m) a = v := by
  have hb : ∀ k (hk : k < 4), readByte (writeWord a v m) (a + k) = (wordBytes v)[k]'(by simpa [wordBytes] using hk) :=
    fun k hk => readByte_writeBytes_in (wordBytes v) a m k (by simpa [wordBytes] using hk) (by simpa [wordBytes] using h)
  have h0 := hb 0 (by omega)
  have h1 := hb 1 (by omega)
  have h2 := hb 2 (by omega)
  have h3 := hb 3 (by omega)
  simp only [Nat.add_zero] at h0
  rw [readWord, h0, h1, h2, h3]
  exact word_of_bytes v

/-- A word depends on its four bytes alone. -/
theorem readWord_congr {m m' : Memory} {a : Nat} (h : ∀ a', a ≤ a' → a' < a + 4 → readByte m a' = readByte m' a') :
    readWord m a = readWord m' a := by
  rw [readWord, readWord, h a (by omega) (by omega), h (a + 1) (by omega) (by omega), h (a + 2) (by omega) (by omega),
    h (a + 3) (by omega) (by omega)]

theorem readWord_writeWord_out {a a' : Nat} (v : Word) (m : Memory) (h : a' + 4 ≤ a ∨ a + 4 ≤ a') :
    readWord (writeWord a v m) a' = readWord m a' :=
  readWord_congr fun b h1 h2 => readByte_writeWord_out v m (by omega)

/-! ### Bus accesses -/

/-- Everything a MemRead can come to. -/
theorem memRead_cases (P : Params) (m : Memory) (a : Nat) :
    (memRead P m a = .outside ∧ dataSpaceSize < a + 4) ∨
      (memRead P m a = .busFault ∧ a + 4 ≤ dataSpaceSize ∧ P.busFault a .read = true) ∨
      (memRead P m a = .ok (readWord m a) ∧ a + 4 ≤ dataSpaceSize ∧ P.busFault a .read = false) := by
  unfold memRead
  by_cases h : dataSpaceSize < a + 4
  · simp [h]
  · cases hb : P.busFault a .read <;> simp [h, not_lt.1 h]

/-- Everything a MemWrite can come to. -/
theorem memWrite_cases (P : Params) (m : Memory) (a : Nat) (v : Word) :
    (memWrite P m a v = .outside ∧ dataSpaceSize < a + 4) ∨
      (memWrite P m a v = .busFault ∧ a + 4 ≤ dataSpaceSize ∧ P.busFault a .write = true) ∨
      (memWrite P m a v = .ok (writeWord a v m) ∧ a + 4 ≤ dataSpaceSize ∧ P.busFault a .write = false) := by
  unfold memWrite
  by_cases h : dataSpaceSize < a + 4
  · simp [h]
  · cases hb : P.busFault a .write <;> simp [h, not_lt.1 h]

end Sys2Proof.Machine
end

