-- ==== Sys2Proof/Laws/State.lean ====
section
/-!
SUPPORT. What each named update of the state does to each field: one lemma a field, so that no proof unfolds a record
update.
-/

namespace Sys2Proof.Machine

@[simp] theorem respondOk_regs (s : State) : (respondOk s).regs = s.regs := rfl
@[simp] theorem respondOk_phase (s : State) : (respondOk s).phase = s.phase := rfl
@[simp] theorem respondOk_ecode (s : State) : (respondOk s).ecode = s.ecode := rfl
@[simp] theorem respondOk_errAddr (s : State) : (respondOk s).errAddr = s.errAddr := rfl
@[simp] theorem respondOk_job (s : State) : (respondOk s).job = s.job := rfl
@[simp] theorem respondOk_ctxs (s : State) : (respondOk s).ctxs = s.ctxs := rfl
@[simp] theorem respondOk_mem (s : State) : (respondOk s).mem = s.mem := rfl
@[simp] theorem respondOk_breach (s : State) : (respondOk s).breach = s.breach := rfl
@[simp] theorem respondOk_unread (s : State) : (respondOk s).unread = s.unread := rfl
@[simp] theorem respondOk_unordered (s : State) : (respondOk s).unordered = s.unordered := rfl
@[simp] theorem respondOk_resp (s : State) : (respondOk s).resp = .ok := rfl
@[simp] theorem respondOk_host (s : State) : (respondOk s).host = s.host := rfl
@[simp] theorem respondOk_turns (s : State) : (respondOk s).turns = s.turns := rfl
@[simp] theorem respondOk_draws (s : State) : (respondOk s).draws = s.draws := rfl

@[simp] theorem respondData_regs (v : Word) (s : State) : (respondData v s).regs = s.regs := rfl
@[simp] theorem respondData_phase (v : Word) (s : State) : (respondData v s).phase = s.phase := rfl
@[simp] theorem respondData_ecode (v : Word) (s : State) : (respondData v s).ecode = s.ecode := rfl
@[simp] theorem respondData_errAddr (v : Word) (s : State) : (respondData v s).errAddr = s.errAddr := rfl
@[simp] theorem respondData_job (v : Word) (s : State) : (respondData v s).job = s.job := rfl
@[simp] theorem respondData_ctxs (v : Word) (s : State) : (respondData v s).ctxs = s.ctxs := rfl
@[simp] theorem respondData_mem (v : Word) (s : State) : (respondData v s).mem = s.mem := rfl
@[simp] theorem respondData_breach (v : Word) (s : State) : (respondData v s).breach = s.breach := rfl
@[simp] theorem respondData_unread (v : Word) (s : State) : (respondData v s).unread = s.unread := rfl
@[simp] theorem respondData_unordered (v : Word) (s : State) : (respondData v s).unordered = s.unordered := rfl
@[simp] theorem respondData_resp (v : Word) (s : State) : (respondData v s).resp = .data v := rfl
@[simp] theorem respondData_host (v : Word) (s : State) : (respondData v s).host = { s.host with lastRd := v } := rfl
@[simp] theorem respondData_turns (v : Word) (s : State) : (respondData v s).turns = s.turns := rfl
@[simp] theorem respondData_draws (v : Word) (s : State) : (respondData v s).draws = s.draws := rfl

@[simp] theorem respondSlverr_regs (s : State) : (respondSlverr s).regs = s.regs := rfl
@[simp] theorem respondSlverr_phase (s : State) : (respondSlverr s).phase = s.phase := rfl
@[simp] theorem respondSlverr_ecode (s : State) : (respondSlverr s).ecode = s.ecode := rfl
@[simp] theorem respondSlverr_errAddr (s : State) : (respondSlverr s).errAddr = s.errAddr := rfl
@[simp] theorem respondSlverr_job (s : State) : (respondSlverr s).job = s.job := rfl
@[simp] theorem respondSlverr_ctxs (s : State) : (respondSlverr s).ctxs = s.ctxs := rfl
@[simp] theorem respondSlverr_mem (s : State) : (respondSlverr s).mem = s.mem := rfl
@[simp] theorem respondSlverr_breach (s : State) : (respondSlverr s).breach = s.breach := rfl
@[simp] theorem respondSlverr_unread (s : State) : (respondSlverr s).unread = s.unread := rfl
@[simp] theorem respondSlverr_unordered (s : State) : (respondSlverr s).unordered = s.unordered := rfl
@[simp] theorem respondSlverr_resp (s : State) : (respondSlverr s).resp = .slverr := rfl
@[simp] theorem respondSlverr_host (s : State) : (respondSlverr s).host = s.host := rfl
@[simp] theorem respondSlverr_turns (s : State) : (respondSlverr s).turns = s.turns := rfl
@[simp] theorem respondSlverr_draws (s : State) : (respondSlverr s).draws = s.draws := rfl

@[simp] theorem dropJob_regs (s : State) : (dropJob s).regs = s.regs := rfl
@[simp] theorem dropJob_phase (s : State) : (dropJob s).phase = s.phase := rfl
@[simp] theorem dropJob_ecode (s : State) : (dropJob s).ecode = s.ecode := rfl
@[simp] theorem dropJob_errAddr (s : State) : (dropJob s).errAddr = s.errAddr := rfl
@[simp] theorem dropJob_job (s : State) : (dropJob s).job = { s.job with todo := [], pending := 0 } := rfl
@[simp] theorem dropJob_ctxs (s : State) : (dropJob s).ctxs = [] := rfl
@[simp] theorem dropJob_mem (s : State) : (dropJob s).mem = s.mem := rfl
@[simp] theorem dropJob_breach (s : State) : (dropJob s).breach = s.breach := rfl
@[simp] theorem dropJob_unread (s : State) : (dropJob s).unread = s.unread := rfl
@[simp] theorem dropJob_unordered (s : State) : (dropJob s).unordered = s.unordered := rfl
@[simp] theorem dropJob_resp (s : State) : (dropJob s).resp = s.resp := rfl
@[simp] theorem dropJob_host (s : State) : (dropJob s).host = s.host := rfl
@[simp] theorem dropJob_turns (s : State) : (dropJob s).turns = s.turns := rfl
@[simp] theorem dropJob_draws (s : State) : (dropJob s).draws = s.draws := rfl

@[simp] theorem raiseError_regs (code : ECode) (addr : Word) (s : State) : (raiseError code addr s).regs = s.regs := rfl
@[simp] theorem raiseError_phase (code : ECode) (addr : Word) (s : State) : (raiseError code addr s).phase = .error := rfl
@[simp] theorem raiseError_ecode (code : ECode) (addr : Word) (s : State) : (raiseError code addr s).ecode = code := rfl
@[simp] theorem raiseError_errAddr (code : ECode) (addr : Word) (s : State) : (raiseError code addr s).errAddr = addr := rfl
@[simp] theorem raiseError_job (code : ECode) (addr : Word) (s : State) : (raiseError code addr s).job = { s.job with todo := [], pending := 0 } := rfl
@[simp] theorem raiseError_ctxs (code : ECode) (addr : Word) (s : State) : (raiseError code addr s).ctxs = [] := rfl
@[simp] theorem raiseError_mem (code : ECode) (addr : Word) (s : State) : (raiseError code addr s).mem = s.mem := rfl
@[simp] theorem raiseError_breach (code : ECode) (addr : Word) (s : State) : (raiseError code addr s).breach = s.breach := rfl
@[simp] theorem raiseError_unread (code : ECode) (addr : Word) (s : State) : (raiseError code addr s).unread = s.unread := rfl
@[simp] theorem raiseError_unordered (code : ECode) (addr : Word) (s : State) : (raiseError code addr s).unordered = s.unordered := rfl
@[simp] theorem raiseError_resp (code : ECode) (addr : Word) (s : State) : (raiseError code addr s).resp = s.resp := rfl
@[simp] theorem raiseError_host (code : ECode) (addr : Word) (s : State) : (raiseError code addr s).host = s.host := rfl
@[simp] theorem raiseError_turns (code : ECode) (addr : Word) (s : State) : (raiseError code addr s).turns = s.turns := rfl
@[simp] theorem raiseError_draws (code : ECode) (addr : Word) (s : State) : (raiseError code addr s).draws = s.draws := rfl

@[simp] theorem clearStatus_regs (s : State) : (clearStatus s).regs = s.regs := rfl
@[simp] theorem clearStatus_phase (s : State) : (clearStatus s).phase = .idle := rfl
@[simp] theorem clearStatus_ecode (s : State) : (clearStatus s).ecode = .noError := rfl
@[simp] theorem clearStatus_errAddr (s : State) : (clearStatus s).errAddr = 0 := rfl
@[simp] theorem clearStatus_job (s : State) : (clearStatus s).job = s.job := rfl
@[simp] theorem clearStatus_ctxs (s : State) : (clearStatus s).ctxs = s.ctxs := rfl
@[simp] theorem clearStatus_mem (s : State) : (clearStatus s).mem = s.mem := rfl
@[simp] theorem clearStatus_breach (s : State) : (clearStatus s).breach = s.breach := rfl
@[simp] theorem clearStatus_unread (s : State) : (clearStatus s).unread = s.unread := rfl
@[simp] theorem clearStatus_unordered (s : State) : (clearStatus s).unordered = s.unordered := rfl
@[simp] theorem clearStatus_resp (s : State) : (clearStatus s).resp = s.resp := rfl
@[simp] theorem clearStatus_host (s : State) : (clearStatus s).host = s.host := rfl
@[simp] theorem clearStatus_turns (s : State) : (clearStatus s).turns = s.turns := rfl
@[simp] theorem clearStatus_draws (s : State) : (clearStatus s).draws = s.draws := rfl

@[simp] theorem havoc_regs (region : Region) (s : State) : (havoc region s).regs = s.regs := rfl
@[simp] theorem havoc_phase (region : Region) (s : State) : (havoc region s).phase = s.phase := rfl
@[simp] theorem havoc_ecode (region : Region) (s : State) : (havoc region s).ecode = s.ecode := rfl
@[simp] theorem havoc_errAddr (region : Region) (s : State) : (havoc region s).errAddr = s.errAddr := rfl
@[simp] theorem havoc_job (region : Region) (s : State) : (havoc region s).job = s.job := rfl
@[simp] theorem havoc_ctxs (region : Region) (s : State) : (havoc region s).ctxs = s.ctxs := rfl
@[simp] theorem havoc_breach (region : Region) (s : State) : (havoc region s).breach = s.breach := rfl
@[simp] theorem havoc_unread (region : Region) (s : State) : (havoc region s).unread = s.unread := rfl
@[simp] theorem havoc_unordered (region : Region) (s : State) : (havoc region s).unordered = s.unordered := rfl
@[simp] theorem havoc_resp (region : Region) (s : State) : (havoc region s).resp = s.resp := rfl
@[simp] theorem havoc_host (region : Region) (s : State) : (havoc region s).host = s.host := rfl
@[simp] theorem havoc_turns (region : Region) (s : State) : (havoc region s).turns = s.turns := rfl
@[simp] theorem havoc_draws (region : Region) (s : State) : (havoc region s).draws = s.draws + region.len := rfl

@[simp] theorem havocOutput_regs (s : State) : (havocOutput s).regs = s.regs := rfl
@[simp] theorem havocOutput_phase (s : State) : (havocOutput s).phase = s.phase := rfl
@[simp] theorem havocOutput_ecode (s : State) : (havocOutput s).ecode = s.ecode := rfl
@[simp] theorem havocOutput_errAddr (s : State) : (havocOutput s).errAddr = s.errAddr := rfl
@[simp] theorem havocOutput_job (s : State) : (havocOutput s).job = s.job := rfl
@[simp] theorem havocOutput_ctxs (s : State) : (havocOutput s).ctxs = s.ctxs := rfl
@[simp] theorem havocOutput_breach (s : State) : (havocOutput s).breach = s.breach := rfl
@[simp] theorem havocOutput_unread (s : State) : (havocOutput s).unread = s.unread := rfl
@[simp] theorem havocOutput_unordered (s : State) : (havocOutput s).unordered = s.unordered := rfl
@[simp] theorem havocOutput_resp (s : State) : (havocOutput s).resp = s.resp := rfl
@[simp] theorem havocOutput_host (s : State) : (havocOutput s).host = s.host := rfl
@[simp] theorem havocOutput_turns (s : State) : (havocOutput s).turns = s.turns := rfl
@[simp] theorem havocOutput_draws (s : State) : (havocOutput s).draws = s.draws + imageBytes s.job.w s.job.h := rfl

@[simp] theorem putCtx_regs (k : Nat) (c : Ctx) (s : State) : (putCtx k c s).regs = s.regs := rfl
@[simp] theorem putCtx_phase (k : Nat) (c : Ctx) (s : State) : (putCtx k c s).phase = s.phase := rfl
@[simp] theorem putCtx_ecode (k : Nat) (c : Ctx) (s : State) : (putCtx k c s).ecode = s.ecode := rfl
@[simp] theorem putCtx_errAddr (k : Nat) (c : Ctx) (s : State) : (putCtx k c s).errAddr = s.errAddr := rfl
@[simp] theorem putCtx_job (k : Nat) (c : Ctx) (s : State) : (putCtx k c s).job = s.job := rfl
@[simp] theorem putCtx_ctxs (k : Nat) (c : Ctx) (s : State) : (putCtx k c s).ctxs = cellSet k c s.ctxs := rfl
@[simp] theorem putCtx_mem (k : Nat) (c : Ctx) (s : State) : (putCtx k c s).mem = s.mem := rfl
@[simp] theorem putCtx_breach (k : Nat) (c : Ctx) (s : State) : (putCtx k c s).breach = s.breach := rfl
@[simp] theorem putCtx_unread (k : Nat) (c : Ctx) (s : State) : (putCtx k c s).unread = s.unread := rfl
@[simp] theorem putCtx_unordered (k : Nat) (c : Ctx) (s : State) : (putCtx k c s).unordered = s.unordered := rfl
@[simp] theorem putCtx_resp (k : Nat) (c : Ctx) (s : State) : (putCtx k c s).resp = s.resp := rfl
@[simp] theorem putCtx_host (k : Nat) (c : Ctx) (s : State) : (putCtx k c s).host = s.host := rfl
@[simp] theorem putCtx_turns (k : Nat) (c : Ctx) (s : State) : (putCtx k c s).turns = s.turns := rfl
@[simp] theorem putCtx_draws (k : Nat) (c : Ctx) (s : State) : (putCtx k c s).draws = s.draws := rfl

@[simp] theorem accumulate_regs (P : Params) (k : Nat) (c : Ctx) (word : Word) (s : State) : (accumulate P k c word s).regs = s.regs := rfl
@[simp] theorem accumulate_phase (P : Params) (k : Nat) (c : Ctx) (word : Word) (s : State) : (accumulate P k c word s).phase = s.phase := rfl
@[simp] theorem accumulate_ecode (P : Params) (k : Nat) (c : Ctx) (word : Word) (s : State) : (accumulate P k c word s).ecode = s.ecode := rfl
@[simp] theorem accumulate_errAddr (P : Params) (k : Nat) (c : Ctx) (word : Word) (s : State) : (accumulate P k c word s).errAddr = s.errAddr := rfl
@[simp] theorem accumulate_job (P : Params) (k : Nat) (c : Ctx) (word : Word) (s : State) : (accumulate P k c word s).job = s.job := rfl
@[simp] theorem accumulate_ctxs (P : Params) (k : Nat) (c : Ctx) (word : Word) (s : State) :
    (accumulate P k c word s).ctxs = cellSet k (advance s.job.r
      { c with acc := accAdd (weight P.expF32 s.job.d c.oi c.oj) (unpackPixel word) c.acc }) s.ctxs := rfl
@[simp] theorem accumulate_mem (P : Params) (k : Nat) (c : Ctx) (word : Word) (s : State) : (accumulate P k c word s).mem = s.mem := rfl
@[simp] theorem accumulate_breach (P : Params) (k : Nat) (c : Ctx) (word : Word) (s : State) : (accumulate P k c word s).breach = s.breach := rfl
@[simp] theorem accumulate_unread (P : Params) (k : Nat) (c : Ctx) (word : Word) (s : State) : (accumulate P k c word s).unread = s.unread := rfl
@[simp] theorem accumulate_unordered (P : Params) (k : Nat) (c : Ctx) (word : Word) (s : State) : (accumulate P k c word s).unordered = s.unordered := rfl
@[simp] theorem accumulate_resp (P : Params) (k : Nat) (c : Ctx) (word : Word) (s : State) : (accumulate P k c word s).resp = s.resp := rfl
@[simp] theorem accumulate_host (P : Params) (k : Nat) (c : Ctx) (word : Word) (s : State) : (accumulate P k c word s).host = s.host := rfl
@[simp] theorem accumulate_turns (P : Params) (k : Nat) (c : Ctx) (word : Word) (s : State) : (accumulate P k c word s).turns = s.turns := rfl
@[simp] theorem accumulate_draws (P : Params) (k : Nat) (c : Ctx) (word : Word) (s : State) : (accumulate P k c word s).draws = s.draws := rfl

@[simp] theorem hostGoto_regs (place : Nat) (s : State) : (hostGoto place s).regs = s.regs := rfl
@[simp] theorem hostGoto_phase (place : Nat) (s : State) : (hostGoto place s).phase = s.phase := rfl
@[simp] theorem hostGoto_ecode (place : Nat) (s : State) : (hostGoto place s).ecode = s.ecode := rfl
@[simp] theorem hostGoto_errAddr (place : Nat) (s : State) : (hostGoto place s).errAddr = s.errAddr := rfl
@[simp] theorem hostGoto_job (place : Nat) (s : State) : (hostGoto place s).job = s.job := rfl
@[simp] theorem hostGoto_ctxs (place : Nat) (s : State) : (hostGoto place s).ctxs = s.ctxs := rfl
@[simp] theorem hostGoto_mem (place : Nat) (s : State) : (hostGoto place s).mem = s.mem := rfl
@[simp] theorem hostGoto_breach (place : Nat) (s : State) : (hostGoto place s).breach = s.breach := rfl
@[simp] theorem hostGoto_unread (place : Nat) (s : State) : (hostGoto place s).unread = s.unread := rfl
@[simp] theorem hostGoto_unordered (place : Nat) (s : State) : (hostGoto place s).unordered = s.unordered := rfl
@[simp] theorem hostGoto_resp (place : Nat) (s : State) : (hostGoto place s).resp = s.resp := rfl
@[simp] theorem hostGoto_host (place : Nat) (s : State) : (hostGoto place s).host = { s.host with pc := place } := rfl
@[simp] theorem hostGoto_turns (place : Nat) (s : State) : (hostGoto place s).turns = s.turns := rfl
@[simp] theorem hostGoto_draws (place : Nat) (s : State) : (hostGoto place s).draws = s.draws := rfl

@[simp] theorem writeParam_regs (p : Param) (v : Word) (s : State) : (writeParam p v s).regs = if s.phase = .busy then s.regs else setParam p v s.regs := by unfold writeParam; split <;> rfl
@[simp] theorem writeParam_phase (p : Param) (v : Word) (s : State) : (writeParam p v s).phase = s.phase := by unfold writeParam; split <;> rfl
@[simp] theorem writeParam_ecode (p : Param) (v : Word) (s : State) : (writeParam p v s).ecode = s.ecode := by unfold writeParam; split <;> rfl
@[simp] theorem writeParam_errAddr (p : Param) (v : Word) (s : State) : (writeParam p v s).errAddr = s.errAddr := by unfold writeParam; split <;> rfl
@[simp] theorem writeParam_job (p : Param) (v : Word) (s : State) : (writeParam p v s).job = s.job := by unfold writeParam; split <;> rfl
@[simp] theorem writeParam_ctxs (p : Param) (v : Word) (s : State) : (writeParam p v s).ctxs = s.ctxs := by unfold writeParam; split <;> rfl
@[simp] theorem writeParam_mem (p : Param) (v : Word) (s : State) : (writeParam p v s).mem = s.mem := by unfold writeParam; split <;> rfl
@[simp] theorem writeParam_breach (p : Param) (v : Word) (s : State) : (writeParam p v s).breach = s.breach := by unfold writeParam; split <;> rfl
@[simp] theorem writeParam_unread (p : Param) (v : Word) (s : State) : (writeParam p v s).unread = s.unread := by unfold writeParam; split <;> rfl
@[simp] theorem writeParam_unordered (p : Param) (v : Word) (s : State) : (writeParam p v s).unordered = s.unordered := by unfold writeParam; split <;> rfl
@[simp] theorem writeParam_resp (p : Param) (v : Word) (s : State) : (writeParam p v s).resp = s.resp := by unfold writeParam; split <;> rfl
@[simp] theorem writeParam_host (p : Param) (v : Word) (s : State) : (writeParam p v s).host = s.host := by unfold writeParam; split <;> rfl
@[simp] theorem writeParam_turns (p : Param) (v : Word) (s : State) : (writeParam p v s).turns = s.turns := by unfold writeParam; split <;> rfl
@[simp] theorem writeParam_draws (p : Param) (v : Word) (s : State) : (writeParam p v s).draws = s.draws := by unfold writeParam; split <;> rfl

@[simp] theorem ackStatus_regs (s : State) : (ackStatus s).regs = s.regs := by unfold ackStatus; split <;> rfl
@[simp] theorem ackStatus_phase (s : State) : (ackStatus s).phase = s.phase := by unfold ackStatus; split <;> rfl
@[simp] theorem ackStatus_ecode (s : State) : (ackStatus s).ecode = s.ecode := by unfold ackStatus; split <;> rfl
@[simp] theorem ackStatus_errAddr (s : State) : (ackStatus s).errAddr = s.errAddr := by unfold ackStatus; split <;> rfl
@[simp] theorem ackStatus_job (s : State) : (ackStatus s).job = s.job := by unfold ackStatus; split <;> rfl
@[simp] theorem ackStatus_ctxs (s : State) : (ackStatus s).ctxs = s.ctxs := by unfold ackStatus; split <;> rfl
@[simp] theorem ackStatus_mem (s : State) : (ackStatus s).mem = s.mem := by unfold ackStatus; split <;> rfl
@[simp] theorem ackStatus_breach (s : State) : (ackStatus s).breach = s.breach := by unfold ackStatus; split <;> rfl
@[simp] theorem ackStatus_unread (s : State) : (ackStatus s).unread = if s.phase = .busy then s.unread else [] := by unfold ackStatus; split <;> simp [*]
@[simp] theorem ackStatus_unordered (s : State) : (ackStatus s).unordered = match s.phase with | .busy => s.unordered | .idle => s.unread ++ s.unordered | .done | .error => [] := by unfold ackStatus; split <;> simp [*]
@[simp] theorem ackStatus_resp (s : State) : (ackStatus s).resp = s.resp := by unfold ackStatus; split <;> rfl
@[simp] theorem ackStatus_host (s : State) : (ackStatus s).host = s.host := by unfold ackStatus; split <;> rfl
@[simp] theorem ackStatus_turns (s : State) : (ackStatus s).turns = s.turns := by unfold ackStatus; split <;> rfl
@[simp] theorem ackStatus_draws (s : State) : (ackStatus s).draws = s.draws := by unfold ackStatus; split <;> rfl

@[simp] theorem popTurn_regs (s : State) : (popTurn s).regs = s.regs := by unfold popTurn; split <;> (try split) <;> rfl
@[simp] theorem popTurn_phase (s : State) : (popTurn s).phase = s.phase := by unfold popTurn; split <;> (try split) <;> rfl
@[simp] theorem popTurn_ecode (s : State) : (popTurn s).ecode = s.ecode := by unfold popTurn; split <;> (try split) <;> rfl
@[simp] theorem popTurn_errAddr (s : State) : (popTurn s).errAddr = s.errAddr := by unfold popTurn; split <;> (try split) <;> rfl
@[simp] theorem popTurn_job (s : State) : (popTurn s).job = s.job := by unfold popTurn; split <;> (try split) <;> rfl
@[simp] theorem popTurn_ctxs (s : State) : (popTurn s).ctxs = s.ctxs := by unfold popTurn; split <;> (try split) <;> rfl
@[simp] theorem popTurn_mem (s : State) : (popTurn s).mem = s.mem := by unfold popTurn; split <;> (try split) <;> rfl
@[simp] theorem popTurn_breach (s : State) : (popTurn s).breach = s.breach := by unfold popTurn; split <;> (try split) <;> rfl
@[simp] theorem popTurn_unread (s : State) : (popTurn s).unread = s.unread := by unfold popTurn; split <;> (try split) <;> rfl
@[simp] theorem popTurn_unordered (s : State) : (popTurn s).unordered = s.unordered := by unfold popTurn; split <;> (try split) <;> rfl
@[simp] theorem popTurn_resp (s : State) : (popTurn s).resp = s.resp := by unfold popTurn; split <;> (try split) <;> rfl
@[simp] theorem popTurn_host (s : State) : (popTurn s).host = s.host := by unfold popTurn; split <;> (try split) <;> rfl

end Sys2Proof.Machine
end

