-- ==== Sys2Proof/Laws/Ops.lean ====
section
/-!
SUPPORT. What each shared operation can do, said once: the checks of START, the grid of pixels, the havoc of a region, the
in-bounds test, the advance of a scan.
-/

namespace Sys2Proof.Machine

/-! ### The checks of START -/

theorem badParameter_iff (o : Operands) :
    badParameter o = true ↔
      o.r < 0 ∨ flt .zero o.sigma = false ∨ o.sigma = .inf false ∨ isZero (denominator o.sigma) = true := by
  simp [badParameter, or_assoc]

theorem badLength_iff (o : Operands) :
    badLength o = true ↔ o.inLen ≠ imageBytes o.w o.h ∨ o.outLen ≠ imageBytes o.w o.h := by
  simp [badLength]

theorem badAlignment_iff (o : Operands) : badAlignment o = true ↔ o.inBase % 4 ≠ 0 ∨ o.outBase % 4 ≠ 0 := by
  simp [badAlignment]

theorem badRange_iff (o : Operands) :
    badRange o = true ↔
      dataSpaceSize < o.inBase + imageBytes o.w o.h ∨ dataSpaceSize < o.outBase + imageBytes o.w o.h := by
  simp [badRange]

theorem badOverlap_iff (o : Operands) :
    badOverlap o = true ↔
      0 < imageBytes o.w o.h ∧ o.inBase < o.outBase + imageBytes o.w o.h ∧
        o.outBase < o.inBase + imageBytes o.w o.h := by
  simp [badOverlap, and_assoc]

/-- Validated operands pass each check. -/
theorem validate_none {o : Operands} (h : validate o = none) :
    (0 ≤ o.r ∧ flt .zero o.sigma = true ∧ o.sigma ≠ .inf false ∧ isZero (denominator o.sigma) = false) ∧
      (o.inLen = imageBytes o.w o.h ∧ o.outLen = imageBytes o.w o.h) ∧
      (o.inBase % 4 = 0 ∧ o.outBase % 4 = 0) ∧
      (o.inBase + imageBytes o.w o.h ≤ dataSpaceSize ∧ o.outBase + imageBytes o.w o.h ≤ dataSpaceSize) ∧
      ¬(0 < imageBytes o.w o.h ∧ o.inBase < o.outBase + imageBytes o.w o.h ∧
        o.outBase < o.inBase + imageBytes o.w o.h) := by
  simp only [validate] at h
  split at h; · cases h
  next h1 =>
  split at h; · cases h
  next h2 =>
  split at h; · cases h
  next h3 =>
  split at h; · cases h
  next h4 =>
  split at h; · cases h
  next h5 =>
  rw [badParameter_iff] at h1
  rw [badLength_iff] at h2
  rw [badAlignment_iff] at h3
  rw [badRange_iff] at h4
  rw [badOverlap_iff] at h5
  simp only [not_or, not_lt, Bool.not_eq_false, Bool.not_eq_true, ne_eq, not_not] at h1 h2 h3 h4
  exact ⟨h1, h2, h3, h4, h5⟩

/-- A validation that fails is never NO_ERROR. -/
theorem validate_code {o : Operands} {code : ECode} (h : validate o = some code) :
    code ≠ .noError ∧ code ≠ .busFault ∧ code ≠ .badCommand := by
  simp only [validate] at h
  split_ifs at h <;> (injection h with h; subst h; simp)

/-- What START leaves alone, whichever way it goes. -/
theorem startJob_frame (s : State) :
    (startJob s).mem = s.mem ∧ (startJob s).turns = s.turns ∧ (startJob s).draws = s.draws ∧
      (startJob s).host = s.host ∧ (startJob s).regs = s.regs ∧ (startJob s).resp = s.resp := by
  unfold startJob; split <;> exact ⟨rfl, rfl, rfl, rfl, rfl, rfl⟩

/-! ### The grid of pixels -/

theorem mem_grid (w h : Nat) (p : Pixel) : p ∈ grid w h ↔ p.x < w ∧ p.y < h := by
  simp only [grid, List.mem_flatMap, List.mem_range, List.mem_map]
  constructor
  · rintro ⟨y, hy, x, hx, rfl⟩; exact ⟨hx, hy⟩
  · rintro ⟨hx, hy⟩; exact ⟨p.y, hy, p.x, hx, rfl⟩

theorem nodup_grid (w h : Nat) : (grid w h).Nodup := by
  unfold grid
  rw [List.nodup_flatMap]
  constructor
  · intro y _
    exact List.Nodup.map (fun a b hab => by injection hab) List.nodup_range
  · refine List.Pairwise.imp ?_ (List.nodup_range (n := h))
    intro a b hab
    simp only [Function.onFun]
    rw [List.disjoint_left]
    intro p hp hq
    simp only [List.mem_map, List.mem_range] at hp hq
    obtain ⟨x, _, rfl⟩ := hp
    obtain ⟨x', _, h2⟩ := hq
    injection h2 with _ h3
    exact hab h3.symm

theorem length_grid (w h : Nat) : (grid w h).length = w * h := by
  simp [grid, List.length_flatMap, Nat.mul_comm]

/-! ### Havoc -/

theorem holds_iff (region : Region) (a : Nat) :
    region.holds a = true ↔ region.base ≤ a ∧ a < region.base + region.len := by
  simp [Region.holds]

/-- A havoc changes no byte outside its region. -/
theorem readByte_havoc_out (region : Region) (s : State) {a : Nat} (h : region.holds a = false) :
    readByte (havoc region s).mem a = readByte s.mem a := by
  simp only [havoc]
  apply readByte_fillBytes_out
  rw [Bool.eq_false_iff, ne_eq, holds_iff] at h
  omega

/-- A havoc gives every byte of its region a free value. -/
theorem readByte_havoc_in (region : Region) (s : State) {a : Nat} (h : region.holds a = true) (hd : a < dataSpaceSize) :
    readByte (havoc region s).mem a = Config.freeByte (s.draws + (a - region.base)) := by
  rw [holds_iff] at h
  exact readByte_fillBytes_in _ _ _ _ h.1 h.2 hd

/-- A byte is in what is left of a region exactly when it is in the region and not among the bytes taken out. -/
theorem holds_without (region : Region) (addr count a : Nat) :
    (∃ part ∈ region.without addr count, part.holds a = true) ↔
      region.holds a = true ∧ ¬(addr ≤ a ∧ a < addr + count) := by
  simp only [Region.without, List.mem_filter, List.mem_cons, List.not_mem_nil, or_false, decide_eq_true_eq, holds_iff]
  constructor
  · rintro ⟨part, ⟨rfl | rfl, hlen⟩, h⟩ <;> simp only at * <;> omega
  · rintro ⟨h, hout⟩
    by_cases hlt : a < addr
    · exact ⟨_, ⟨.inl rfl, by simp only; omega⟩, by simp only; omega⟩
    · exact ⟨_, ⟨.inr rfl, by simp only; omega⟩, by simp only; omega⟩

/-- A host write takes its bytes out of the regions that wait for an ordering read. -/
theorem holds_flatMap_without (regions : List Region) (addr count a : Nat) :
    (∃ part ∈ regions.flatMap (Region.without addr count), part.holds a = true) ↔
      (∃ region ∈ regions, region.holds a = true) ∧ ¬(addr ≤ a ∧ a < addr + count) := by
  simp only [List.mem_flatMap]
  constructor
  · rintro ⟨part, ⟨region, hr, hp⟩, h⟩
    obtain ⟨h1, h2⟩ := (holds_without region addr count a).mp ⟨part, hp, h⟩
    exact ⟨⟨region, hr, h1⟩, h2⟩
  · rintro ⟨⟨region, hr, h⟩, hout⟩
    obtain ⟨part, hp, h⟩ := (holds_without region addr count a).mpr ⟨h, hout⟩
    exact ⟨part, ⟨region, hr, hp⟩, h⟩

/-- When a host read of a byte is unspecified. -/
theorem unsettled_iff (s : State) (a : Nat) :
    unsettled s a = true ↔
      (s.phase = .busy ∧ (outputRegion s.job).holds a = true) ∨ (∃ region ∈ s.unread, region.holds a = true) ∨
        ∃ region ∈ s.unordered, region.holds a = true := by
  simp [unsettled, or_assoc]

theorem havoc_wf (region : Region) {s : State} (h : Memory.wf s.mem) : Memory.wf (havoc region s).mem :=
  fillBytes_wf _ _ _ h

/-! ### The scan -/

theorem inBounds_iff (w h : Nat) (nx ny : Int) :
    inBounds w h nx ny = true ↔ 0 ≤ nx ∧ nx < w ∧ 0 ≤ ny ∧ ny < h := by
  simp [inBounds, and_assoc]

theorem advance_eq (r : Int) (c : Ctx) :
    advance r c =
      { c with oi := if c.oi < r then c.oi + 1 else -r, oj := if c.oi < r then c.oj else c.oj + 1 } := by
  unfold advance; split <;> simp_all

@[simp] theorem advance_x (r : Int) (c : Ctx) : (advance r c).x = c.x := by rw [advance_eq]
@[simp] theorem advance_y (r : Int) (c : Ctx) : (advance r c).y = c.y := by rw [advance_eq]
@[simp] theorem advance_acc (r : Int) (c : Ctx) : (advance r c).acc = c.acc := by rw [advance_eq]

end Sys2Proof.Machine
end

