-- ==== Sys2Proof/Laws/PerInstr.lean ====
section
/-!
SUPPORT. One fact for every instruction of the opcode table: its encoding has the bits of its own row.
-/

namespace Sys2Proof.Laws.RowBits

/-- The frame of an instruction has the bits that its row of opcode_table.json fixes, and the row is one of the table's. -/
def Statement (i : Instr) : Prop := rowMatches (rowOf i) (encode i) = true ∧ rowOf i ∈ opcodeRows

theorem rdId : Statement .rdId := ⟨by decide, by decide⟩

theorem wrId (data : Word) : Statement (.wrId data) :=
  ⟨by simp [rowMatches, rowOf, encode], by simp [opcodeRows, rowOf]⟩

theorem rdCmd : Statement .rdCmd := ⟨by decide, by decide⟩

theorem wrCmd (data : Word) : Statement (.wrCmd data) :=
  ⟨by simp [rowMatches, rowOf, encode], by simp [opcodeRows, rowOf]⟩

theorem rdStatus : Statement .rdStatus := ⟨by decide, by decide⟩

theorem wrStatus (data : Word) : Statement (.wrStatus data) :=
  ⟨by simp [rowMatches, rowOf, encode], by simp [opcodeRows, rowOf]⟩

theorem rdWidth : Statement .rdWidth := ⟨by decide, by decide⟩

theorem wrWidth (data : Word) : Statement (.wrWidth data) :=
  ⟨by simp [rowMatches, rowOf, encode], by simp [opcodeRows, rowOf]⟩

theorem rdHeight : Statement .rdHeight := ⟨by decide, by decide⟩

theorem wrHeight (data : Word) : Statement (.wrHeight data) :=
  ⟨by simp [rowMatches, rowOf, encode], by simp [opcodeRows, rowOf]⟩

theorem rdRadius : Statement .rdRadius := ⟨by decide, by decide⟩

theorem wrRadius (data : Word) : Statement (.wrRadius data) :=
  ⟨by simp [rowMatches, rowOf, encode], by simp [opcodeRows, rowOf]⟩

theorem rdSigma : Statement .rdSigma := ⟨by decide, by decide⟩

theorem wrSigma (data : Word) : Statement (.wrSigma data) :=
  ⟨by simp [rowMatches, rowOf, encode], by simp [opcodeRows, rowOf]⟩

theorem rdInBase : Statement .rdInBase := ⟨by decide, by decide⟩

theorem wrInBase (data : Word) : Statement (.wrInBase data) :=
  ⟨by simp [rowMatches, rowOf, encode], by simp [opcodeRows, rowOf]⟩

theorem rdInLen : Statement .rdInLen := ⟨by decide, by decide⟩

theorem wrInLen (data : Word) : Statement (.wrInLen data) :=
  ⟨by simp [rowMatches, rowOf, encode], by simp [opcodeRows, rowOf]⟩

theorem rdOutBase : Statement .rdOutBase := ⟨by decide, by decide⟩

theorem wrOutBase (data : Word) : Statement (.wrOutBase data) :=
  ⟨by simp [rowMatches, rowOf, encode], by simp [opcodeRows, rowOf]⟩

theorem rdOutLen : Statement .rdOutLen := ⟨by decide, by decide⟩

theorem wrOutLen (data : Word) : Statement (.wrOutLen data) :=
  ⟨by simp [rowMatches, rowOf, encode], by simp [opcodeRows, rowOf]⟩

theorem rdErrAddr : Statement .rdErrAddr := ⟨by decide, by decide⟩

theorem wrErrAddr (data : Word) : Statement (.wrErrAddr data) :=
  ⟨by simp [rowMatches, rowOf, encode], by simp [opcodeRows, rowOf]⟩

theorem rdRsvd : ∀ k : BitVec 2, Statement (.rdRsvd k) := by unfold Statement; decide

theorem wrRsvd (k : BitVec 2) (data : Word) : Statement (.wrRsvd k data) := by
  refine ⟨?_, by simp [opcodeRows, rowOf]⟩
  have : ∀ k : BitVec 2, (0x170 ||| (k.setWidth 9 <<< 2) : BitVec 9).toNat &&& 0x1F3 = 0x170 := by decide
  simp only [rowMatches, rowOf, encode, this, decide_true, Bool.not_false, Bool.and_true]

theorem badAccess (size : BitVec 2) (we : Bool) (offset : BitVec 6) : Statement (.badAccess size we offset) :=
  ⟨by simp [rowMatches, rowOf, encode], by simp [opcodeRows, rowOf]⟩

theorem nop : Statement .nop := ⟨by decide, by decide⟩

theorem start : Statement .start := ⟨by decide, by decide⟩

theorem clear : Statement .clear := ⟨by decide, by decide⟩

theorem badCommand (word : Word) : Statement (.badCommand word) :=
  ⟨by simp [rowMatches, rowOf, encode], by simp [opcodeRows, rowOf]⟩

end Sys2Proof.Laws.RowBits
end

