-- ==== Sys2Proof/Laws/Steps.lean ====
section
/-!
SUPPORT. What one step can do: one inversion for the block's own turns, one for the host's transactions, one for the
host's turn. Later proofs cite these and unfold no step.
-/

namespace Sys2Proof.Machine

/-- Two states agree on everything but the answer to the host, the host itself, the regions that wait for a STATUS read, the breach, the turns
and the draws. -/
structure SameBlock (s t : State) : Prop where
  regs : t.regs = s.regs
  phase : t.phase = s.phase
  ecode : t.ecode = s.ecode
  errAddr : t.errAddr = s.errAddr
  job : t.job = s.job
  ctxs : t.ctxs = s.ctxs
  mem : t.mem = s.mem

theorem SameBlock.rfl' (s : State) : SameBlock s s := ⟨rfl, rfl, rfl, rfl, rfl, rfl, rfl⟩

/-- An access of the running job that gets an error response: the read of an in-bounds neighbor of a valid context, or the
write of one whose scan is finished. -/
inductive FaultAt (P : Params) (s : State) : Nat → Prop where
  | read (k : Nat) (c : Ctx) (oi oj : Int) (valid : cellFind k s.ctxs = some c)
      (inside : inBounds s.job.w s.job.h (c.x + oi) (c.y + oj) = true)
      (answer : P.busFault (neighborAddr s.job { c with oi := oi, oj := oj }) .read = true) :
      FaultAt P s (neighborAddr s.job { c with oi := oi, oj := oj })
  | write (k : Nat) (c : Ctx) (valid : cellFind k s.ctxs = some c) (done : c.oj = s.job.r + 1)
      (answer : P.busFault (outputAddr s.job c) .write = true) : FaultAt P s (outputAddr s.job c)

/-- Everything a step of the block itself can do. -/
inductive BlockStep (P : Params) (s : State) : State → Prop where
  | still : BlockStep P s s
  | issue (k : Nat) (p : Pixel) (busy : s.phase = .busy) (waiting : p ∈ s.job.todo) (lane : k < P.lanes)
      (free : cellFind k s.ctxs = none) :
      BlockStep P s { s with
        job := { s.job with todo := s.job.todo.erase p, pending := s.job.pending + 1 }
        ctxs := cellSet k (freshCtx s.job.r p) s.ctxs }
  | offsetIn (k : Nat) (c : Ctx) (busy : s.phase = .busy) (valid : cellFind k s.ctxs = some c) (scan : c.oj ≤ s.job.r)
      (inside : inBounds s.job.w s.job.h (c.x + c.oi) (c.y + c.oj) = true) :
      BlockStep P s (accumulate P k c (readWord s.mem (neighborAddr s.job c)) s)
  | offsetOut (k : Nat) (c : Ctx) (busy : s.phase = .busy) (valid : cellFind k s.ctxs = some c)
      (scan : c.oj ≤ s.job.r) (outside : inBounds s.job.w s.job.h (c.x + c.oi) (c.y + c.oj) = false) :
      BlockStep P s (putCtx k (advance s.job.r c) s)
  | finish (k : Nat) (c : Ctx) (busy : s.phase = .busy) (valid : cellFind k s.ctxs = some c)
      (done : c.oj = s.job.r + 1) (fits : outputAddr s.job c + 4 ≤ dataSpaceSize)
      (answer : P.busFault (outputAddr s.job c) .write = false) :
      BlockStep P s { s with
        mem := writeWord (outputAddr s.job c) (packPixel (quantize c.acc)) s.mem
        ctxs := cellErase k s.ctxs
        job := { s.job with pending := s.job.pending - 1 } }
  | fault (a : Nat) (busy : s.phase = .busy) (error : FaultAt P s a) : BlockStep P s (jobFault a s)
  | complete (busy : s.phase = .busy) (issued : s.job.todo = []) (finished : s.job.pending = 0) :
      BlockStep P s (if s.breach then { havocOutput s with phase := .done } else { s with phase := .done })

theorem canIssue_iff (P : Params) (k : Nat) (p : Pixel) (s : State) :
    canIssue P k p s = true ↔
      s.phase = .busy ∧ p ∈ s.job.todo ∧ k < P.lanes ∧ cellFind k s.ctxs = none := by
  simp [canIssue, and_assoc]

theorem canComplete_iff (s : State) :
    canComplete s = true ↔ s.phase = .busy ∧ s.job.todo = [] ∧ s.job.pending = 0 := by
  simp [canComplete, and_assoc]

theorem processes_iff (c : Ctx) (s : State) :
    processes c s = true ↔
      s.phase = .busy ∧ c.oj ≤ s.job.r ∧ inBounds s.job.w s.job.h (c.x + c.oi) (c.y + c.oj) = true := by
  simp [processes, and_assoc]

theorem canFetch_iff (c : Ctx) (oi oj : Int) (s : State) :
    canFetch c oi oj s = true ↔
      processes c s = true ∧ (-s.job.r ≤ oi ∧ oi ≤ s.job.r) ∧ (-s.job.r ≤ oj ∧ oj ≤ s.job.r) ∧
        inBounds s.job.w s.job.h (c.x + oi) (c.y + oj) = true := by
  simp [canFetch, and_assoc]

/-- An extra read of an input word changes nothing, takes JOB_FAULT, or leaves the data space. -/
theorem fetchTurn_cases (P : Params) (k : Nat) (oi oj : Int) (s : State) :
    fetchTurn P k oi oj s = .next s ∨
      ∃ c, cellFind k s.ctxs = some c ∧ canFetch c oi oj s = true ∧
        ((fetchTurn P k oi oj s = .next (jobFault (neighborAddr s.job { c with oi := oi, oj := oj }) s) ∧
            P.busFault (neighborAddr s.job { c with oi := oi, oj := oj }) .read = true) ∨
          (fetchTurn P k oi oj s = .fault .engineAddress ∧
            dataSpaceSize < neighborAddr s.job { c with oi := oi, oj := oj } + 4)) := by
  unfold fetchTurn
  split
  · exact .inl rfl
  · next c hc =>
    split
    · next hf =>
      rcases memRead_cases P s.mem (neighborAddr s.job { c with oi := oi, oj := oj }) with
        ⟨e, h⟩ | ⟨e, _, h⟩ | ⟨e, _, _⟩ <;> rw [e]
      · exact .inr ⟨c, hc, hf, .inr ⟨rfl, h⟩⟩
      · exact .inr ⟨c, hc, hf, .inl ⟨rfl, h⟩⟩
      · exact .inl rfl
    · exact .inl rfl

theorem contextTurn_cases {P : Params} {k : Nat} {s t : State} (h : contextTurn P k s = .next t) : BlockStep P s t := by
  simp only [contextTurn] at h
  split at h
  · injection h with h; subst h; exact .still
  · next c hc =>
    split at h
    · next hb =>
      simp only [contextStep] at h
      split at h
      · next hj =>
        split at h
        · next hin =>
          simp only [wiOffsetIn] at h
          rcases memRead_cases P s.mem (neighborAddr s.job c) with ⟨e, _⟩ | ⟨e, _, ha⟩ | ⟨e, _, _⟩ <;> rw [e] at h
          · cases h
          · injection h with h; subst h; exact .fault _ hb (.read k c c.oi c.oj hc hin ha)
          · injection h with h; subst h; exact .offsetIn k c hb hc hj hin
        · next hin =>
          injection h with h; subst h
          exact .offsetOut k c hb hc hj (by simpa using hin)
      · split at h
        · next hj =>
          simp only [wiFinish] at h
          rcases memWrite_cases P s.mem (outputAddr s.job c) (packPixel (quantize c.acc)) with
            ⟨e, _⟩ | ⟨e, _, ha⟩ | ⟨e, hf, ha⟩ <;> rw [e] at h
          · cases h
          · injection h with h; subst h; exact .fault _ hb (.write k c hc hj ha)
          · injection h with h; subst h; exact .finish k c hb hc hj hf ha
        · injection h with h; subst h; exact .still
    · injection h with h; subst h; exact .still

/-- Everything a turn of the block itself can do. -/
theorem takeTurn_block {P : Params} {turn : Turn} {s t : State} (ht : isBlockTurn turn = true)
    (h : takeTurn P turn s = .next t) : BlockStep P s t := by
  cases turn <;> simp only [isBlockTurn, Bool.false_eq_true] at ht
  case issue k p =>
    injection h with h; subst h
    simp only [wiIssue]
    split
    · next hi => obtain ⟨h1, h2, h3, h4⟩ := (canIssue_iff P k p s).mp hi; exact .issue k p h1 h2 h3 h4
    · exact .still
  case context k => exact contextTurn_cases h
  case fetch k oi oj =>
    simp only [takeTurn] at h
    rcases fetchTurn_cases P k oi oj s with e | ⟨c, hc, hf, ⟨e, ha⟩ | ⟨e, _⟩⟩ <;> rw [e] at h
    · injection h with h; subst h; exact .still
    · injection h with h; subst h
      obtain ⟨hp, _, _, hin⟩ := (canFetch_iff c oi oj s).mp hf
      exact .fault _ ((processes_iff c s).mp hp).1 (.read k c oi oj hc hin ha)
    · cases h
  case held k =>
    injection h with h; subst h
    simp only [heldTurn]
    split
    · exact .still
    · next c hc =>
      split
      · next hp => obtain ⟨h1, h2, h3⟩ := (processes_iff c s).mp hp; exact .offsetIn k c h1 hc h2 h3
      · exact .still
  case complete =>
    injection h with h; subst h
    simp only [jobComplete]
    split
    · next hc => obtain ⟨h1, h2, h3⟩ := (canComplete_iff s).mp hc; exact .complete h1 h2 h3
    · exact .still

/-- Everything a transaction or a command can do to the block. -/
inductive HostStep (s : State) : State → Prop where
  | same {t : State} (h : SameBlock s t) (breach : t.breach = s.breach) : HostStep s t
  | param (p : Param) (data : Word) (idle : s.phase ≠ .busy) :
      HostStep s (respondOk { s with regs := setParam p data s.regs })
  | start (idle : s.phase ≠ .busy) : HostStep s (respondOk (startJob s))
  | clear (idle : s.phase ≠ .busy) : HostStep s (respondOk (clearStatus s))
  | badCommand (idle : s.phase ≠ .busy) : HostStep s (respondOk (raiseError .badCommand 0 s))

theorem writeTransaction_cases {p : Param} {data : Word} {s t : State} (h : writeTransaction p data s = .next t) :
    HostStep s t := by
  injection h with h; subst h
  simp only [writeParam]
  split
  · exact .same ⟨rfl, rfl, rfl, rfl, rfl, rfl, rfl⟩ rfl
  · next hb => exact .param p data hb

theorem nop_cases {s t : State} (h : execNop s = .next t) : HostStep s t := by
  injection h with h; subst h
  exact .same ⟨by simp, by simp, by simp, by simp, by simp, by simp, by simp⟩ (by simp)

theorem start_cases {s t : State} (h : execStart s = .next t) : HostStep s t := by
  injection h with h; subst h
  split
  · exact .same ⟨rfl, rfl, rfl, rfl, rfl, rfl, rfl⟩ rfl
  · next hb => exact .start hb

theorem clear_cases {s t : State} (h : execClear s = .next t) : HostStep s t := by
  injection h with h; subst h
  split
  · exact .same ⟨rfl, rfl, rfl, rfl, rfl, rfl, rfl⟩ rfl
  · next hb => exact .clear hb

theorem badCommand_cases {word : Word} {s t : State} (h : execBadCommand word s = .next t) : HostStep s t := by
  injection h with h; subst h
  split
  · exact .same ⟨rfl, rfl, rfl, rfl, rfl, rfl, rfl⟩ rfl
  · next hb => exact .badCommand hb

theorem exec_cases {i : Instr} {s t : State} (h : exec i s = .next t) : HostStep s t := by
  cases i
  case wrCmd word =>
    simp only [exec, execWrCmd, runCommand] at h
    split_ifs at h
    · exact nop_cases h
    · exact start_cases h
    · exact clear_cases h
    · exact badCommand_cases (word := word) h
  case nop => exact nop_cases h
  case start => exact start_cases h
  case clear => exact clear_cases h
  case badCommand word => exact badCommand_cases (word := word) h
  case wrWidth data => exact writeTransaction_cases h
  case wrHeight data => exact writeTransaction_cases h
  case wrRadius data => exact writeTransaction_cases h
  case wrSigma data => exact writeTransaction_cases h
  case wrInBase data => exact writeTransaction_cases h
  case wrInLen data => exact writeTransaction_cases h
  case wrOutBase data => exact writeTransaction_cases h
  case wrOutLen data => exact writeTransaction_cases h
  case rdStatus =>
    injection h with h; subst h
    exact .same ⟨by simp, by simp, by simp, by simp, by simp, by simp, by simp⟩ (by simp)
  all_goals
    injection h with h; subst h
    exact .same ⟨rfl, rfl, rfl, rfl, rfl, rfl, rfl⟩ rfl

/-- Every transaction and command answers a next state. -/
theorem exec_next (i : Instr) (s : State) : ∃ t, exec i s = .next t := by
  cases i
  case wrCmd word =>
    simp only [exec, execWrCmd, runCommand]
    split_ifs <;> exact ⟨_, rfl⟩
  all_goals exact ⟨_, rfl⟩

/-- Everything the host's turn can do: nothing, a transaction of the block, a write, or a step that leaves the block and
the breach as they are. -/
theorem hostTurn_cases {s t : State} (h : hostTurn s = .next t) :
    (SameBlock s t ∧ t.breach = s.breach) ∨
      (∃ (i : Instr) (n : Nat), exec i (hostGoto n s) = .next t) ∨
      ∃ (addr : Word) (bytes : List Byte) (n : Nat), addr.toNat + bytes.length ≤ dataSpaceSize ∧
        t = { hostGoto n s with
          mem := writeBytes addr.toNat bytes s.mem
          breach := s.breach || breaches addr.toNat bytes.length s
          unordered := s.unordered.flatMap (Region.without addr.toNat bytes.length) } := by
  simp only [hostTurn] at h
  split at h
  · injection h with h; subst h; exact .inl ⟨.rfl' _, rfl⟩
  · next op _ =>
    cases op with
    | access desc data => exact .inr (.inl ⟨_, _, h⟩)
    | memWrite addr bytes =>
      simp only [hostOp, hostWrite] at h
      split at h
      · cases h
      · next hle =>
        injection h with h; subst h
        exact .inr (.inr ⟨addr, bytes, _, by omega, rfl⟩)
    | memRead addr count =>
      simp only [hostOp, hostRead] at h
      split at h
      · cases h
      · injection h with h; subst h
        exact .inl ⟨⟨rfl, rfl, rfl, rfl, rfl, rfl, rfl⟩, rfl⟩
    | branchEq target mask value =>
      injection h with h; subst h
      split <;> exact .inl ⟨⟨rfl, rfl, rfl, rfl, rfl, rfl, rfl⟩, rfl⟩
    | branchNe target mask value =>
      injection h with h; subst h
      split <;> exact .inl ⟨⟨rfl, rfl, rfl, rfl, rfl, rfl, rfl⟩, rfl⟩

/-- Using a turn up changes nothing of the block. -/
theorem popTurn_same (s : State) : SameBlock s (popTurn s) ∧ (popTurn s).breach = s.breach :=
  ⟨⟨by simp, by simp, by simp, by simp, by simp, by simp, by simp⟩, by simp⟩

end Sys2Proof.Machine
end

