-- ==== Sys2Proof/Laws/Scan.lean ====
section
/-!
SUPPORT. The window in scan order, and where a context stands in it.
-/

namespace Sys2Proof.Machine

@[simp] theorem windowSide_nat (r : Nat) : windowSide (r : Int) = 2 * r + 1 := by unfold windowSide; omega

theorem getElem?_flatMap_const {α β : Type} (l : List α) (f : α → List β) (m : Nat) (hf : ∀ a ∈ l, (f a).length = m)
    (hm : 0 < m) : ∀ n, (l.flatMap f)[n]? = (l[n / m]?).bind fun a => (f a)[n % m]? := by
  induction l with
  | nil => simp
  | cons a l ih =>
    intro n
    have ha := hf a (by simp)
    rw [List.flatMap_cons, List.getElem?_append]
    split
    · next h => rw [ha] at h; rw [Nat.div_eq_of_lt h, Nat.mod_eq_of_lt h]; rfl
    · next h =>
      rw [ha] at h ⊢
      rw [ih (fun a h => hf a (by simp [h])) (n - m)]
      have h1 : n / m = (n - m) / m + 1 := by
        rw [← Nat.add_div_right _ hm]; congr 1; omega
      have h2 : n % m = (n - m) % m := Nat.mod_eq_sub_mod (by omega)
      rw [h1, h2]; rfl

/-- The n-th offset of the window. -/
theorem scanOffsets_get (r n : Nat) (hn : n < (2 * r + 1) * (2 * r + 1)) :
    (scanOffsets r)[n]? = some (((n % (2 * r + 1) : Nat) : Int) - r, ((n / (2 * r + 1) : Nat) : Int) - r) := by
  have h1 : n / (2 * r + 1) < 2 * r + 1 := Nat.div_lt_of_lt_mul hn
  have h2 := Nat.mod_lt n (show 0 < 2 * r + 1 by omega)
  simp only [scanOffsets, windowSide_nat]
  rw [getElem?_flatMap_const _ _ (2 * r + 1) (by simp) (by omega), List.getElem?_range h1]
  simp only [Option.bind_some, List.getElem?_map, List.getElem?_range h2, Option.map_some]

/-- The window holds every offset from -r to r in both directions. -/
theorem mem_scanOffsets {r : Nat} {o : Int × Int} :
    o ∈ scanOffsets r ↔ (-(r : Int) ≤ o.1 ∧ o.1 ≤ r) ∧ -(r : Int) ≤ o.2 ∧ o.2 ≤ r := by
  simp only [scanOffsets, windowSide_nat, List.mem_flatMap, List.mem_map, List.mem_range]
  constructor
  · rintro ⟨b, hb, a, ha, rfl⟩; simp; omega
  · rintro ⟨⟨h1, h2⟩, h3, h4⟩
    refine ⟨(o.2 + r).toNat, by omega, (o.1 + r).toNat, by omega, ?_⟩
    ext <;> simp <;> omega

theorem scanOffsets_length {r : Int} (hr : 0 ≤ r) : (scanOffsets r).length = windowSize r := by
  obtain ⟨r, rfl⟩ := Int.eq_ofNat_of_zero_le hr
  simp [scanOffsets, List.length_flatMap, windowSize]

/-- While a context scans, it stands at the offset it looks at next, and advancing moves it to the next one. -/
theorem scanIndex_scanning {job : Job} {c : Ctx} (hr : 0 ≤ job.r) (h : CtxOk job c) (hj : c.oj ≤ job.r) :
    (scanOffsets job.r)[scanIndex job.r c]? = some (c.oi, c.oj) ∧
      scanIndex job.r (advance job.r c) = scanIndex job.r c + 1 ∧ scanIndex job.r c < windowSize job.r := by
  obtain ⟨r, hr'⟩ := Int.eq_ofNat_of_zero_le hr
  obtain ⟨_, _, h3, h4, h5, h6, h7⟩ := h
  rw [hr'] at h3 h4 h5 h6 h7 hj ⊢
  obtain ⟨a, ha⟩ := Int.eq_ofNat_of_zero_le (show 0 ≤ c.oi + (r : Int) by omega)
  obtain ⟨b, hb⟩ := Int.eq_ofNat_of_zero_le (show 0 ≤ c.oj + (r : Int) by omega)
  have ha' : a < 2 * r + 1 := by omega
  have hb' : b < 2 * r + 1 := by omega
  have hidx : scanIndex (r : Int) c = b * (2 * r + 1) + a := by
    unfold scanIndex
    rw [ha, hb]
    have : ((b : Int) * (2 * (r : Int) + 1) + a) = ((b * (2 * r + 1) + a : Nat) : Int) := by push_cast; ring
    rw [this, Int.toNat_natCast]
  have hlt : b * (2 * r + 1) + a < (2 * r + 1) * (2 * r + 1) := by
    calc b * (2 * r + 1) + a < b * (2 * r + 1) + (2 * r + 1) := by omega
      _ = (b + 1) * (2 * r + 1) := by ring
      _ ≤ _ := Nat.mul_le_mul_right _ hb'
  refine ⟨?_, ?_, ?_⟩
  · have e1 : (b * (2 * r + 1) + a) % (2 * r + 1) = a := by
      rw [Nat.mul_comm, Nat.mul_add_mod, Nat.mod_eq_of_lt ha']
    have e2 : (b * (2 * r + 1) + a) / (2 * r + 1) = b := by
      rw [Nat.mul_comm, Nat.mul_add_div (by omega), Nat.div_eq_of_lt ha']; omega
    rw [hidx, scanOffsets_get r _ hlt, e1, e2]
    congr 2 <;> omega
  · rw [hidx]
    unfold scanIndex
    rw [advance_eq]
    by_cases hlt2 : c.oi < r
    · simp only [hlt2, if_true]
      rw [hb, show c.oi + 1 + (r : Int) = ((a + 1 : Nat) : Int) by push_cast; omega]
      have : ((b : Int) * (2 * (r : Int) + 1) + ((a + 1 : Nat) : Int)) = ((b * (2 * r + 1) + a + 1 : Nat) : Int) := by
        push_cast; ring
      rw [this, Int.toNat_natCast]
    · simp only [hlt2, if_false]
      have : a = 2 * r := by omega
      subst this
      rw [show c.oj + 1 + (r : Int) = ((b + 1 : Nat) : Int) by push_cast; omega]
      have : (((b + 1 : Nat) : Int) * (2 * (r : Int) + 1) + (-(r : Int) + r)) =
          ((b * (2 * r + 1) + 2 * r + 1 : Nat) : Int) := by push_cast; ring
      rw [this, Int.toNat_natCast]
  · rw [hidx, windowSize, windowSide_nat]; exact hlt

/-- A context whose scan is finished stands past the last offset. -/
theorem scanIndex_finished {job : Job} {c : Ctx} (hr : 0 ≤ job.r) (h : CtxOk job c) (hj : c.oj = job.r + 1) :
    scanIndex job.r c = windowSize job.r := by
  obtain ⟨_, _, _, _, _, _, h7⟩ := h
  unfold scanIndex windowSize
  rw [h7 hj, hj]
  obtain ⟨r, hr'⟩ := Int.eq_ofNat_of_zero_le hr
  rw [hr', windowSide_nat]
  have : (((r : Int) + 1 + r) * (2 * (r : Int) + 1) + (-(r : Int) + r)) =
      (((2 * r + 1) * (2 * r + 1) : Nat) : Int) := by push_cast; ring
  rw [this, Int.toNat_natCast]

@[simp] theorem scanIndex_freshCtx (r : Int) (p : Pixel) : scanIndex r (freshCtx r p) = 0 := by
  simp [scanIndex, freshCtx]

/-- A scan keeps to its window. -/
theorem ctxOk_advance {job : Job} {c : Ctx} (hr : 0 ≤ job.r) (h : CtxOk job c) (hj : c.oj ≤ job.r) :
    CtxOk job (advance job.r c) := by
  obtain ⟨h1, h2, h3, h4, h5, h6, h7⟩ := h
  rw [advance_eq]
  by_cases hlt : c.oi < job.r
  · simp only [hlt, if_true]; refine ⟨h1, h2, ?_, ?_, ?_, ?_, ?_⟩ <;> dsimp only <;> intros <;> omega
  · simp only [hlt, if_false]; refine ⟨h1, h2, ?_, ?_, ?_, ?_, ?_⟩ <;> dsimp only <;> intros <;> omega

/-! ### Addresses -/

/-- A pixel of the image lies in the image's bytes. -/
theorem pixelAddr_region {base w h x y : Nat} (hx : x < w) (hy : y < h) :
    base ≤ pixelAddr base w x y ∧ pixelAddr base w x y + 4 ≤ base + imageBytes w h := by
  unfold pixelAddr imageBytes pixelCount
  have : y * w + w ≤ w * h := by
    calc y * w + w = (y + 1) * w := by ring
      _ ≤ h * w := Nat.mul_le_mul_right _ hy
      _ = w * h := by ring
  omega

/-- Two pixels of an image share no byte. -/
theorem pixelAddr_apart {base w x y x' y' : Nat} (hx : x < w) (hx' : x' < w) (hne : ¬(x = x' ∧ y = y')) :
    pixelAddr base w x y + 4 ≤ pixelAddr base w x' y' ∨ pixelAddr base w x' y' + 4 ≤ pixelAddr base w x y := by
  have : y * w + x ≠ y' * w + x' := by
    intro e
    apply hne
    have e1 : x = x' := by
      have := congrArg (· % w) e
      simpa [Nat.mul_comm _ w, Nat.mul_add_mod, Nat.mod_eq_of_lt hx, Nat.mod_eq_of_lt hx'] using this
    exact ⟨e1, Nat.eq_of_mul_eq_mul_right (by omega) (show y * w = y' * w by omega)⟩
  unfold pixelAddr
  omega

/-- What the invariant says of a running job's numbers. -/
theorem latched_bounds {s : State} (h : Latched s) :
    0 ≤ s.job.r ∧ s.job.inBase % 4 = 0 ∧ s.job.outBase % 4 = 0 ∧
      s.job.inBase + imageBytes s.job.w s.job.h ≤ dataSpaceSize ∧
      s.job.outBase + imageBytes s.job.w s.job.h ≤ dataSpaceSize ∧
      ¬(0 < imageBytes s.job.w s.job.h ∧ s.job.inBase < s.job.outBase + imageBytes s.job.w s.job.h ∧
        s.job.outBase < s.job.inBase + imageBytes s.job.w s.job.h) := by
  obtain ⟨hv, hj⟩ := h
  obtain ⟨⟨h1, _⟩, _, ⟨h3, h4⟩, ⟨h5, h6⟩, h7⟩ := validate_none hv
  rw [hj]
  exact ⟨h1, h3, h4, h5, h6, h7⟩

end Sys2Proof.Machine
end

