-- ==== Sys2Proof/Tests/Slice0.lean ====
section
/-!
SUPPORT. Tests with results from 95_test_vectors.md or worked out by hand from the rules, and for every statement with
hypotheses a named witness that meets them.
-/

namespace Sys2Proof.Tests

open Sys2Proof.Machine Sys2Proof.Slice0

/-! ### Helpers -/

/-- The next state, the reset state where there is none. -/
def after (o : Host.Outcome State Fault Refusal) : State :=
  match o with
  | .next t => t
  | .fault _ | .refused _ => State.reset

/-- The answer to a transaction. -/
def answer (i : Instr) (s : State) : Response := (after (exec i s)).resp

/-- The STATUS word of a state. -/
def status (s : State) : Word := statusWord s.phase s.ecode

/-- A binary32 value by its pattern. -/
def val (w : Word) : F32 := f32bits w

/-- The valid 3x3 job of 95_test_vectors.md section 6. -/
def regs3 : Regs := ⟨3, 3, 1, 0x3F800000, 0x1000, 36, 0x2000, 36⟩

/-- A 1x1 job with radius 0. -/
def regs1 : Regs := ⟨1, 1, 0, 0x3F800000, 0x1000, 4, 0x2000, 4⟩

/-- Idle with given registers. -/
def idle (g : Regs) : State := { State.reset with regs := g }

/-- In a state outside BUSY with a given error. -/
def failed (code : ECode) (addr : Word) : State :=
  { idle regs3 with phase := .error, ecode := code, errAddr := addr }

/-- A running job of given registers, with its waiting pixels and its valid contexts. -/
def running (g : Regs) (todo : List Pixel) (ctxs : List (Nat × Ctx)) : State :=
  { idle g with
    phase := .busy, job := { jobOf (operandsOf g) with todo := todo, pending := ctxs.length }, ctxs := ctxs }

/-- A context at a scan position, with nothing accumulated. -/
def ctxAt (x y : Nat) (oi oj : Int) : Ctx := { x := x, y := y, oi := oi, oj := oj, acc := accZero }

/-- STATUS after START with given registers, from IDLE. -/
def startStatus (g : Regs) : Word := status (after (exec .start (idle g)))

/-- Parameters with two lanes. -/
def twoLanes : Params := { lanes := 2 }

/-- 95_test_vectors.md section 6: `BUS_FAULT(0x1010, read)` holds, and nothing else. -/
def faultAt1010 : Params := { busFault := fun a dir => decide (a = 0x1010) && decide (dir = .read) }

/-- The reference exponential at the two exponents of the 3x3 scenario (95_test_vectors.md section 2, sigma 1.0). -/
def refExp (e : F32) : F32 :=
  if e = .zero then .one
  else if e = val 0xBF000000 then val 0x3F1B4598
  else if e = val 0xBF800000 then val 0x3EBC5AB2
  else .inf false

/-- 95_test_vectors.md 1.1: white at the center of black with alpha 255. -/
def whiteCenter : Image := fun x y => if x = 1 ∧ y = 1 then ⟨255, 255, 255, 255⟩ else ⟨0, 0, 0, 255⟩

/-- 95_test_vectors.md 4.5: the 2x2 image. -/
def smallImage : Image := fun x y =>
  if y = 0 then (if x = 0 then ⟨10, 20, 30, 40⟩ else ⟨50, 60, 70, 80⟩)
  else (if x = 0 then ⟨90, 100, 110, 120⟩ else ⟨130, 140, 150, 160⟩)

/-! ### Well-formedness: an ill-formed term for each check -/

/-- An aligned word access is no BAD_ACCESS. -/
theorem test_illFormed_badAccess : (Instr.badAccess 2 true 0x04).wellFormed = false := by decide

/-- The three command words are no BAD_COMMAND. -/
theorem test_illFormed_badCommand :
    (Instr.badCommand 0).wellFormed = false ∧ (Instr.badCommand 1).wellFormed = false ∧
      (Instr.badCommand 2).wellFormed = false := by decide

/-! ### Decoding: every constructor by a word written out from 30_encoding.md R71 to R74 ({SIZE, WE, OFFSET}) -/

theorem test_decode_reads :
    decode (.transaction 0b10_0_000000#9 0) = .rdId ∧ decode (.transaction 0b10_0_000100#9 0) = .rdCmd ∧
      decode (.transaction 0b10_0_001000#9 0) = .rdStatus ∧ decode (.transaction 0b10_0_001100#9 0) = .rdWidth ∧
      decode (.transaction 0b10_0_010000#9 0) = .rdHeight ∧ decode (.transaction 0b10_0_010100#9 0) = .rdRadius ∧
      decode (.transaction 0b10_0_011000#9 0) = .rdSigma := by decide

theorem test_decode_reads' :
    decode (.transaction 0b10_0_011100#9 0) = .rdInBase ∧ decode (.transaction 0b10_0_100000#9 0) = .rdInLen ∧
      decode (.transaction 0b10_0_100100#9 0) = .rdOutBase ∧ decode (.transaction 0b10_0_101000#9 0) = .rdOutLen ∧
      decode (.transaction 0b10_0_101100#9 0) = .rdErrAddr ∧ decode (.transaction 0b10_0_110000#9 0) = .rdRsvd 0 ∧
      decode (.transaction 0b10_0_111100#9 0) = .rdRsvd 3 := by decide

theorem test_decode_writes :
    decode (.transaction 0b10_1_000000#9 7) = .wrId 7 ∧ decode (.transaction 0b10_1_000100#9 7) = .wrCmd 7 ∧
      decode (.transaction 0b10_1_001000#9 7) = .wrStatus 7 ∧ decode (.transaction 0b10_1_001100#9 7) = .wrWidth 7 ∧
      decode (.transaction 0b10_1_010000#9 7) = .wrHeight 7 ∧ decode (.transaction 0b10_1_010100#9 7) = .wrRadius 7 ∧
      decode (.transaction 0b10_1_011000#9 7) = .wrSigma 7 := by decide

theorem test_decode_writes' :
    decode (.transaction 0b10_1_011100#9 7) = .wrInBase 7 ∧ decode (.transaction 0b10_1_100000#9 7) = .wrInLen 7 ∧
      decode (.transaction 0b10_1_100100#9 7) = .wrOutBase 7 ∧ decode (.transaction 0b10_1_101000#9 7) = .wrOutLen 7 ∧
      decode (.transaction 0b10_1_101100#9 7) = .wrErrAddr 7 ∧ decode (.transaction 0b10_1_111000#9 7) = .wrRsvd 2 7 := by
  decide

/-- 95_test_vectors.md section 7: byte, halfword, misaligned and SIZE = 0b11 accesses. -/
theorem test_decode_badAccess :
    decode (.transaction 0x044 1) = .badAccess 0 true 0x04 ∧ decode (.transaction 0x088 0) = .badAccess 1 false 0x08 ∧
      decode (.transaction 0x109 0) = .badAccess 2 false 0x09 ∧ decode (.transaction 0x1C8 0) = .badAccess 3 true 0x08 := by
  decide

theorem test_decode_commands :
    decode (.command 0b0#32) = .nop ∧ decode (.command 0b1#32) = .start ∧ decode (.command 0b10#32) = .clear ∧
      decode (.command 0b11#32) = .badCommand 3 ∧ decode (.command 0x101) = .badCommand 0x101 ∧
      decode (.command 0xFFFFFFFF) = .badCommand 0xFFFFFFFF := by decide

/-- Table words: bit 0 is the descriptor's bit 0, and bits above the nine are refused. -/
theorem test_tableWords :
    decodeTableWord 9 0x14C = some (.wrWidth 0) ∧ decodeTableWord 16 0x14C = some (.wrWidth 0) ∧
      decodeTableWord 48 0x00000003014C = some (.wrWidth 3) ∧ decodeTableWord 16 0x34C = none ∧
      decodeTableWord 32 2 = some .clear ∧ decodeTableWord 24 0 = none := by decide

/-! ### Binary32 and the datapath (95_test_vectors.md sections 2, 3) -/

/-- sigma 1.0, 1.2, 2^-75, just above it, and the largest with a finite 2 sigma^2. -/
theorem test_denominator :
    denominator (val 0x3F800000) = val 0x40000000 ∧ denominator (val 0x3F99999A) = val 0x403851EC ∧
      denominator (val 0x1A000000) = .zero ∧ denominator (val 0x1A000001) = val 0x00000002 ∧
      denominator (val 0x5F3504F3) = val 0x7F7FFFFF ∧ denominator (val 0x5F3504F4) = .inf false := by decide +kernel

/-- A tie of the numerator goes to the even significand: -(2897^2 + 2896^2) = -16779425 gives -16779424. -/
theorem test_numerator : numerator 2897 2896 = intToF32 (-16779424) ∧ numerator 0 0 = .zero := by decide +kernel

theorem test_exponent :
    exponent (val 0x40000000) 2 1 = val 0xC0200000 ∧ exponent (val 0x403851EC) 3 0 = val 0xC047FFFF ∧
      exponent (val 0x00000002) 1 0 = .inf true ∧ exponent (.inf false) 5 5 = .negZero := by decide +kernel

theorem test_q8_ties :
    q8 (val 0x3F000000) = 0 ∧ q8 (val 0x3F000001) = 1 ∧ q8 (val 0x3FC00000) = 2 ∧ q8 (val 0x40200000) = 2 ∧
      q8 (val 0x437E8000) = 254 := by decide +kernel

theorem test_q8_saturates :
    q8 (val 0x437F8000) = 255 ∧ q8 (val 0x7F7FFFFF) = 255 ∧ q8 (val 0xC0400000) = 0 ∧ q8 (val 0x80000000) = 0 ∧
      q8 (val 0x7FC00000) = 0 := by decide +kernel

/-- 00_scope.md R9: `bits32` gives back the pattern, of a NaN with its sign and payload too. -/
theorem test_bits32 :
    bits32 (val 0xFFC00001) = 0xFFC00001 ∧ bits32 (val 0x7F800001) = 0x7F800001 ∧ bits32 (.inf true) = 0xFF800000 ∧
      bits32 .negZero = 0x80000000 ∧ bits32 (u8ToF32 255) = 0x437F0000 := by decide +kernel

/-- 95_test_vectors.md 1.1: corner, edge and center of the 3x3 scenario, with the bits of a corner's total weight. -/
theorem test_pixel_corner :
    pixel refExp whiteCenter 3 3 1 (val 0x40000000) 0 0 = ⟨36, 36, 36, 255⟩ ∧
      (pixelAcc refExp whiteCenter 3 3 1 (val 0x40000000) 0 0).total = val 0x40252E22 := by decide +kernel

theorem test_pixel_edge :
    pixel refExp whiteCenter 3 3 1 (val 0x40000000) 2 1 = ⟨44, 44, 44, 255⟩ ∧
      pixel refExp whiteCenter 3 3 1 (val 0x40000000) 1 1 = ⟨52, 52, 52, 255⟩ := by decide +kernel

/-- 95_test_vectors.md 4.3: the box filter over the 2x2 image. -/
theorem test_pixel_box :
    pixel unitExp smallImage 2 2 1 (.inf false) 1 0 = ⟨70, 80, 90, 100⟩ ∧
      packPixel (pixel unitExp smallImage 2 2 1 (.inf false) 1 0) = 0x645A5046 := by decide +kernel

/-- 20_memory.md R52: the pixel (1, 2, 3, 4) is the word 0x04030201, byte 0x01 at the lowest address. -/
theorem test_pixelWord :
    packPixel ⟨1, 2, 3, 4⟩ = 0x04030201 ∧ unpackPixel 0x04030201 = ⟨1, 2, 3, 4⟩ ∧
      wordBytes 0x04030201 = [1, 2, 3, 4] := by decide

/-! ### Register-window transactions (95_test_vectors.md section 7) -/

theorem test_rdId : answer .rdId State.reset = .data 0x47420007 := by decide
theorem test_wrId :
    answer (.wrId 0) State.reset = .ok ∧ answer .rdId (after (exec (.wrId 0) State.reset)) = .data 0x47420007 := by
  decide
theorem test_rdCmd : answer .rdCmd (after (exec (.wrCmd 3) State.reset)) = .data 0 := by decide
theorem test_wrCmd : status (after (exec (.wrCmd 0x101) (idle regs3))) = 0x73 := by decide
theorem test_wrCmd_start : status (after (exec (.wrCmd 1) (idle regs3))) = 0x01 := by decide +kernel
theorem test_rdStatus : answer .rdStatus (failed .bufferOverlap 0) = .data 0x63 := by decide
theorem test_wrStatus : status (after (exec (.wrStatus 0) (failed .badCommand 0))) = 0x73 := by decide
theorem test_rdWidth : answer .rdWidth (idle { regs3 with width := 0x80000001 }) = .data 0x80000001 := by decide
theorem test_wrWidth : (after (exec (.wrWidth 7) (running regs3 [] []))).regs.width = 3 := by decide
theorem test_rdHeight : answer .rdHeight (idle { regs3 with height := 5 }) = .data 5 := by decide
theorem test_wrHeight : (after (exec (.wrHeight 9) (failed .badCommand 0))).regs = { regs3 with height := 9 } := by decide
theorem test_rdRadius : answer .rdRadius (idle { regs3 with radius := 0xFFFFFFFF }) = .data 0xFFFFFFFF := by decide
theorem test_wrRadius : (after (exec (.wrRadius 0xFFFFFFFF) (idle regs3))).regs = { regs3 with radius := 0xFFFFFFFF } := by
  decide
theorem test_rdSigma : answer .rdSigma (idle { regs3 with sigma := 0x7FC00001 }) = .data 0x7FC00001 := by decide
theorem test_wrSigma : (after (exec (.wrSigma 0x7FC00001) (idle regs3))).regs = { regs3 with sigma := 0x7FC00001 } := by decide
theorem test_rdInBase : answer .rdInBase (idle regs3) = .data 0x1000 := by decide
theorem test_wrInBase : (after (exec (.wrInBase 0x1002) (idle regs3))).regs = { regs3 with inBase := 0x1002 } := by decide
theorem test_rdInLen : answer .rdInLen (idle { regs3 with inLen := 35 }) = .data 35 := by decide
theorem test_wrInLen : (after (exec (.wrInLen 35) (idle regs3))).regs = { regs3 with inLen := 35 } := by decide
theorem test_rdOutBase : answer .rdOutBase (idle regs3) = .data 0x2000 := by decide
theorem test_wrOutBase : (after (exec (.wrOutBase 0x2002) (idle regs3))).regs = { regs3 with outBase := 0x2002 } := by decide
theorem test_rdOutLen : answer .rdOutLen (idle { regs3 with outLen := 40 }) = .data 40 := by decide
theorem test_wrOutLen : (after (exec (.wrOutLen 40) (idle regs3))).regs = { regs3 with outLen := 40 } := by decide
theorem test_rdErrAddr : answer .rdErrAddr (failed .busFault 0x1010) = .data 0x1010 := by decide
theorem test_wrErrAddr : (after (exec (.wrErrAddr 5) (failed .busFault 0x1010))).errAddr = 0x1010 := by decide
theorem test_rdRsvd : answer (.rdRsvd 3) (idle regs3) = .data 0 := by decide
theorem test_wrRsvd : answer (.rdRsvd 0) (after (exec (.wrRsvd 0 0xFFFFFFFF) (idle regs3))) = .data 0 := by decide
/-- A byte write of 0x01 to CMD: SLVERR, no START. -/
theorem test_badAccess :
    exec (.badAccess 0 true 0x04) (idle regs3) = .next { idle regs3 with resp := .slverr } := by rfl

/-! ### Commands (95_test_vectors.md section 6) -/

theorem test_nop : status (after (exec .nop { idle regs3 with phase := .done })) = 0x02 := by decide
theorem test_clear :
    status (after (exec .clear (failed .busFault 0x1010))) = 0 ∧
      (after (exec .clear (failed .busFault 0x1010))).errAddr = 0 := by decide
theorem test_clear_busy : status (after (exec .clear (running regs3 [] []))) = 0x01 := by decide
theorem test_badCommand : status (after (exec (.badCommand 3) (failed .invalidParameter 0))) = 0x73 := by decide

theorem test_start_parameter :
    startStatus Regs.reset = 0x13 ∧ startStatus { regs3 with radius := 0xFFFFFFFF } = 0x13 ∧
      startStatus { regs3 with sigma := 0x7FC00000 } = 0x13 ∧ startStatus { regs3 with sigma := 0x7F800000 } = 0x13 ∧
      startStatus { regs3 with sigma := 0x1A000000 } = 0x13 ∧ startStatus { regs3 with sigma := 0x1A000001 } = 0x01 := by
  decide +kernel

theorem test_start_buffers :
    startStatus { regs3 with width := 0x10000, height := 0x10000 } = 0x23 ∧
      startStatus { regs3 with inBase := 0x1002 } = 0x43 ∧ startStatus { regs3 with inBase := 0xFFFFFFE0 } = 0x53 ∧
      startStatus { regs3 with inBase := 0xFFFFFFDC } = 0x01 ∧ startStatus { regs3 with outBase := 0x1020 } = 0x63 ∧
      startStatus { regs3 with outBase := 0x1024 } = 0x01 ∧
      startStatus { regs3 with radius := 0xFFFFFFFF, inLen := 35 } = 0x13 ∧
      startStatus { regs3 with width := 0, inLen := 0, outLen := 0 } = 0x02 := by decide +kernel

/-! ### The steps of a job (95_test_vectors.md 4.1, P5) -/

theorem test_issue :
    (wiIssue default 0 ⟨0, 0⟩ (running regs3 (grid 3 3) [])).ctxs = [(0, ctxAt 0 0 (-1) (-1))] ∧
      (wiIssue default 0 ⟨0, 0⟩ (running regs3 (grid 3 3) [])).job.pending = 1 := by decide +kernel

theorem test_advance :
    advance 1 (ctxAt 0 0 1 (-1)) = ctxAt 0 0 (-1) 0 ∧ advance 1 (ctxAt 0 0 1 1) = ctxAt 0 0 (-1) 2 := by decide

/-- Pixel (0, 0) at offset (1, 1) reads IN + 16; pixel (2, 1) writes OUT + 20. -/
theorem test_addresses :
    neighborAddr (running regs3 [] []).job (ctxAt 0 0 1 1) = 0x1010 ∧
      outputAddr (running regs3 [] []).job (ctxAt 2 1 (-1) 2) = 0x2014 := by decide +kernel

/-- P5: a read of 0x1010 takes JOB_FAULT(0x1010). -/
theorem test_busFault :
    takeTurn faultAt1010 (.context 0) (running regs3 [] [(0, ctxAt 0 0 1 1)]) =
      .next (jobFault 0x1010 (running regs3 [] [(0, ctxAt 0 0 1 1)])) := by
  simp only [takeTurn, contextTurn]
  rfl

/-- 20_memory.md R54: another read of the word at 0x1010, while the context looks at another neighbor, faults too. -/
theorem test_fetch :
    takeTurn faultAt1010 (.fetch 0 1 1) (running regs3 [] [(0, ctxAt 0 0 0 0)]) =
        .next (jobFault 0x1010 (running regs3 [] [(0, ctxAt 0 0 0 0)])) ∧
      takeTurn faultAt1010 (.fetch 0 1 0) (running regs3 [] [(0, ctxAt 0 0 0 0)]) =
        .next (running regs3 [] [(0, ctxAt 0 0 0 0)]) := by
  simp only [takeTurn, fetchTurn]
  exact ⟨rfl, rfl⟩

/-- R54 with "any count >= 0": WI_OFFSET with no read takes no fault, and moves the scan on. -/
theorem test_held :
    (heldTurn faultAt1010 0 (running regs3 [] [(0, ctxAt 0 0 1 1)])).phase = .busy ∧
      (cellFind 0 (heldTurn faultAt1010 0 (running regs3 [] [(0, ctxAt 0 0 1 1)])).ctxs).map (fun c => (c.oi, c.oj)) =
        some (-1, 2) := ⟨rfl, rfl⟩

/-! ### The host -/

/-- `WR WIDTH, 3` is descriptor 0x14C, `RD STATUS` 0x108 (P1). -/
theorem test_notation : opWr 0x0C 3 = .access 0x14C 3 ∧ opRd 0x08 = .access 0x108 0 ∧ opStart = .access 0x144 1 := by
  decide

/-- R80 `CONFIG 3, 3, 1, 1.0, 0x1000, 0x2000`: the registers of the scenario, in order. -/
theorem test_config :
    opsConfig 3 3 1 .one 0x1000 0x2000 =
      [.access 0x14C 3, .access 0x150 3, .access 0x154 1, .access 0x158 0x3F800000, .access 0x15C 0x1000,
       .access 0x160 36, .access 0x164 0x2000, .access 0x168 36] := by decide

/-- 70_reset_and_hazards.md R262, R264: after a reset in BUSY, a STATUS read of IDLE ends the host's duty, and a word it then writes
in the old output region reads back; but the bytes it has not written wait for a read of DONE or ERROR. -/
theorem test_settledAfterReset :
    (after (hostRead 0x2000 4 (after (hostWrite 0x2000 [1, 2, 3, 4] (after (exec .rdStatus (resetBlock
      { running regs3 [] [] with unread := [⟨0x2000, 36⟩] }))))))).host.memData = [1, 2, 3, 4] := by rfl

theorem test_unorderedAfterIdle :
    (after (hostWrite 0x2004 [1, 2, 3, 4] (after (exec .rdStatus { idle regs3 with unread := [⟨0x2000, 36⟩] })))).unordered =
        [⟨0x2000, 4⟩, ⟨0x2008, 28⟩] ∧
      (after (exec .rdStatus { failed .badCommand 0 with unordered := [⟨0x2000, 4⟩, ⟨0x2008, 28⟩] })).unordered = [] :=
  ⟨rfl, rfl⟩

/-- The first instruction after reset: a table word placed by `withFetchWord` runs. -/
theorem test_firstInstruction :
    (after (step (State.reset.withFetchWord 9 0x100))).resp = .data 0x47420007 ∧
      status (after (step (State.reset.withFetchWord 32 0x101))) = 0x73 := by decide

/-! ### Witnesses: for each statement with hypotheses, values that meet them -/

/-- EncodeThenDecodeGivesInstruction. -/
theorem witness_encodeThenDecode :
    (Instr.badAccess 3 true 0x3F).wellFormed = true ∧ (Instr.badAccess 2 false 0x01).wellFormed = true ∧
      (Instr.badCommand 3).wellFormed = true ∧ (Instr.wrRsvd 3 0xFFFFFFFF).wellFormed = true := by decide

/-- DecodeThenEncodeGivesFrame. -/
theorem witness_decodeThenEncode :
    frameCanonical (.transaction 0x14C 0xFFFFFFFF) = true ∧ frameCanonical (.transaction 0x1FF 0) = true ∧
      frameCanonical (.command 0xFFFFFFFF) = true := by decide

/-- OpcodeRowsDecodeAsListed: a row with a frame of its own, and frames with no row but the default ones. -/
theorem witness_opcodeRows :
    (rowOf (.wrRsvd 0 0) ∈ opcodeRows ∧ (rowOf (.wrRsvd 0 0)).isDefault = false ∧
        rowMatches (rowOf (.wrRsvd 0 0)) (.transaction 0x17C 5) = true) ∧
      (∀ row ∈ opcodeRows, row.isDefault = false → rowMatches row (.transaction 0x101 0) = false) ∧
      ∀ row ∈ opcodeRows, row.isDefault = false → rowMatches row (.command 3) = false := by decide

/-- StepRunsTheFetchedInstruction, clause by clause. -/
theorem witness_stepRuns :
    (State.reset.withFetchWord 9 0x100).turns = .host :: [] ∧
      (State.reset.turns = [] ∧ State.reset.phase ≠ .busy) ∧
      nextTurn (State.reset.withFetchWord 9 0x100) = .host ∧
      fetch (State.reset.withFetchWord 9 0x100) = some (.access 0x100 0) := by decide

/-- HostBranchesTestTheLastRead: both branches, taken and not taken. -/
theorem witness_branches :
    fetch { State.reset with host := { HostAgent.reset with prog := [.branchEq 0 3 1], lastRd := 1 } } =
        some (.branchEq 0 3 1) ∧
      (1 : Word) &&& 3 = 1 ∧ (2 : Word) &&& 3 ≠ 1 ∧
      fetch { State.reset with host := { HostAgent.reset with prog := [.branchNe 0 0xF3 0x13] } } =
        some (.branchNe 0 0xF3 0x13) := by decide

/-- RegisterWritesStoreOutsideBusy, ClearReturnsToIdle, BadCommandEntersError: outside BUSY (in BUSY: witness_busy). -/
theorem witness_outsideBusy :
    State.reset.phase ≠ .busy ∧ (failed .badCommand 0).phase ≠ .busy ∧ (failed .badCommand 0).phase = .error := by decide

/-- BusyIgnoresWritesAndCommands. -/
theorem witness_busy : (running regs3 (grid 3 3) []).phase = .busy := by decide

/-- OnlyCommandsChangeTheJob. -/
theorem witness_onlyCommands :
    isCommand (.wrWidth 3) = false ∧ exec (.wrWidth 3) State.reset = .next (after (exec (.wrWidth 3) State.reset)) := by
  exact ⟨rfl, rfl⟩

/-- BusyJobKeepsItsParameters. -/
theorem witness_busyJobKeeps :
    (running regs3 [] []).phase = .busy ∧
      exec (.wrCmd 2) (running regs3 [] []) = .next (after (exec (.wrCmd 2) (running regs3 [] []))) :=
  ⟨rfl, rfl⟩

/-- StartReportsTheFirstFailingCheck: each check of START failing first. -/
theorem witness_startReports :
    (idle regs3).phase ≠ .busy ∧ firstFailingCheck { regs3 with radius := 0x80000000 } = some .invalidParameter ∧
      firstFailingCheck { regs3 with inLen := 35 } = some .dimensionMismatch ∧
      firstFailingCheck { regs3 with outBase := 0x2001 } = some .misalignedBuffer ∧
      firstFailingCheck { regs3 with inBase := 0xFFFFFFE0 } = some .bufferRange ∧
      firstFailingCheck { regs3 with outBase := 0x1020 } = some .bufferOverlap := by decide +kernel

/-- StartBeginsTheJob, JobStepsAreBounded: a job that runs, also one whose input ends at the end of the data space. -/
theorem witness_startRuns :
    (idle regs3).phase ≠ .busy ∧ (idle regs3).ctxs = [] ∧ firstFailingCheck (idle regs3).regs = none ∧
      (idle regs3).regs.width ≠ 0 ∧ (idle regs3).regs.height ≠ 0 ∧
      firstFailingCheck { regs3 with inBase := 0xFFFFFFDC } = none := by decide +kernel

/-- EmptyImageIsDoneAtOnce: no columns, and no rows. -/
theorem witness_emptyImage :
    (idle { regs3 with width := 0, inLen := 0, outLen := 0 }).phase ≠ .busy ∧
      firstFailingCheck { regs3 with width := 0, inLen := 0, outLen := 0 } = none ∧
      firstFailingCheck { regs3 with width := 0xFFFFFFFF, height := 0, inLen := 0, outLen := 0 } = none := by
  decide +kernel

/-- ErrorIsLeftOnlyByClearOrStart: by CLEAR, by START, by each as the data of WR_CMD, and by the host's turn. -/
theorem witness_errorIsLeft :
    (failed .busFault 0x1010).phase = .error ∧
      (after (exec .clear (failed .busFault 0x1010))).phase ≠ .error ∧
      (after (exec .start (failed .busFault 0x1010))).phase ≠ .error ∧
      (after (exec (.wrCmd 1) (failed .busFault 0x1010))).phase ≠ .error ∧
      (after (exec (.wrCmd 2) (failed .busFault 0x1010))).phase ≠ .error ∧
      (after (hostTurn { failed .busFault 0x1010 with host := { HostAgent.reset with prog := [opClear] } })).phase ≠ .error := by
  decide +kernel

/-- ResetTurnResetsTheBlock, JobFaultEntersError: in BUSY and outside it, and addresses just outside the output region and at
its ends. -/
theorem witness_reset :
    (running regs3 [] []).phase = .busy ∧ State.reset.phase ≠ .busy ∧
      (outputRegion (running regs3 [] []).job).holds 0x1FFF = false ∧
      (outputRegion (running regs3 [] []).job).holds 0x2024 = false ∧
      (outputRegion (running regs3 [] []).job).holds 0x2000 = true ∧
      (outputRegion (running regs3 [] []).job).holds 0x2023 = true ∧ 0x2023 < 2 ^ 32 := by decide +kernel

/-- IssueMakesAFreshContext: every condition of WI_ISSUE, and each of them failing. -/
theorem witness_issue :
    (running regs3 (grid 3 3) []).phase = .busy ∧ (⟨2, 2⟩ : Pixel) ∈ (running regs3 (grid 3 3) []).job.todo ∧
      0 < (default : Params).lanes ∧ cellFind 0 (running regs3 (grid 3 3) []).ctxs = none ∧
      (⟨3, 2⟩ : Pixel) ∉ (running regs3 (grid 3 3) []).job.todo ∧ (default : Params).lanes ≤ 1 ∧
      cellFind 0 (running regs3 [] [(0, ctxAt 0 0 0 0)]).ctxs ≠ none ∧ State.reset.phase ≠ .busy := by decide +kernel

/-- OffsetStepAccumulatesTheNeighbor: a neighbor at the last pixel of the image. -/
theorem witness_offsetIn :
    (running regs3 [] [(0, ctxAt 1 1 1 1)]).phase = .busy ∧
      cellFind 0 (running regs3 [] [(0, ctxAt 1 1 1 1)]).ctxs = some (ctxAt 1 1 1 1) ∧
      (ctxAt 1 1 1 1).oj ≤ (running regs3 [] [(0, ctxAt 1 1 1 1)]).job.r ∧ ((2 : Nat) : Int) = (1 : Nat) + (1 : Int) ∧
      2 < (running regs3 [] [(0, ctxAt 1 1 1 1)]).job.w ∧ 2 < (running regs3 [] [(0, ctxAt 1 1 1 1)]).job.h ∧
      (running regs3 [] [(0, ctxAt 1 1 1 1)]).job.inBase + 4 * (2 * 3 + 2) + 4 ≤ 2 ^ 32 := by decide +kernel

/-- OutOfBoundsOffsetIsSkipped: neighbors out of bounds on each of the four sides. -/
theorem witness_offsetOut :
    (running regs3 [] [(0, ctxAt 0 0 (-1) (-1))]).phase = .busy ∧
      cellFind 0 (running regs3 [] [(0, ctxAt 0 0 (-1) (-1))]).ctxs = some (ctxAt 0 0 (-1) (-1)) ∧
      (ctxAt 0 0 (-1) (-1)).oj ≤ (running regs3 [] [(0, ctxAt 0 0 (-1) (-1))]).job.r ∧
      ((0 : Nat) : Int) + (-1) < 0 ∧ (((running regs3 [] []).job.w : Nat) : Int) ≤ ((2 : Nat) : Int) + 1 ∧
      (((running regs3 [] []).job.h : Nat) : Int) ≤ ((2 : Nat) : Int) + 1 := by decide +kernel

/-- FinishStepWritesThePixel: the last pixel. -/
theorem witness_finish :
    (running regs3 [] [(0, ctxAt 2 2 (-1) 2)]).phase = .busy ∧
      cellFind 0 (running regs3 [] [(0, ctxAt 2 2 (-1) 2)]).ctxs = some (ctxAt 2 2 (-1) 2) ∧
      (ctxAt 2 2 (-1) 2).oj = (running regs3 [] [(0, ctxAt 2 2 (-1) 2)]).job.r + 1 ∧
      (running regs3 [] []).job.outBase + 4 * (2 * 3 + 2) + 4 ≤ 2 ^ 32 := by decide +kernel

/-- JobCompleteEntersDone, clause by clause, and a breach. -/
theorem witness_complete :
    (running regs3 [] []).phase = .busy ∧ (running regs3 [] []).job.todo = [] ∧
      (running regs3 [] []).job.pending = 0 ∧ (running regs3 [] []).breach = false ∧
      (running regs3 (grid 3 3) []).job.todo ≠ [] ∧
      (running regs3 [] [(0, ctxAt 0 0 0 0)]).job.pending ≠ 0 ∧ { running regs3 [] [] with breach := true }.breach = true := by
  decide +kernel

/-- BlockIsStillOutsideBusy. -/
theorem witness_blockStill : State.reset.phase ≠ .busy ∧ isBlockTurn .complete = true := by decide

/-- ScanVisitsTheWindowRowByRow: the first and the last offset of a 3x3 window, and the only one of radius 0. -/
theorem witness_scan : 0 < (2 * 0 + 1) * (2 * 0 + 1) ∧ 8 < (2 * 1 + 1) * (2 * 1 + 1) := by decide

/-- WindowOffsetsInBounds. -/
theorem witness_window : 0 < 1 ∧ 2 < 3 := by decide

/-- WeightsAreBoundedAndSymmetric, first clause: offsets at equal distance that no symmetry relates. -/
theorem witness_equalDistance : (3 : Int) * 3 + 4 * 4 = 5 * 5 + 0 * 0 := by decide

/-- WeightsAreBoundedAndSymmetric, WeightsFallWithDistance: an exponential with P1 to P4, denominators that are finite, subnormal and infinite, and the largest offsets. -/
theorem witness_weights :
    ExpLaws unitExp ∧ GoodDenominator (val 0x40000000) ∧ GoodDenominator (val 0x00000001) ∧ GoodDenominator (.inf false) ∧
      |((-2147483648 : Int))| ≤ 2 ^ 31 ∧ (0 : Int) * 0 + 0 * 0 ≤ 2147483648 * 2147483648 + 0 * 0 := by
  refine ⟨unitExp_laws, ?_, ?_, ?_, by norm_num, by norm_num⟩
  all_goals
    unfold GoodDenominator
    decide +kernel

/-- RoundingIsToNearestEven: a denominator, a tie between two patterns, the last value that rounds to a finite one, and a
divisor that is not 0. -/
theorem witness_rounding :
    (2 ^ 277 - 2 ^ 252 - 1 < (2 ^ 277 - 2 ^ 252) * 1 ∧ (⟨1, by decide⟩ : Fin 0x7F800000).val ≠ 0) ∧
    0 < 2 ∧ rndMag 1 2 = 0 ∧ rndMag 3 2 = 2 ∧ |(magUnits 1 * 2 : Int) - 3| = |(magUnits (rndMag 3 2) * 2 : Int) - 3| := by
  decide +kernel

/-- QuantizerRoundsAndSaturates: just below 255.5, and 255.5 itself. -/
theorem witness_quantizer :
    2 * magUnits 0x437F7FFF < 511 * 2 ^ 149 ∧ 511 * 2 ^ 149 ≤ 2 * magUnits 0x437F8000 := by decide +kernel

/-- QuantizerIsMonotone. -/
theorem witness_quantizerMonotone :
    fle (.inf true) (.inf false) = true ∧ fle .negZero .zero = true ∧ fle (val 0x3F000000) (val 0x3F000001) = true := by
  decide +kernel

/-- RadiusZeroIsTheIdentity, TotalWeightIsAtLeastOne, with the least and the greatest radius. -/
theorem witness_pixel : ExpLaws unitExp ∧ GoodDenominator (val 0x40000000) ∧ (0 : Nat) < 2 ^ 31 ∧ 2 ^ 31 - 1 < 2 ^ 31 ∧ 0 < 1 :=
  ⟨unitExp_laws, witness_weights.2.1, by norm_num, by norm_num, by norm_num⟩

/-- ChannelsAreIndependent: two images that agree in three channels and differ in alpha. -/
theorem witness_channels :
    (∀ u v, (whiteCenter u v).r = ((fun x y => { whiteCenter x y with a := 0 }) u v : Rgba Byte).r) ∧
      (whiteCenter 0 0).a ≠ ((fun x y => { whiteCenter x y with a := 0 }) 0 0 : Rgba Byte).a :=
  ⟨fun _ _ => rfl, by decide⟩

/-- The invariant holds of a running job with pixels waiting and a context in mid-scan, for any parameters. -/
theorem witness_inv (P : Params) : MachineInv P (running regs3 [⟨1, 0⟩, ⟨2, 0⟩] [(0, ctxAt 0 0 1 1)]) := by
  refine ⟨wf_nil, ?_, fun h => absurd rfl h, fun _ => ⟨?_, ?_, ?_, ?_, rfl⟩⟩
  · unfold StatusOk; decide
  · unfold Latched; decide +kernel
  · unfold PixelsOk; decide +kernel
  · decide
  · intro e he
    rw [show e = (0, ctxAt 0 0 1 1) from List.mem_singleton.mp he]
    exact ⟨P.lanes_pos, by unfold CtxOk; decide +kernel⟩

/-- EngineAddressesStayInTheirRegions, BusyJobCanAlwaysStep: such a state, its context looking at a neighbor in bounds. -/
theorem witness_addresses (P : Params) :
    MachineInv P (running regs3 [⟨1, 0⟩, ⟨2, 0⟩] [(0, ctxAt 0 0 1 1)]) ∧
      (running regs3 [⟨1, 0⟩, ⟨2, 0⟩] [(0, ctxAt 0 0 1 1)]).phase = .busy ∧
      cellFind 0 (running regs3 [⟨1, 0⟩, ⟨2, 0⟩] [(0, ctxAt 0 0 1 1)]).ctxs = some (ctxAt 0 0 1 1) ∧
      inBounds 3 3 (((0 : Nat) : Int) + 1) (((0 : Nat) : Int) + 1) = true ∧
      inBounds 3 3 (((0 : Nat) : Int) + 0) (((0 : Nat) : Int) + 1) = true :=
  ⟨witness_inv P, rfl, rfl, by decide, by decide⟩

/-- BlockWritesOnlyTheOutputRegion, JobStepsAreBounded: a step of the block from such a state. -/
theorem witness_blockWrites (P : Params) :
    MachineInv P (running regs3 [⟨1, 0⟩, ⟨2, 0⟩] [(0, ctxAt 0 0 1 1)]) ∧ isBlockTurn (.issue 1 ⟨1, 0⟩) = true ∧
      takeTurn P (.issue 1 ⟨1, 0⟩) (running regs3 [⟨1, 0⟩, ⟨2, 0⟩] [(0, ctxAt 0 0 1 1)]) =
        .next (wiIssue P 1 ⟨1, 0⟩ (running regs3 [⟨1, 0⟩, ⟨2, 0⟩] [(0, ctxAt 0 0 1 1)])) ∧
      (outputRegion (running regs3 [] []).job).holds 0x1000 = false :=
  ⟨witness_inv P, rfl, rfl, by decide +kernel⟩

/-- EveryStepKeepsTheInvariant, EngineNeverLeavesTheDataSpace: a step from a running state with the invariant. -/
theorem witness_step :
    MachineInv Config.params { running regs3 [⟨1, 0⟩, ⟨2, 0⟩] [(0, ctxAt 0 0 1 1)] with turns := [.issue 1 ⟨1, 0⟩] } ∧
      ∃ t, step { running regs3 [⟨1, 0⟩, ⟨2, 0⟩] [(0, ctxAt 0 0 1 1)] with turns := [.issue 1 ⟨1, 0⟩] } = .next t :=
  ⟨witness_inv Config.params, _, rfl⟩

/-- StatusInvariantIsKept. -/
theorem witness_statusOk : StatusOk (failed .busFault 0x1010) ∧ ∃ t, step (failed .busFault 0x1010) = .next t := by
  refine ⟨?_, _, rfl⟩
  unfold StatusOk; decide

/-- StartPutsTheJobOnCourse: an idle state with the invariant whose registers start a job. -/
theorem witness_startOnCourse (P : Params) :
    MachineInv P (idle regs3) ∧ (idle regs3).phase ≠ .busy ∧ firstFailingCheck (idle regs3).regs = none ∧
      (idle regs3).regs.width ≠ 0 ∧ (idle regs3).regs.height ≠ 0 := by
  refine ⟨⟨wf_nil, ?_, fun _ => ⟨rfl, rfl, rfl⟩, fun h => by cases h⟩, by decide, by decide +kernel, by decide, by decide⟩
  unfold StatusOk; decide

/-- A running 1x1 job of radius 0 whose one pixel waits. -/
def waiting1 : State := { running regs1 [⟨0, 0⟩] [] with turns := [.host] }

/-- JobStaysOnCourseToTheBlurredImage, the running clause: such a job with the invariant, on course from the memory it
started with, and a step that leaves it running with no breach. -/
theorem witness_onCourse :
    MachineInv Config.params waiting1 ∧ waiting1.phase = .busy ∧ OnCourse Config.params.expF32 [] waiting1 ∧
      ∃ t, step waiting1 = .next t ∧ t.breach = false ∧ t.phase = .busy := by
  refine ⟨⟨wf_nil, ?_, fun h => absurd rfl h, fun _ => ⟨?_, ?_, ?_, fun e he => absurd he (by simp [waiting1, running]), rfl⟩⟩,
    rfl, ⟨fun _ _ => rfl, fun e he => absurd he (by simp [waiting1, running]), ?_⟩, _, rfl, rfl, rfl⟩
  · unfold StatusOk; decide
  · unfold Latched; decide +kernel
  · unfold PixelsOk; decide +kernel
  · decide
  intro x y hx hy hn
  exfalso
  apply hn
  have hx : x < 1 := hx
  have hy : y < 1 := hy
  have : x = 0 ∧ y = 0 := by omega
  rw [this.1, this.2]
  simp [waiting1, running]

/-- The pixel (10, 20, 30, 40) at the input and at the output base: it is its own blur. -/
def written : Memory :=
  [(0x1000, 10), (0x1001, 20), (0x1002, 30), (0x1003, 40), (0x2000, 10), (0x2001, 20), (0x2002, 30), (0x2003, 40)]

/-- A running 1x1 job of radius 0 whose one pixel is written, about to complete. -/
def finished1 : State := { running regs1 [] [] with mem := written, turns := [.complete] }

theorem center_weight (P : Params) : weight P.expF32 (running regs1 [] []).job.d 0 0 = .one := by
  have : exponent (running regs1 [] []).job.d 0 0 = .zero := by decide +kernel
  unfold weight
  rw [this, P.exp_laws.at_zero]

theorem written_words : readWord written 0x1000 = 0x281E140A ∧ readWord written 0x2000 = 0x281E140A := by
  constructor <;> rfl

theorem onCourse_written (P : Params) : OnCourse P.expF32 written finished1 := by
  refine ⟨fun _ _ => rfl, fun e he => absurd he (by simp [finished1, running]), ?_⟩
  intro x y hx hy _ _
  have hx : x < 1 := hx
  have hy : y < 1 := hy
  obtain ⟨rfl, rfl⟩ : x = 0 ∧ y = 0 := by omega
  have hs : scanOffsets 0 = [(0, 0)] := by decide
  have hp : imageAt written 0x1000 1 0 0 = ⟨10, 20, 30, 40⟩ := by
    unfold imageAt
    rw [show pixelAddr 0x1000 1 0 0 = 0x1000 from rfl, written_words.1]
    decide
  have hacc : pixelAcc P.expF32 (imageAt written 0x1000 1) 1 1 0 (running regs1 [] []).job.d 0 0 =
      accAdd .one ⟨10, 20, 30, 40⟩ accZero := by
    unfold pixelAcc
    rw [hs]
    simp only [List.foldl_cons, List.foldl_nil, visit]
    rw [center_weight P]
    have : inBounds 1 1 (((0 : Nat) : Int) + 0) (((0 : Nat) : Int) + 0) = true := by decide
    rw [this, if_pos rfl]
    exact congrArg (fun p => accAdd .one p accZero) hp
  have hpix : jobPixel P.expF32 written (running regs1 [] []).job 0 0 = ⟨10, 20, 30, 40⟩ := by
    show quantize (pixelAcc P.expF32 (imageAt written 0x1000 1) 1 1 0 (running regs1 [] []).job.d 0 0) = _
    rw [hacc]
    decide +kernel
  show readWord written 0x2000 = packPixel (jobPixel P.expF32 written (running regs1 [] []).job 0 0)
  rw [hpix, written_words.2]
  decide

/-- JobStaysOnCourseToTheBlurredImage, the DONE clause: the invariant, on course, and the step that ends the job. -/
theorem witness_onCourse_done :
    MachineInv Config.params finished1 ∧ finished1.phase = .busy ∧ OnCourse Config.params.expF32 written finished1 ∧
      ∃ t, step finished1 = .next t ∧ t.breach = false ∧ t.phase = .done := by
  refine ⟨⟨?_, ?_, fun h => absurd rfl h,
    fun _ => ⟨?_, ?_, ?_, fun e he => absurd he (by simp [finished1, running]), rfl⟩⟩, rfl, onCourse_written _, _, rfl, rfl, rfl⟩
  · unfold Memory.wf; decide
  · unfold StatusOk; decide
  · unfold Latched; decide +kernel
  · unfold PixelsOk; decide +kernel
  · decide

/-- Two contexts at work on different pixels, one about to read, one about to write. -/
def twoAtWork : State := running regs3 [] [(0, ctxAt 0 0 0 0), (1, ctxAt 1 0 (-1) 2)]

/-- ContextStepsCommute: two lanes, and both orders of the two steps. -/
theorem witness_commute :
    (∃ a b c d, takeTurn twoLanes (.context 0) twoAtWork = .next a ∧ takeTurn twoLanes (.context 1) a = .next b ∧
      takeTurn twoLanes (.context 1) twoAtWork = .next c ∧ takeTurn twoLanes (.context 0) c = .next d ∧
      b.phase = .busy ∧ d.phase = .busy) ∧ twoAtWork.phase = .busy ∧ MachineInv twoLanes twoAtWork := by
  refine ⟨⟨_, _, _, _, rfl, rfl, rfl, rfl, rfl, rfl⟩, rfl, wf_nil, ?_, fun h => absurd rfl h,
    fun _ => ⟨?_, ?_, ?_, ?_, rfl⟩⟩
  · unfold StatusOk; decide
  · unfold Latched; decide +kernel
  · unfold PixelsOk; decide +kernel
  · decide
  · unfold CtxOk; decide +kernel

/-- ContextStepsCommute, the reads of R54: a context at a neighbor in bounds of a running job, and an offset of its window whose
read faults. -/
theorem witness_reads :
    MachineInv faultAt1010 (running regs3 [⟨1, 0⟩, ⟨2, 0⟩] [(0, ctxAt 0 0 0 0)]) ∧
      (ctxAt 0 0 0 0).oj ≤ (running regs3 [⟨1, 0⟩, ⟨2, 0⟩] [(0, ctxAt 0 0 0 0)]).job.r ∧
      inBounds 3 3 (((0 : Nat) : Int) + 0) (((0 : Nat) : Int) + 0) = true ∧
      faultAt1010.busFault (neighborAddr (running regs3 [] []).job { ctxAt 0 0 0 0 with oi := 1, oj := 1 }) .read = true := by
  refine ⟨⟨wf_nil, ?_, fun h => absurd rfl h, fun _ => ⟨?_, ?_, ?_, ?_, rfl⟩⟩, by decide +kernel, by decide, by decide +kernel⟩
  · unfold StatusOk; decide
  · unfold Latched; decide +kernel
  · unfold PixelsOk; decide +kernel
  · decide
  · intro e he
    rw [show e = (0, ctxAt 0 0 0 0) from List.mem_singleton.mp he]
    exact ⟨by decide, by unfold CtxOk; decide +kernel⟩

/-- A run that ends a job and then stands in DONE. -/
def endingRun : Nat → State
  | 0 => finished1
  | _ + 1 => { running regs1 [] [] with mem := written, phase := .done }

/-- BusyJobCanAlwaysStep, the fair run: a run of the machine, weakly fair, with no reset and no faulting access, from a running
job with the invariant. -/
theorem witness_fairRun :
    IsRun default endingRun ∧ WeaklyFair default endingRun ∧ (∀ n, nextTurn (endingRun n) ≠ .reset) ∧
      MachineInv default (endingRun 0) ∧ (endingRun 0).phase = .busy ∧ AccessesDoNotFault endingRun := by
  refine ⟨fun n => ?_, fun turn n ht hen => ?_, fun n => ?_,
    ⟨?_, ?_, fun h => absurd rfl h, fun _ => ⟨?_, ?_, ?_, fun e he => absurd he (by simp [endingRun, finished1, running]), rfl⟩⟩,
    rfl, fun _ _ h => by cases h⟩
  · cases n <;> rfl
  · exfalso
    obtain ⟨t, h, hne⟩ := hen (n + 1) (by omega)
    apply hne
    cases turn <;> simp only [isListedTurn, Bool.false_eq_true] at ht
    all_goals (injection h with h; exact h.symm)
  · cases n <;> (unfold nextTurn endingRun; simp [finished1, running, idle, State.reset])
  · unfold Memory.wf; decide
  · unfold StatusOk; decide
  · unfold Latched; decide +kernel
  · unfold PixelsOk; decide +kernel
  · decide

/-- A platform that lets the block read no byte of the output region and write none of the input region of regs3. -/
def protectedInput : Params :=
  { busFault := fun a dir => if dir = .read then decide (0x2000 ≤ a) else decide (a < 0x2000) }

/-- BusyJobCanAlwaysStep, NoBusFaults: the job's own accesses do not fault on a platform that protects its input, and a step of
the block. -/
theorem witness_noBusFaults :
    NoBusFaults protectedInput (running regs3 [⟨1, 0⟩, ⟨2, 0⟩] [(0, ctxAt 0 0 1 1)]).job ∧
      MachineInv protectedInput (running regs3 [⟨1, 0⟩, ⟨2, 0⟩] [(0, ctxAt 0 0 1 1)]) ∧
      protectedInput.busFault 0x1000 .write = true ∧
      ∃ t, takeTurn protectedInput (.context 0) (running regs3 [⟨1, 0⟩, ⟨2, 0⟩] [(0, ctxAt 0 0 1 1)]) = .next t := by
  refine ⟨fun x y hx hy => ?_, witness_inv _, rfl, _, rfl⟩
  have hx : x < 3 := hx
  have hy : y < 3 := hy
  show decide (0x2000 ≤ 0x1000 + 4 * (y * 3 + x)) = false ∧ decide (0x2000 + 4 * (y * 3 + x) < 0x2000) = false
  simp only [decide_eq_false_iff_not]
  omega

/-- HostWriteIntoARunningJobIsABreach: the end of the data space, and the bytes at and just past a region's end. -/
theorem witness_hostWrite :
    (0xFFFFFFFC : Word).toNat + (wordBytes 0).length ≤ 2 ^ 32 ∧
      (running regs3 [] []).phase = .busy ∧ 0x1020 ≤ 0x1023 ∧ 0x1023 < 0x1020 + 4 ∧
      (inputRegion (running regs3 [] []).job).holds 0x1023 = true ∧
      breaches 0x2023 1 (running regs3 [] []) = true ∧ breaches 0x2024 1 (running regs3 [] []) = false := by
  decide +kernel

/-- HostReadsBackWhatItWrote: a word in a region whose duty has ended, and one just past the output of a running job whose
region still waits. -/
theorem witness_readBack :
    (0x2000 : Word).toNat + 4 ≤ 2 ^ 32 ∧
      (∀ a, (0x2000 : Word).toNat ≤ a → a < (0x2000 : Word).toNat + 4 →
        ¬({ idle regs3 with unordered := [⟨0x2000, 36⟩] }.phase = .busy ∧
            (outputRegion { idle regs3 with unordered := [⟨0x2000, 36⟩] }.job).holds a = true) ∧
          ∀ region ∈ { idle regs3 with unordered := [⟨0x2000, 36⟩] }.unread, region.holds a = false) ∧
      ∀ a, (0x2024 : Word).toNat ≤ a → a < (0x2024 : Word).toNat + 4 →
        ¬({ running regs3 [] [] with unread := [⟨0x2000, 36⟩] }.phase = .busy ∧
            (outputRegion { running regs3 [] [] with unread := [⟨0x2000, 36⟩] }.job).holds a = true) ∧
          ∀ region ∈ { running regs3 [] [] with unread := [⟨0x2000, 36⟩] }.unread, region.holds a = false := by
  refine ⟨by decide, fun a _ _ => ⟨by simp [idle, State.reset], by simp [idle, State.reset]⟩, fun a h _ => ⟨?_, ?_⟩⟩
  · rintro ⟨-, hh⟩
    have h : 0x2024 ≤ a := h
    have hh := ((holds_iff _ _).mp hh).2
    have : a < 0x2000 + 36 := hh
    omega
  · intro region hr
    have h : 0x2024 ≤ a := h
    rw [List.mem_singleton.mp hr, Bool.eq_false_iff, ne_eq, holds_iff]
    simp only
    omega

/-- HostReadsSettledBytes: settled bytes beside regions that wait, unsettled bytes at their ends, and
states with each answer of STATUS. -/
theorem witness_hostRead :
    (0xFFFFFFFC : Word).toNat + 4 ≤ 2 ^ 32 ∧
      unsettled { idle regs3 with unread := [⟨0x2000, 36⟩] } 0x2024 = false ∧
      unsettled { idle regs3 with unread := [⟨0x2000, 36⟩] } 0x2023 = true ∧
      unsettled (running regs3 [] []) 0x2023 = true ∧ unsettled (running regs3 [] []) 0x2024 = false ∧
      unsettled { idle regs3 with unordered := [⟨0x2000, 36⟩] } 0x2024 = false ∧
      unsettled { idle regs3 with unordered := [⟨0x2000, 36⟩] } 0x2023 = true ∧
      (failed .busFault 0x1010).phase = .error ∧ { idle regs3 with phase := .done }.phase = .done ∧
      (idle regs3).phase = .idle ∧
      ∀ k, k < 4 → unsettled (idle regs3) (0x1000 + k) = false := by decide +kernel

end Sys2Proof.Tests
end

section
/-!
PROOFS. 00_scope.md R12: `rnd32` rounds to nearest, ties to even, and overflows to infinity; the operations on finite
operands round the exact result.
-/

namespace Sys2Proof.Machine

variable {num den m : Nat}

/-! ### The rounded pattern against the midpoints to other patterns -/

/-- The midpoint to a pattern below is not past the exact value, and is the exact value only where the rounded pattern is
even. -/
theorem midpoint_below_rndMag (hd : 0 < den) (h : m < rndMag num den) :
    (magUnits m + magUnits (rndMag num den)) * den ≤ 2 * num ∧
      ((magUnits m + magUnits (rndMag num den)) * den = 2 * num → rndMag num den % 2 = 0) := by
  obtain ⟨k, hk⟩ : ∃ k, rndMag num den = k + 1 := ⟨rndMag num den - 1, by omega⟩
  have hlast := (lt_rndMag_iff (num := num) k hd).mp (by omega)
  rw [hk]
  have hmk : (magUnits m + magUnits (k + 1)) * den ≤ (magUnits k + magUnits (k + 1)) * den :=
    Nat.mul_le_mul_right _ (Nat.add_le_add_right (magUnits_strictMono.monotone (by omega)) _)
  omega

/-- The midpoint to a pattern above is not short of the exact value, and is the exact value only where the rounded pattern
is even. -/
theorem midpoint_above_rndMag (hd : 0 < den) (h : rndMag num den < m) :
    2 * num ≤ (magUnits m + magUnits (rndMag num den)) * den ∧
      ((magUnits m + magUnits (rndMag num den)) * den = 2 * num → rndMag num den % 2 = 0) := by
  have hnext := mt (lt_rndMag_iff (rndMag num den) hd).mpr (lt_irrefl _)
  generalize rndMag num den = r at *
  have hrm : (magUnits r + magUnits (r + 1)) * den ≤ (magUnits m + magUnits r) * den := by
    rw [Nat.add_comm (magUnits m)]
    exact Nat.mul_le_mul_right _ (Nat.add_le_add_left (magUnits_strictMono.monotone h) _)
  omega

/-! ### Nearest, ties to even -/

/-- No pattern is nearer to the exact value than the rounded one. -/
theorem rndMag_nearest (hd : 0 < den) (m : Nat) :
    |(magUnits (rndMag num den) * den : Int) - num| ≤ |(magUnits m * den : Int) - num| := by
  rcases Nat.lt_trichotomy m (rndMag num den) with h | h | h
  · have hmid := (midpoint_below_rndMag hd h).1
    have hlt := Nat.mul_lt_mul_of_pos_right (magUnits_strictMono h) hd
    zify at hmid hlt
    calc _ ≤ (num - magUnits m * den : Int) := abs_le.mpr ⟨by linarith, by linarith⟩
      _ ≤ _ := abs_sub_comm (num : Int) _ ▸ le_abs_self _
  · rw [h]
  · have hmid := (midpoint_above_rndMag hd h).1
    have hlt := Nat.mul_lt_mul_of_pos_right (magUnits_strictMono h) hd
    zify at hmid hlt
    calc _ ≤ (magUnits m * den - num : Int) := abs_le.mpr ⟨by linarith, by linarith⟩
      _ ≤ _ := le_abs_self _

/-- Where another pattern is as near, the exact value is the midpoint of the two, and the rounded pattern is even. -/
theorem rndMag_even_of_tie (hd : 0 < den) (hne : m ≠ rndMag num den)
    (htie : |(magUnits m * den : Int) - num| = |(magUnits (rndMag num den) * den : Int) - num|) :
    rndMag num den % 2 = 0 := by
  have hmid : (magUnits m + magUnits (rndMag num den)) * den = 2 * num := by
    rcases abs_eq_abs.mp htie with h | h
    · have heq : magUnits m * den = magUnits (rndMag num den) * den := by zify; linarith
      exact absurd (magUnits_strictMono.injective (Nat.eq_of_mul_eq_mul_right hd heq)) hne
    · zify; linarith
  rcases Nat.lt_or_gt_of_ne hne with h | h
  · exact (midpoint_below_rndMag hd h).2 hmid
  · exact (midpoint_above_rndMag hd h).2 hmid

/-! ### Overflow -/

/-- The midpoint between the largest finite magnitude and the pattern of infinity, read as 2^128: 2^128 * (1 - 2^-25). -/
theorem overflow_midpoint : magUnits 0x7F7FFFFF + magUnits 0x7F800000 = 2 * (2 ^ 277 - 2 ^ 252) := by
  have hmax := magUnits_scaled 253 (2 ^ 24 - 1) (by norm_num) (by norm_num)
  have hinf := magUnits_scaled 253 (2 ^ 24) (by norm_num) (by norm_num)
  have hpow : 2 ^ 277 = 2 ^ 25 * 2 ^ 252 := by rw [← pow_add]
  norm_num only at hmax hinf
  rw [hmax, hinf, hpow]
  norm_num only

/-- The rounded pattern leaves the finite range exactly from that midpoint on: the largest finite pattern is odd. -/
theorem infPattern_le_rndMag_iff (hd : 0 < den) :
    0x7F800000 ≤ rndMag num den ↔ (2 ^ 277 - 2 ^ 252) * den ≤ num := by
  have h := lt_rndMag_iff (num := num) 0x7F7FFFFF hd
  rw [overflow_midpoint, Nat.mul_assoc] at h
  generalize (2 ^ 277 - 2 ^ 252) * den = bound at *
  omega

theorem rnd32_eq_inf_iff (neg : Bool) (hd : 0 < den) :
    rnd32 neg num den = .inf neg ↔ (2 ^ 277 - 2 ^ 252) * den ≤ num := by
  rw [← infPattern_le_rndMag_iff hd, ← not_lt, rnd32]
  by_cases h : rndMag num den < 0x7F800000
  · simp [ofMag_of_lt neg h, h]
  · simp [ofMag_of_ge neg h, h]

theorem rnd32_eq_fin (neg : Bool) (hd : 0 < den) (h : num < (2 ^ 277 - 2 ^ 252) * den) :
    ∃ hm : rndMag num den < 0x7F800000, rnd32 neg num den = .fin neg ⟨rndMag num den, hm⟩ :=
  have hm := lt_of_not_ge (mt (infPattern_le_rndMag_iff hd).mp (not_le.mpr h))
  ⟨hm, ofMag_of_lt neg hm⟩

/-! ### The operations on finite operands -/

theorem ofMag_zero (neg : Bool) : ofMag neg 0 = if neg = true then .negZero else .zero := by
  cases neg <;> rfl

/-- The sum of two finite values: the exact sum rounded, a zero sum being -0 only of two negative operands. -/
theorem fadd_fin (s t : Bool) (m n : Fin 0x7F800000) : fadd (.fin s m) (.fin t n) =
    if signedUnits s m.val + signedUnits t n.val = 0 then (if s = true ∧ t = true then .negZero else .zero)
    else rnd32 (decide (signedUnits s m.val + signedUnits t n.val < 0))
      (signedUnits s m.val + signedUnits t n.val).natAbs 1 := by
  simp only [fadd, ofMag_zero, Bool.and_eq_true]

/-- Settles O41: rounding is read off `lt_rndMag_iff`, by comparing the exact value with the midpoints beside the rounded
pattern; the operations on finite operands are that rounding of the exact result. -/
theorem roundingIsToNearestEven : Obligations.RoundingIsToNearestEven := by
  unfold Obligations.RoundingIsToNearestEven
  refine ⟨fun num den hd => ⟨rndMag_nearest hd, fun m => rndMag_even_of_tie hd, fun neg => rnd32_eq_inf_iff neg hd,
    fun neg => rnd32_eq_fin neg hd⟩, fadd_fin, ?_, fdiv_fin, ?_⟩
  · intro s t m n
    rfl
  · intro z
    rfl

end Sys2Proof.Machine
end

section
/-!
PROOFS. 10_state.md: the reset state, what a transaction that is no command leaves alone (R25), and the invariants that
every step of every agent keeps (R27, R34, R36).
-/

namespace Sys2Proof.Machine

/-! ### Reset, and the transactions that are no commands -/

/-- Settles O28: each value is the reset value as it is written. -/
theorem resetStateValues : Obligations.ResetStateValues :=
  ⟨rfl, rfl, rfl, rfl, cellFind_nil, rfl, rfl⟩

/-- Settles O17: a transaction that is no command writes a parameter register, settles the output regions, or only
answers. -/
theorem onlyCommandsChangeTheJob : Obligations.OnlyCommandsChangeTheJob := by
  unfold Obligations.OnlyCommandsChangeTheJob
  intro i s t hi h
  cases i
  case wrCmd | nop | start | clear | badCommand => cases hi
  all_goals
    injection h with h
    subst h
    simp

/-! ### What every turn keeps

An invariant of the block is kept by every turn once it is kept by what `BlockStep`, `HostStep`, `hostTurn_cases` and the
reset input can do. -/

/-- The property reads nothing but the block, and each thing that a turn can do to the block keeps it. -/
structure KeptByTurns (P : Params) (Inv : State → Prop) : Prop where
  same : ∀ {s t}, SameBlock s t → Inv s → Inv t
  block : ∀ {s t}, BlockStep P s t → Inv s → Inv t
  params : ∀ {s} (g : Regs), s.phase ≠ .busy → Inv s → Inv { s with regs := g }
  start : ∀ {s}, s.phase ≠ .busy → Inv s → Inv (startJob s)
  clear : ∀ {s}, s.phase ≠ .busy → Inv s → Inv (clearStatus s)
  badCommand : ∀ {s}, s.phase ≠ .busy → Inv s → Inv (raiseError .badCommand 0 s)
  hostWrite : ∀ {s} (addr : Nat) (bytes : List Byte), Inv s → Inv { s with mem := writeBytes addr bytes s.mem }
  reset : ∀ {s}, Inv s → Inv (resetBlock s)

theorem sameBlock_respondOk (s : State) : SameBlock s (respondOk s) := ⟨rfl, rfl, rfl, rfl, rfl, rfl, rfl⟩

theorem sameBlock_hostGoto (n : Nat) (s : State) : SameBlock s (hostGoto n s) := ⟨rfl, rfl, rfl, rfl, rfl, rfl, rfl⟩

namespace KeptByTurns

variable {P : Params} {Inv : State → Prop} {s t : State} {turn : Turn}

theorem of_hostStep (kept : KeptByTurns P Inv) (hs : Inv s) (h : HostStep s t) : Inv t := by
  cases h with
  | same hsame => exact kept.same hsame hs
  | param p data idle => exact kept.same (sameBlock_respondOk _) (kept.params _ idle hs)
  | start idle => exact kept.same (sameBlock_respondOk _) (kept.start idle hs)
  | clear idle => exact kept.same (sameBlock_respondOk _) (kept.clear idle hs)
  | badCommand idle => exact kept.same (sameBlock_respondOk _) (kept.badCommand idle hs)

theorem of_hostTurn (kept : KeptByTurns P Inv) (hs : Inv s) (h : hostTurn s = .next t) : Inv t := by
  rcases hostTurn_cases h with ⟨hsame, -⟩ | ⟨i, n, hexec⟩ | ⟨addr, bytes, n, -, rfl⟩
  · exact kept.same hsame hs
  · exact kept.of_hostStep (kept.same (sameBlock_hostGoto n s) hs) (exec_cases hexec)
  · refine kept.same ?_ (kept.hostWrite addr.toNat bytes hs)
    exact ⟨rfl, rfl, rfl, rfl, rfl, rfl, rfl⟩

theorem of_takeTurn (kept : KeptByTurns P Inv) (hs : Inv s) (h : takeTurn P turn s = .next t) : Inv t := by
  cases turn with
  | host => exact kept.of_hostTurn hs h
  | reset => injection h with h; subst h; exact kept.reset hs
  | issue | context | fetch | held | complete => exact kept.block (takeTurn_block rfl h) hs

theorem of_step (kept : KeptByTurns Config.params Inv) (hs : Inv s) (h : step s = .next t) : Inv t :=
  kept.of_takeTurn (kept.same (popTurn_same s).1 hs) h

end KeptByTurns

variable {P : Params} {s t : State}

/-! ### Memory stays canonical -/

theorem resetBlock_mem (s : State) :
    (resetBlock s).mem = if s.phase = .busy then (havocOutput s).mem else s.mem := by
  unfold resetBlock
  split <;> rfl

theorem blockStep_wf (h : BlockStep P s t) (hs : Memory.wf s.mem) : Memory.wf t.mem := by
  cases h with
  | still | issue | offsetIn | offsetOut => exact hs
  | finish => exact writeWord_wf _ _ hs
  | fault => exact havoc_wf _ hs
  | complete =>
    split
    · exact havoc_wf _ hs
    · exact hs

theorem memory_wf_kept (P : Params) : KeptByTurns P fun s => Memory.wf s.mem where
  same hsame hs := hsame.mem ▸ hs
  block := blockStep_wf
  params _ _ hs := hs
  start _ hs := (startJob_frame _).1.symm ▸ hs
  clear _ hs := hs
  badCommand _ hs := hs
  hostWrite _ _ hs := writeBytes_wf _ _ hs
  reset hs := by
    rw [resetBlock_mem]
    split
    · exact havoc_wf _ hs
    · exact hs

/-! ### STATE, ECODE and ERR_ADDR agree -/

/-- Outside ERROR, R27 leaves no error code and no error address. -/
theorem statusOk_iff_of_ne_error (h : s.phase ≠ .error) : StatusOk s ↔ s.ecode = .noError ∧ s.errAddr = 0 := by
  unfold StatusOk
  constructor
  · rintro ⟨hphase, haddr⟩
    have hcode : s.ecode = .noError := not_not.mp (mt hphase.mpr h)
    refine ⟨hcode, not_not.mp fun hne => ?_⟩
    cases hcode.symm.trans (haddr hne)
  · rintro ⟨hcode, haddr⟩
    simp [h, hcode, haddr]

theorem statusOk_raiseError {code : ECode} {addr : Word} (hcode : code ≠ .noError) (haddr : addr ≠ 0 → code = .busFault)
    (s : State) : StatusOk (raiseError code addr s) :=
  ⟨⟨fun _ => hcode, fun _ => rfl⟩, haddr⟩

theorem statusOk_startJob (s : State) : StatusOk (startJob s) := by
  unfold startJob
  split
  · next code hv => exact statusOk_raiseError (validate_code hv).1 (absurd rfl) s
  · refine (statusOk_iff_of_ne_error ?_).mpr ⟨rfl, rfl⟩
    simp only [setupJob]
    split <;> decide

theorem blockStep_statusOk (h : BlockStep P s t) (hs : StatusOk s) : StatusOk t := by
  cases h with
  | still | issue | offsetIn | offsetOut | finish => exact hs
  | fault => exact statusOk_raiseError (by decide) (fun _ => rfl) _
  | complete busy =>
    have hclean := (statusOk_iff_of_ne_error (by simp [busy])).mp hs
    split <;> exact (statusOk_iff_of_ne_error (by simp)).mpr hclean

theorem statusOk_kept (P : Params) : KeptByTurns P StatusOk where
  same hsame hs := by
    unfold StatusOk
    rw [hsame.phase, hsame.ecode, hsame.errAddr]
    exact hs
  block := blockStep_statusOk
  params _ _ hs := hs
  start _ _ := statusOk_startJob _
  clear _ _ := (statusOk_iff_of_ne_error (by simp)).mpr ⟨rfl, rfl⟩
  badCommand _ _ := statusOk_raiseError (by decide) (absurd rfl) _
  hostWrite _ _ hs := hs
  reset _ := (statusOk_iff_of_ne_error (by simp [resetBlock])).mpr ⟨rfl, rfl⟩

/-- Settles O51: every turn keeps R27, with no other invariant needed. -/
theorem statusInvariantIsKept : Obligations.StatusInvariantIsKept :=
  fun _ _ => (statusOk_kept Config.params).of_step

/-! ### The job's parameters stay those that START checked -/

theorem latched_setupJob {o : Operands} (ho : operandsOf s.regs = o) (hv : validate o = none) :
    Latched (setupJob o s) := by
  subst ho
  exact ⟨hv, rfl⟩

/-- R34: what a running job changes of its own state is which pixels wait and how many are pending. -/
theorem Latched.of_progress (h : Latched s) {todo : List Pixel} {pending : Nat} (hregs : t.regs = s.regs)
    (hjob : t.job = { s.job with todo := todo, pending := pending }) : Latched t := by
  obtain ⟨hvalid, hcopies⟩ := h
  refine ⟨hregs ▸ hvalid, ?_⟩
  rw [hregs, hjob, hcopies]

/-! ### Every pixel is in one place -/

/-- The pixels that the contexts work on. -/
def ctxPixels (s : State) : List Pixel := s.ctxs.map fun e => ctxPixel e.2

/-- No pixel is listed twice among those that wait and those in a context, and those that wait lie in the image. -/
theorem pixelsOk_iff :
    PixelsOk s ↔ (s.job.todo ++ ctxPixels s).Nodup ∧ ∀ p ∈ s.job.todo, p.x < s.job.w ∧ p.y < s.job.h := by
  have hdisjoint : s.job.todo.Disjoint (ctxPixels s) ↔ ∀ e ∈ s.ctxs, ctxPixel e.2 ∉ s.job.todo := by
    rw [List.disjoint_comm, List.disjoint_left, ctxPixels, List.forall_mem_map]
  rw [List.nodup_append', hdisjoint]
  unfold PixelsOk ctxPixels
  tauto

theorem pixelsOk_setupJob (o : Operands) (h : s.ctxs = []) : PixelsOk (setupJob o s) := by
  rw [pixelsOk_iff, ctxPixels]
  simp [setupJob, h, jobOf, nodup_grid, mem_grid]

/-- WI_ISSUE moves a pixel from those that wait to those in a context. -/
theorem PixelsOk.issue (h : PixelsOk s) {k : Nat} {p : Pixel} {pending : Nat} (hp : p ∈ s.job.todo)
    (hfree : cellFind k s.ctxs = none)
    (hjob : t.job = { s.job with todo := s.job.todo.erase p, pending := pending })
    (hctxs : t.ctxs = cellSet k (freshCtx s.job.r p) s.ctxs) : PixelsOk t := by
  obtain ⟨hnodup, hin⟩ := pixelsOk_iff.mp h
  have hpixels : (ctxPixels t).Perm (p :: ctxPixels s) := by
    rw [ctxPixels, hctxs]
    exact (cellSet_perm _ hfree).map _
  have hperm : (t.job.todo ++ ctxPixels t).Perm (s.job.todo ++ ctxPixels s) := by
    rw [hjob]
    have hmoved := hpixels.append_left (s.job.todo.erase p)
    exact hmoved.trans (List.perm_middle.trans ((List.perm_cons_erase hp).symm.append_right _))
  refine pixelsOk_iff.mpr ⟨hperm.nodup_iff.mpr hnodup, fun q hq => ?_⟩
  rw [hjob] at hq ⊢
  exact hin q (List.mem_of_mem_erase hq)

/-- A WI_OFFSET step leaves every pixel where it is. -/
theorem PixelsOk.put (h : PixelsOk s) (hr : Rising s.ctxs) {k : Nat} {c c' : Ctx} (hc : cellFind k s.ctxs = some c)
    (hp : ctxPixel c' = ctxPixel c) : PixelsOk (putCtx k c' s) := by
  have hpixels : ctxPixels (putCtx k c' s) = ctxPixels s := map_cellSet_old ctxPixel hr hc hp
  rw [pixelsOk_iff, hpixels]
  exact pixelsOk_iff.mp h

/-- WI_FINISH takes one pixel out of its context. -/
theorem PixelsOk.finish (h : PixelsOk s) {k pending : Nat} (hjob : t.job = { s.job with pending := pending })
    (hctxs : t.ctxs = cellErase k s.ctxs) : PixelsOk t := by
  obtain ⟨hnodup, hin⟩ := pixelsOk_iff.mp h
  have hpixels : (ctxPixels t).Sublist (ctxPixels s) := by
    rw [ctxPixels, hctxs]
    exact (cellErase_sublist k s.ctxs).map _
  rw [pixelsOk_iff, hjob]
  exact ⟨hnodup.sublist (hpixels.append_left _), hin⟩

/-! ### Every context stands in its window -/

theorem ctxOk_freshCtx {job : Job} {p : Pixel} (hr : 0 ≤ job.r) (hx : p.x < job.w) (hy : p.y < job.h) :
    CtxOk job (freshCtx job.r p) := by
  refine ⟨hx, hy, ?_⟩
  simp only [freshCtx]
  omega

theorem contextsOk_setupJob (P : Params) (o : Operands) (h : s.ctxs = []) : ContextsOk P (setupJob o s) := by
  simp [ContextsOk, Rising, setupJob, h, jobOf]

theorem ContextsOk.issue (h : ContextsOk P s) {k : Nat} {p : Pixel} {todo : List Pixel} (hlane : k < P.lanes)
    (hfree : cellFind k s.ctxs = none) (hfresh : CtxOk s.job (freshCtx s.job.r p))
    (hjob : t.job = { s.job with todo := todo, pending := s.job.pending + 1 })
    (hctxs : t.ctxs = cellSet k (freshCtx s.job.r p) s.ctxs) : ContextsOk P t := by
  obtain ⟨hrising, heach, hcount⟩ := h
  rw [ContextsOk, hjob, hctxs]
  refine ⟨rising_cellSet _ _ hrising, fun e he => ?_, ?_⟩
  · rcases mem_cellSet he with rfl | he
    · exact ⟨hlane, hfresh⟩
    · exact heach e he
  · rw [length_cellSet_new _ hfree, hcount]

theorem ContextsOk.put (h : ContextsOk P s) {k : Nat} {c c' : Ctx} (hc : cellFind k s.ctxs = some c)
    (hok : CtxOk s.job c') : ContextsOk P (putCtx k c' s) := by
  obtain ⟨hrising, heach, hcount⟩ := h
  refine ⟨rising_cellSet _ _ hrising, fun e he => ?_, ?_⟩
  · rcases mem_cellSet he with rfl | he
    · exact ⟨(heach _ (cellFind_mem hc)).1, hok⟩
    · exact heach e he
  · rw [putCtx_ctxs, length_cellSet_old _ hrising hc]
    exact hcount

theorem ContextsOk.finish (h : ContextsOk P s) {k : Nat} {c : Ctx} (hc : cellFind k s.ctxs = some c)
    (hjob : t.job = { s.job with pending := s.job.pending - 1 }) (hctxs : t.ctxs = cellErase k s.ctxs) :
    ContextsOk P t := by
  obtain ⟨hrising, heach, hcount⟩ := h
  rw [ContextsOk, hjob, hctxs]
  refine ⟨rising_cellErase _ hrising, fun e he => heach e (mem_of_mem_cellErase he), ?_⟩
  have := length_cellErase hc
  simp only
  omega

/-! ### A job in BUSY, none outside it -/

/-- The part of the invariant that speaks of the job. -/
def JobInv (P : Params) (s : State) : Prop :=
  (s.phase ≠ .busy → NoJob s) ∧ (s.phase = .busy → Latched s ∧ PixelsOk s ∧ ContextsOk P s)

theorem machineInv_iff : MachineInv P s ↔ Memory.wf s.mem ∧ StatusOk s ∧ JobInv P s := Iff.rfl

theorem jobInv_of_noJob (hidle : s.phase ≠ .busy) (h : NoJob s) : JobInv P s := ⟨fun _ => h, fun hb => absurd hb hidle⟩

theorem jobInv_of_busy (hbusy : s.phase = .busy) (hl : Latched s) (hp : PixelsOk s) (hc : ContextsOk P s) :
    JobInv P s :=
  ⟨fun hidle => absurd hbusy hidle, fun _ => ⟨hl, hp, hc⟩⟩

theorem jobInv_raiseError (P : Params) (code : ECode) (addr : Word) (s : State) : JobInv P (raiseError code addr s) :=
  jobInv_of_noJob (by simp) ⟨rfl, rfl, rfl⟩

/-- WI_OFFSET, in bounds or out of bounds, whatever it accumulates. -/
theorem JobInv.offset (h : JobInv P s) (busy : s.phase = .busy) {k : Nat} {c : Ctx} (acc : Accum)
    (hc : cellFind k s.ctxs = some c) (hscan : c.oj ≤ s.job.r) :
    JobInv P (putCtx k (advance s.job.r { c with acc := acc }) s) := by
  obtain ⟨hlatched, hpixels, hcontexts⟩ := h.2 busy
  have ⟨hrising, heach, _⟩ := hcontexts
  have hok : CtxOk s.job { c with acc := acc } := (heach _ (cellFind_mem hc)).2
  have hmoved := ctxOk_advance (latched_bounds hlatched).1 hok hscan
  exact jobInv_of_busy busy hlatched (hpixels.put hrising hc (by simp [ctxPixel])) (hcontexts.put hc hmoved)

theorem blockStep_jobInv (h : BlockStep P s t) (hs : JobInv P s) : JobInv P t := by
  cases h with
  | still => exact hs
  | issue k p busy waiting lane free =>
    obtain ⟨hlatched, hpixels, hcontexts⟩ := hs.2 busy
    obtain ⟨hx, hy⟩ := (pixelsOk_iff.mp hpixels).2 p waiting
    have hfresh := ctxOk_freshCtx (latched_bounds hlatched).1 hx hy
    exact jobInv_of_busy busy (hlatched.of_progress rfl rfl) (hpixels.issue waiting free rfl rfl)
      (hcontexts.issue lane free hfresh rfl rfl)
  | offsetIn k c busy valid scan => exact hs.offset busy _ valid scan
  | offsetOut k c busy valid scan => exact hs.offset busy c.acc valid scan
  | finish k c busy valid =>
    obtain ⟨hlatched, hpixels, hcontexts⟩ := hs.2 busy
    exact jobInv_of_busy busy (hlatched.of_progress rfl rfl) (hpixels.finish rfl rfl) (hcontexts.finish valid rfl rfl)
  | fault a => exact jobInv_raiseError P _ _ _
  | complete busy issued finished =>
    obtain ⟨-, -, -, -, hcount⟩ := hs.2 busy
    have hnone : NoJob s := ⟨issued, finished, List.length_eq_zero_iff.mp (hcount ▸ finished)⟩
    split <;> exact jobInv_of_noJob (by simp) hnone

theorem jobInv_startJob (idle : s.phase ≠ .busy) (hs : JobInv P s) : JobInv P (startJob s) := by
  unfold startJob
  split
  · exact jobInv_raiseError P _ _ s
  · next hv =>
    obtain ⟨-, -, hctxs⟩ := hs.1 idle
    by_cases hempty : pixelCount (operandsOf s.regs).w (operandsOf s.regs).h = 0
    · have htodo : grid (operandsOf s.regs).w (operandsOf s.regs).h = [] :=
        List.length_eq_zero_iff.mp ((length_grid _ _).trans hempty)
      exact jobInv_of_noJob (by simp [setupJob, hempty]) ⟨htodo, rfl, hctxs⟩
    · exact jobInv_of_busy (by simp [setupJob, hempty]) (latched_setupJob rfl hv) (pixelsOk_setupJob _ hctxs)
        (contextsOk_setupJob P _ hctxs)

theorem SameBlock.jobInv (h : SameBlock s t) (hs : JobInv P s) : JobInv P t := by
  unfold JobInv NoJob Latched PixelsOk ContextsOk
  rw [h.phase, h.job, h.ctxs, h.regs]
  exact hs

theorem jobInv_kept (P : Params) : KeptByTurns P (JobInv P) where
  same := SameBlock.jobInv
  block := blockStep_jobInv
  params _ idle hs := jobInv_of_noJob idle (hs.1 idle)
  start := jobInv_startJob
  clear idle hs := jobInv_of_noJob (by simp) (hs.1 idle)
  badCommand _ _ := jobInv_raiseError P _ _ _
  hostWrite _ _ hs := hs
  reset _ := jobInv_of_noJob (by simp [resetBlock]) ⟨rfl, rfl, rfl⟩

/-! ### The whole invariant -/

/-- Settles O49: at reset memory is empty, there is no error and no job. -/
theorem invariantHoldsAtReset : Obligations.InvariantHoldsAtReset := by
  unfold Obligations.InvariantHoldsAtReset
  intro P
  have hstatus : StatusOk State.reset := (statusOk_iff_of_ne_error (by decide)).mpr ⟨rfl, rfl⟩
  exact machineInv_iff.mpr ⟨wf_nil, hstatus, jobInv_of_noJob (by decide) ⟨rfl, rfl, rfl⟩⟩

/-- Settles O50: memory's form, R27 and the state of the job are three invariants, each kept by every turn on its own. -/
theorem everyStepKeepsTheInvariant : Obligations.EveryStepKeepsTheInvariant := by
  unfold Obligations.EveryStepKeepsTheInvariant
  intro s t hs h
  obtain ⟨hmem, hstatus, hjob⟩ := machineInv_iff.mp hs
  exact machineInv_iff.mpr ⟨(memory_wf_kept Config.params).of_step hmem h, (statusOk_kept Config.params).of_step hstatus h,
    (jobInv_kept Config.params).of_step hjob h⟩

end Sys2Proof.Machine
end

section
/-!
PROOFS. 20_memory.md: what the block does to the data space. Outside BUSY it makes no access (R62, R236), in BUSY it writes
the output region alone (R55, R147), and the memory that START finds is the one that its job is measured against (R61).
-/

namespace Sys2Proof.Machine

open Sys2Proof.Slice0

variable {P : Params} {s t : State}

/-! ### Outside BUSY -/

theorem contextTurn_of_not_busy (P : Params) (k : Nat) (idle : s.phase ≠ .busy) : contextTurn P k s = .next s := by
  unfold contextTurn
  split
  · rfl
  · rw [if_neg idle]

theorem fetchTurn_of_not_busy (P : Params) (k : Nat) (oi oj : Int) (idle : s.phase ≠ .busy) :
    fetchTurn P k oi oj s = .next s := by
  rcases fetchTurn_cases P k oi oj s with hstill | ⟨c, -, hfetch, -⟩
  · exact hstill
  · obtain ⟨hprocesses, -⟩ := (canFetch_iff c oi oj s).mp hfetch
    exact absurd ((processes_iff c s).mp hprocesses).1 idle

/-- Settles O36: the conditions of WI_ISSUE, of a context's steps and of JOB_COMPLETE each ask for BUSY. -/
theorem blockIsStillOutsideBusy : Obligations.BlockIsStillOutsideBusy := by
  unfold Obligations.BlockIsStillOutsideBusy
  intro P turn s idle hblock
  cases turn with
  | host | reset => cases hblock
  | issue k p => simp [takeTurn, wiIssue, canIssue_iff, idle]
  | context k => exact contextTurn_of_not_busy P k idle
  | fetch k oi oj => exact fetchTurn_of_not_busy P k oi oj idle
  | held k =>
    simp only [takeTurn, heldTurn, processes_iff, idle, false_and, if_false]
    split <;> rfl
  | complete => simp [takeTurn, jobComplete, canComplete_iff, idle]

/-! ### The bytes that the block writes -/

/-- R36: the invariant places every valid context in the image and its window. -/
theorem ContextsOk.ctxOk (h : ContextsOk P s) {k : Nat} {c : Ctx} (hc : cellFind k s.ctxs = some c) :
    CtxOk s.job c := by
  obtain ⟨-, heach, -⟩ := h
  exact (heach _ (cellFind_mem hc)).2

theorem outputAddr_region {job : Job} {c : Ctx} (h : CtxOk job c) :
    (outputRegion job).base ≤ outputAddr job c ∧
      outputAddr job c + 4 ≤ (outputRegion job).base + (outputRegion job).len := by
  obtain ⟨hx, hy, -⟩ := h
  exact pixelAddr_region hx hy

/-- A word of a region is none of the bytes outside it. -/
theorem readByte_writeWord_outside {region : Region} {a a' : Nat} (v : Word) (m : Memory)
    (hword : region.base ≤ a ∧ a + 4 ≤ region.base + region.len) (hout : region.holds a' = false) :
    readByte (writeWord a v m) a' = readByte m a' := by
  apply readByte_writeWord_out
  rw [Bool.eq_false_iff, ne_eq, holds_iff] at hout
  omega

/-- R55, R147: a step of the block stores the word of a finished context, havocs the output region, or stores nothing. -/
theorem blockStep_readByte_outside (h : BlockStep P s t) (hs : JobInv P s) {a : Nat}
    (hout : (outputRegion s.job).holds a = false) : readByte t.mem a = readByte s.mem a := by
  cases h with
  | still | issue | offsetIn | offsetOut => rfl
  | finish k c busy valid =>
    obtain ⟨-, -, hcontexts⟩ := hs.2 busy
    exact readByte_writeWord_outside _ _ (outputAddr_region (hcontexts.ctxOk valid)) hout
  | fault => exact readByte_havoc_out _ s hout
  | complete =>
    split
    · exact readByte_havoc_out _ s hout
    · rfl

/-- Settles O48: `BlockStep` lists what a turn of the block can do, and the invariant keeps WI_FINISH in the region. -/
theorem blockWritesOnlyTheOutputRegion : Obligations.BlockWritesOnlyTheOutputRegion := by
  unfold Obligations.BlockWritesOnlyTheOutputRegion
  intro P turn s t hinv hblock h a hout
  obtain ⟨-, -, hjob⟩ := machineInv_iff.mp hinv
  exact blockStep_readByte_outside (takeTurn_block hblock h) hjob hout

/-! ### A START that begins a job -/

/-- R141: the checks as the statements write them on the registers are START's own, in the same order. -/
theorem firstFailingCheck_eq_validate (g : Regs) : firstFailingCheck g = validate (operandsOf g) :=
  if_congr (badParameter_iff (operandsOf g)).symm rfl <| if_congr (badLength_iff (operandsOf g)).symm rfl <|
    if_congr (badAlignment_iff (operandsOf g)).symm rfl <| if_congr (badRange_iff (operandsOf g)).symm rfl <|
      if_congr (badOverlap_iff (operandsOf g)).symm rfl rfl

theorem startJob_of_valid (h : validate (operandsOf s.regs) = none) : startJob s = setupJob (operandsOf s.regs) s := by
  unfold startJob
  rw [h]

theorem exec_start_of_not_busy (idle : s.phase ≠ .busy) : exec .start s = .next (respondOk (startJob s)) := by
  simp [exec, execStart, command, idle]

theorem setupJob_phase_of_pixels {o : Operands} (hw : o.w ≠ 0) (hh : o.h ≠ 0) (s : State) :
    (setupJob o s).phase = .busy :=
  if_neg (Nat.mul_ne_zero hw hh)

/-- R61, R142: at setup no byte has changed, no context is valid and every pixel of the image waits, so nothing is owed yet. -/
theorem onCourse_setupJob (exp : F32 → F32) (o : Operands) (hctxs : s.ctxs = []) :
    OnCourse exp s.mem (setupJob o s) := by
  have hctxs' : (setupJob o s).ctxs = [] := hctxs
  refine ⟨fun _ _ => rfl, ?_, fun x y hx hy hissued => ?_⟩
  · simp [hctxs']
  · exact absurd ((mem_grid o.w o.h ⟨x, y⟩).mpr ⟨hx, hy⟩) hissued

/-- Settles O53: START is setup, and outside BUSY the invariant leaves no context that setup would take over. -/
theorem startPutsTheJobOnCourse : Obligations.StartPutsTheJobOnCourse := by
  unfold Obligations.StartPutsTheJobOnCourse
  intro P s hinv idle hchecks hwidth hheight
  obtain ⟨-, -, hjob⟩ := machineInv_iff.mp hinv
  obtain ⟨-, -, hctxs⟩ := hjob.1 idle
  rw [firstFailingCheck_eq_validate] at hchecks
  have hw : (operandsOf s.regs).w ≠ 0 := BitVec.toNat_ne_iff_ne.mpr hwidth
  have hh : (operandsOf s.regs).h ≠ 0 := BitVec.toNat_ne_iff_ne.mpr hheight
  have hstart : exec .start s = .next (respondOk (setupJob (operandsOf s.regs) s)) := by
    rw [exec_start_of_not_busy idle, startJob_of_valid hchecks]
  exact ⟨_, hstart, setupJob_phase_of_pixels hw hh s, rfl, onCourse_setupJob P.expF32 _ hctxs⟩

end Sys2Proof.Machine
end

section
/-!
PROOFS. 30_encoding.md R71 to R74: a frame and the instruction it decodes to stand for each other, and the opcode table's
match and mask columns say the same as the decoder.
-/

namespace Sys2Proof

open Sys2Proof.Laws

/-! ### The fields of a descriptor (R71) -/

theorem descSize_descriptor (size : BitVec 2) (we : Bool) (offset : BitVec 6) :
    descSize (descriptor size we offset) = size :=
  calc descSize (descriptor size we offset)
    _ = (size ++ BitVec.ofBool we).extractLsb' 1 2 := BitVec.extractLsb'_append_eq_of_le (by decide)
    _ = size := BitVec.extractLsb'_append_eq_left

theorem descWe_descriptor (size : BitVec 2) (we : Bool) (offset : BitVec 6) :
    descWe (descriptor size we offset) = we :=
  calc descWe (descriptor size we offset)
    _ = (size ++ BitVec.ofBool we ++ offset).getLsbD 6 := rfl
    _ = (size ++ BitVec.ofBool we).getLsbD 0 := BitVec.getLsbD_append
    _ = (BitVec.ofBool we).getLsbD 0 := BitVec.getLsbD_append
    _ = we := by simp

theorem descOffset_descriptor (size : BitVec 2) (we : Bool) (offset : BitVec 6) :
    descOffset (descriptor size we offset) = offset :=
  BitVec.extractLsb'_append_eq_right (a := size ++ BitVec.ofBool we)

theorem ofBool_descWe (desc : BitVec 9) : BitVec.ofBool (descWe desc) = desc.extractLsb' 6 1 := by
  apply BitVec.eq_of_getLsbD_eq
  intro i hi
  obtain rfl : i = 0 := by omega
  simp [descWe]

/-- R71: a descriptor has no bits but its three fields. -/
theorem descriptor_fields (desc : BitVec 9) : descriptor (descSize desc) (descWe desc) (descOffset desc) = desc := by
  rw [descriptor, ofBool_descWe, descSize, descOffset,
    BitVec.extractLsb'_append_extractLsb'_eq_extractLsb' (by rfl),
    BitVec.extractLsb'_append_extractLsb'_eq_extractLsb' (by rfl)]
  exact BitVec.extractLsb'_eq_self

/-! ### Aligned word accesses (R72) -/

/-- R72: the descriptors that select a register; every other one is BAD_ACCESS. -/
abbrev WordAccess (desc : BitVec 9) : Prop := descSize desc = 2 ∧ (descOffset desc).extractLsb' 0 2 = 0

/-- R72: the word index OFFSET[5:2]. -/
def wordIndex (desc : BitVec 9) : BitVec 4 := (descOffset desc).extractLsb' 2 4

/-- R72: the descriptor of the aligned word access at a word index. -/
def registerDescriptor (we : Bool) (index : BitVec 4) : BitVec 9 := descriptor 2 we (index ++ 0#2)

theorem registerDescriptor_wordIndex {desc : BitVec 9} (h : WordAccess desc) :
    registerDescriptor (descWe desc) (wordIndex desc) = desc := by
  obtain ⟨hsize, haligned⟩ := h
  have hoffset : (descOffset desc).extractLsb' 2 4 ++ 0#2 = descOffset desc :=
    calc (descOffset desc).extractLsb' 2 4 ++ 0#2
      _ = (descOffset desc).extractLsb' 2 4 ++ (descOffset desc).extractLsb' 0 2 := by rw [haligned]; rfl
      _ = descOffset desc := BitVec.extractLsb'_append_extractLsb'
  rw [registerDescriptor, wordIndex, hoffset, ← hsize, descriptor_fields]

variable {desc : BitVec 9}

theorem decodeTransaction_read (h : WordAccess desc) (hwe : descWe desc = false) (data : Word) :
    decodeTransaction desc data = readRow (wordIndex desc) := by
  rw [decodeTransaction, if_pos h, hwe]
  rfl

theorem decodeTransaction_write (h : WordAccess desc) (hwe : descWe desc = true) (data : Word) :
    decodeTransaction desc data = writeRow (wordIndex desc) data := by
  rw [decodeTransaction, if_pos h, if_pos hwe]
  rfl

theorem decodeTransaction_of_not_wordAccess (h : ¬ WordAccess desc) (data : Word) :
    decodeTransaction desc data = .badAccess (descSize desc) (descWe desc) (descOffset desc) :=
  if_neg h

theorem decodeCommand_of_no_command {word : Word} (h0 : word ≠ 0) (h1 : word ≠ 1) (h2 : word ≠ 2) :
    decodeCommand word = .badCommand word := by
  rw [decodeCommand, if_neg h0, if_neg h1, if_neg h2]

/-! ### Encoding what was decoded -/

theorem encode_readRow : ∀ index : BitVec 4, encode (readRow index) = .transaction (registerDescriptor false index) 0 := by
  decide

theorem encode_writeRow (index : BitVec 4) (data : Word) :
    encode (writeRow index data) = .transaction (registerDescriptor true index) data := by
  obtain ⟨i⟩ := index
  fin_cases i <;> rfl

/-- R71: encoding gives the descriptor back, with the data word where the access has one and 0 elsewhere. -/
theorem encode_decodeTransaction (desc : BitVec 9) (data : Word) :
    encode (decodeTransaction desc data) =
      .transaction desc (if WordAccess desc ∧ descWe desc = true then data else 0) := by
  by_cases h : WordAccess desc
  · have hdesc := registerDescriptor_wordIndex h
    cases hwe : descWe desc <;> rw [hwe] at hdesc
    · rw [decodeTransaction_read h hwe, encode_readRow, hdesc]
      simp
    · rw [decodeTransaction_write h hwe, encode_writeRow, hdesc, if_pos ⟨h, rfl⟩]
  · rw [decodeTransaction_of_not_wordAccess h, encode, descriptor_fields, if_neg (mt And.left h)]

theorem encode_decodeCommand (word : Word) : encode (decodeCommand word) = .command word := by
  unfold decodeCommand
  split_ifs with h0 h1 h2
  · rw [h0]; rfl
  · rw [h1]; rfl
  · rw [h2]; rfl
  · rfl

theorem frameCanonical_transaction_iff (desc : BitVec 9) (data : Word) :
    frameCanonical (.transaction desc data) = true ↔ (WordAccess desc ∧ descWe desc = true) ∨ data = 0 := by
  simp only [frameCanonical, Bool.or_eq_true, Bool.and_eq_true, decide_eq_true_eq, and_comm]

/-- Settles O2: encoding loses nothing but a data word without a meaning, which a canonical frame has at 0. -/
theorem decodeThenEncodeGivesFrame : Obligations.DecodeThenEncodeGivesFrame := by
  unfold Obligations.DecodeThenEncodeGivesFrame
  intro f hf
  cases f with
  | transaction desc data =>
    rw [decode, encode_decodeTransaction]
    split_ifs with h
    · rfl
    · rw [((frameCanonical_transaction_iff desc data).mp hf).resolve_left h]
  | command word => exact encode_decodeCommand word

/-! ### Decoding what was encoded -/

theorem writeRow_of_reserved {index : BitVec 4} (h : 12 ≤ index.toNat) (data : Word) :
    writeRow index data = .wrRsvd (index.extractLsb' 0 2) data := by
  unfold writeRow
  split
  case h_13 => rfl
  all_goals omega

/-- R72: the descriptor of the write of a reserved word. -/
theorem wrRsvd_descriptor_fields : ∀ k : BitVec 2,
    WordAccess (0x170 ||| (k.setWidth 9 <<< 2)) ∧ descWe (0x170 ||| (k.setWidth 9 <<< 2)) = true ∧
      12 ≤ (wordIndex (0x170 ||| (k.setWidth 9 <<< 2))).toNat ∧
      (wordIndex (0x170 ||| (k.setWidth 9 <<< 2))).extractLsb' 0 2 = k := by
  decide

theorem decode_encode_rdRsvd : ∀ k : BitVec 2, decode (encode (.rdRsvd k)) = .rdRsvd k := by
  decide

theorem decode_encode_wrRsvd (k : BitVec 2) (data : Word) : decode (encode (.wrRsvd k data)) = .wrRsvd k data := by
  obtain ⟨haccess, hwe, hreserved, hk⟩ := wrRsvd_descriptor_fields k
  rw [encode, decode, decodeTransaction_write haccess hwe, writeRow_of_reserved hreserved, hk]

theorem badAccessOk_iff (size : BitVec 2) (offset : BitVec 6) :
    badAccessOk size offset = true ↔ ¬(size = 2 ∧ offset.extractLsb' 0 2 = 0) := by
  simp [badAccessOk, imp_iff_not_or]

theorem badCommandOk_iff (word : Word) : badCommandOk word = true ↔ word ≠ 0 ∧ word ≠ 1 ∧ word ≠ 2 := by
  simp [badCommandOk, and_assoc]

theorem decode_encode_badAccess {size : BitVec 2} {offset : BitVec 6} (we : Bool) (h : badAccessOk size offset = true) :
    decode (encode (.badAccess size we offset)) = .badAccess size we offset := by
  have hother : ¬ WordAccess (descriptor size we offset) := by
    rw [WordAccess, descSize_descriptor, descOffset_descriptor]
    exact (badAccessOk_iff size offset).mp h
  rw [encode, decode, decodeTransaction_of_not_wordAccess hother, descSize_descriptor, descWe_descriptor,
    descOffset_descriptor]

theorem decode_encode_badCommand {word : Word} (h : badCommandOk word = true) :
    decode (encode (.badCommand word)) = .badCommand word := by
  obtain ⟨h0, h1, h2⟩ := (badCommandOk_iff word).mp h
  exact decodeCommand_of_no_command h0 h1 h2

/-- Settles O1: the rows whose descriptor or word has operands are the reserved words and the two default rows; every other
row has one descriptor or word, which decodes to it by computation, whatever the data word. -/
theorem encodeThenDecodeGivesInstruction : Obligations.EncodeThenDecodeGivesInstruction := by
  unfold Obligations.EncodeThenDecodeGivesInstruction
  intro i hi
  cases i
  case rdRsvd k => exact decode_encode_rdRsvd k
  case wrRsvd k data => exact decode_encode_wrRsvd k data
  case badAccess size we offset => exact decode_encode_badAccess we hi
  case badCommand word => exact decode_encode_badCommand hi
  all_goals rfl

/-! ### Well-formedness -/

theorem readRow_wellFormed : ∀ index : BitVec 4, (readRow index).wellFormed = true := by
  decide

theorem writeRow_wellFormed (index : BitVec 4) (data : Word) : (writeRow index data).wellFormed = true := by
  unfold writeRow
  split <;> rfl

theorem decodeTransaction_wellFormed (desc : BitVec 9) (data : Word) :
    (decodeTransaction desc data).wellFormed = true := by
  by_cases h : WordAccess desc
  · cases hwe : descWe desc
    · rw [decodeTransaction_read h hwe]
      exact readRow_wellFormed _
    · rw [decodeTransaction_write h hwe]
      exact writeRow_wellFormed _ data
  · rw [decodeTransaction_of_not_wordAccess h]
    exact (badAccessOk_iff _ _).mpr h

theorem decodeCommand_wellFormed (word : Word) : (decodeCommand word).wellFormed = true := by
  unfold decodeCommand
  split_ifs with h0 h1 h2
  · rfl
  · rfl
  · rfl
  · exact (badCommandOk_iff word).mpr ⟨h0, h1, h2⟩

/-- Settles O3: a default row is reached only when the test for every other row of its format has failed. -/
theorem decodedInstructionsAreWellFormed : Obligations.DecodedInstructionsAreWellFormed := by
  unfold Obligations.DecodedInstructionsAreWellFormed
  intro f
  cases f with
  | transaction desc data => exact decodeTransaction_wellFormed desc data
  | command word => exact decodeCommand_wellFormed word

/-! ### The match and mask columns of opcode_table.json -/

/-- Every instruction's encoding has the bits of its row, which is a row of the table. -/
theorem encode_has_rowBits : ∀ i : Instr, RowBits.Statement i
  | .rdId => RowBits.rdId
  | .wrId data => RowBits.wrId data
  | .rdCmd => RowBits.rdCmd
  | .wrCmd data => RowBits.wrCmd data
  | .rdStatus => RowBits.rdStatus
  | .wrStatus data => RowBits.wrStatus data
  | .rdWidth => RowBits.rdWidth
  | .wrWidth data => RowBits.wrWidth data
  | .rdHeight => RowBits.rdHeight
  | .wrHeight data => RowBits.wrHeight data
  | .rdRadius => RowBits.rdRadius
  | .wrRadius data => RowBits.wrRadius data
  | .rdSigma => RowBits.rdSigma
  | .wrSigma data => RowBits.wrSigma data
  | .rdInBase => RowBits.rdInBase
  | .wrInBase data => RowBits.wrInBase data
  | .rdInLen => RowBits.rdInLen
  | .wrInLen data => RowBits.wrInLen data
  | .rdOutBase => RowBits.rdOutBase
  | .wrOutBase data => RowBits.wrOutBase data
  | .rdOutLen => RowBits.rdOutLen
  | .wrOutLen data => RowBits.wrOutLen data
  | .rdErrAddr => RowBits.rdErrAddr
  | .wrErrAddr data => RowBits.wrErrAddr data
  | .rdRsvd k => RowBits.rdRsvd k
  | .wrRsvd k data => RowBits.wrRsvd k data
  | .badAccess size we offset => RowBits.badAccess size we offset
  | .nop => RowBits.nop
  | .start => RowBits.start
  | .clear => RowBits.clear
  | .badCommand word => RowBits.badCommand word

theorem rowOf_mem_opcodeRows (i : Instr) : rowOf i ∈ opcodeRows := (encode_has_rowBits i).2

/-- A frame has the bits of the row it decodes to: the encoding has them, and a row does not look at a data word. -/
theorem rowMatches_rowOf_decode (f : Frame) : rowMatches (rowOf (decode f)) f = true := by
  have h := (encode_has_rowBits (decode f)).1
  cases f with
  | transaction desc data =>
    rw [decode, encode_decodeTransaction] at h
    exact h
  | command word =>
    rw [decode, encode_decodeCommand] at h
    exact h

theorem rowMatches_transaction_iff (row : OpcodeRow) (desc : BitVec 9) (data : Word) :
    rowMatches row (.transaction desc data) = true ↔ row.isCommand = false ∧ desc.toNat &&& row.mask = row.pattern := by
  simp [rowMatches]

theorem rowMatches_command_iff (row : OpcodeRow) (word : Word) :
    rowMatches row (.command word) = true ↔ row.isCommand = true ∧ word.toNat &&& row.mask = row.pattern := by
  simp [rowMatches]

/-- Two rows of one format that agree on the bits they both fix are one row, the default rows aside. -/
theorem opcodeRows_apart : ∀ row ∈ opcodeRows, ∀ row' ∈ opcodeRows, row.isDefault = false → row'.isDefault = false →
    row.isCommand = row'.isCommand → row.pattern &&& row'.mask = row'.pattern &&& row.mask → row = row' := by
  decide

theorem pattern_and_mask {bits mask mask' pattern pattern' : Nat} (h : bits &&& mask = pattern)
    (h' : bits &&& mask' = pattern') : pattern &&& mask' = pattern' &&& mask := by
  rw [← h, ← h', Nat.and_right_comm]

/-- R72, R74: no frame has the bits of two rows, the default rows aside. -/
theorem row_eq_of_rowMatches {f : Frame} {row row' : OpcodeRow} (hmem : row ∈ opcodeRows) (hmem' : row' ∈ opcodeRows)
    (hrow : row.isDefault = false) (hrow' : row'.isDefault = false) (h : rowMatches row f = true)
    (h' : rowMatches row' f = true) : row = row' := by
  cases f with
  | transaction desc data =>
    obtain ⟨hformat, hbits⟩ := (rowMatches_transaction_iff row desc data).mp h
    obtain ⟨hformat', hbits'⟩ := (rowMatches_transaction_iff row' desc data).mp h'
    exact opcodeRows_apart row hmem row' hmem' hrow hrow' (hformat.trans hformat'.symm) (pattern_and_mask hbits hbits')
  | command word =>
    obtain ⟨hformat, hbits⟩ := (rowMatches_command_iff row word).mp h
    obtain ⟨hformat', hbits'⟩ := (rowMatches_command_iff row' word).mp h'
    exact opcodeRows_apart row hmem row' hmem' hrow hrow' (hformat.trans hformat'.symm) (pattern_and_mask hbits hbits')

/-- R72: every transaction row but BAD_ACCESS fixes SIZE at 0b10 and OFFSET[1:0] at 0b00. -/
theorem transactionRows_fix_wordAccess : ∀ row ∈ opcodeRows, row.isDefault = false → row.isCommand = false →
    row.mask &&& 0x183 = 0x183 ∧ row.pattern &&& 0x183 = 0x100 := by
  decide

/-- The mask 0x183 keeps SIZE and OFFSET[1:0] of a descriptor, and nothing else. -/
theorem wordAccess_of_bits (h : desc &&& 0x183 = 0x100) : WordAccess desc := by
  constructor
  · calc descSize desc
      _ = descSize (desc &&& 0x183) := by
        rw [descSize, descSize, BitVec.extractLsb'_and]; exact BitVec.and_allOnes.symm
      _ = 2 := by rw [h]; rfl
  · calc (descOffset desc).extractLsb' 0 2
      _ = (descOffset (desc &&& 0x183)).extractLsb' 0 2 := by
        rw [descOffset, descOffset, BitVec.extractLsb'_and, BitVec.extractLsb'_and]; exact BitVec.and_allOnes.symm
      _ = 0 := by rw [h]; rfl

theorem wordAccess_of_rowMatches {row : OpcodeRow} {data : Word} (hmem : row ∈ opcodeRows)
    (hrow : row.isDefault = false) (h : rowMatches row (.transaction desc data) = true) : WordAccess desc := by
  obtain ⟨hformat, hbits⟩ := (rowMatches_transaction_iff row desc data).mp h
  obtain ⟨hmask, hpattern⟩ := transactionRows_fix_wordAccess row hmem hrow hformat
  apply wordAccess_of_bits
  apply BitVec.eq_of_toNat_eq
  calc (desc &&& 0x183).toNat
    _ = desc.toNat &&& (row.mask &&& 0x183) := by rw [hmask]; rfl
    _ = 0x100 := by rw [← Nat.and_assoc, hbits, hpattern]

/-- R74: every command row but BAD_COMMAND fixes the whole word, at 0, 1 or 2. -/
theorem commandRows_fix_word : ∀ row ∈ opcodeRows, row.isDefault = false → row.isCommand = true →
    row.mask = 2 ^ 32 - 1 ∧ row.pattern < 3 := by
  decide

theorem word_lt_of_rowMatches {row : OpcodeRow} {word : Word} (hmem : row ∈ opcodeRows)
    (hrow : row.isDefault = false) (h : rowMatches row (.command word) = true) : word.toNat < 3 := by
  obtain ⟨hformat, hbits⟩ := (rowMatches_command_iff row word).mp h
  obtain ⟨hmask, hpattern⟩ := commandRows_fix_word row hmem hrow hformat
  rw [hmask, Nat.and_two_pow_sub_one_of_lt_two_pow word.isLt] at hbits
  rwa [hbits]

theorem rowOf_readRow_not_default : ∀ index : BitVec 4, (rowOf (readRow index)).isDefault = false := by
  decide

theorem rowOf_writeRow_not_default (index : BitVec 4) (data : Word) :
    (rowOf (writeRow index data)).isDefault = false := by
  unfold writeRow
  split <;> rfl

theorem rowOf_decodeTransaction_not_default (h : WordAccess desc) (data : Word) :
    (rowOf (decodeTransaction desc data)).isDefault = false := by
  cases hwe : descWe desc
  · rw [decodeTransaction_read h hwe]
    exact rowOf_readRow_not_default _
  · rw [decodeTransaction_write h hwe]
    exact rowOf_writeRow_not_default _ data

theorem rowOf_decodeCommand_not_default {word : Word} (h : word.toNat < 3) :
    (rowOf (decodeCommand word)).isDefault = false := by
  obtain rfl | rfl | rfl : word = 0 ∨ word = 1 ∨ word = 2 := by bv_omega
  all_goals rfl

/-- R72, R74: the default rows apply only where no other row does. -/
theorem rowOf_decode_not_default {f : Frame} {row : OpcodeRow} (hmem : row ∈ opcodeRows)
    (hrow : row.isDefault = false) (h : rowMatches row f = true) : (rowOf (decode f)).isDefault = false := by
  cases f with
  | transaction desc data => exact rowOf_decodeTransaction_not_default (wordAccess_of_rowMatches hmem hrow h) data
  | command word => exact rowOf_decodeCommand_not_default (word_lt_of_rowMatches hmem hrow h)

/-- Settles O4: a frame has the bits of the row it decodes to, and of no second row but a default one. -/
theorem opcodeRowsDecodeAsListed : Obligations.OpcodeRowsDecodeAsListed := by
  unfold Obligations.OpcodeRowsDecodeAsListed
  constructor
  · intro f row hmem hrow h
    exact row_eq_of_rowMatches (rowOf_mem_opcodeRows _) hmem (rowOf_decode_not_default hmem hrow h) hrow
      (rowMatches_rowOf_decode f) h
  · intro f hnone
    refine ⟨?_, rowMatches_rowOf_decode f⟩
    by_contra hdefault
    have hno := hnone _ (rowOf_mem_opcodeRows (decode f)) (Bool.eq_false_iff.mpr hdefault)
    exact absurd (rowMatches_rowOf_decode f) (Bool.eq_false_iff.mp hno)

/-- Settles O5: the ten words, decoded. -/
theorem specWordsDecodeAsListed : Obligations.SpecWordsDecodeAsListed := by
  unfold Obligations.SpecWordsDecodeAsListed
  decide

end Sys2Proof
end

section
/-!
PROOFS. 30_encoding.md R79: the branches of a host program, and MR32 after MW32 (20_memory.md R52, R57).
-/

namespace Sys2Proof.Machine

variable {s : State}

/-! ### Branches -/

theorem hostTurn_of_fetch {op : HostOp} (h : fetch s = some op) :
    hostTurn s = hostOp op (hostGoto (s.host.pc + 1) s) := by
  rw [hostTurn, h]

@[simp] theorem hostGoto_hostGoto (place place' : Nat) (s : State) :
    hostGoto place (hostGoto place' s) = hostGoto place s := rfl

/-- Settles O7: a branch finds the host past it and moves it to the label, or leaves it there. -/
theorem hostBranchesTestTheLastRead : Obligations.HostBranchesTestTheLastRead := by
  unfold Obligations.HostBranchesTestTheLastRead
  constructor
  · intro s target mask value h
    rw [hostTurn_of_fetch h]
    by_cases htest : s.host.lastRd &&& mask = value <;> simp [hostOp, htest]
  · intro s target mask value h
    rw [hostTurn_of_fetch h]
    by_cases htest : s.host.lastRd &&& mask = value <;> simp [hostOp, htest]

/-! ### What a host write leaves behind -/

/-- The state after a host write of bytes inside the data space. -/
def hostStored (addr : Nat) (bytes : List Byte) (s : State) : State :=
  { s with
    mem := writeBytes addr bytes s.mem
    breach := s.breach || breaches addr bytes.length s
    unordered := s.unordered.flatMap (Region.without addr bytes.length) }

theorem hostWrite_of_fits {addr : Word} {bytes : List Byte} (h : addr.toNat + bytes.length ≤ dataSpaceSize) :
    hostWrite addr bytes s = .next (hostStored addr.toNat bytes s) :=
  if_neg (Nat.not_lt.mpr h)

/-- A host write settles its bytes, but for those that still are under the host's duty, and no other. -/
theorem unsettled_hostStored_iff (addr : Nat) (bytes : List Byte) (s : State) (a : Nat) :
    unsettled (hostStored addr bytes s) a = true ↔
      (s.phase = .busy ∧ (outputRegion s.job).holds a = true) ∨ (∃ region ∈ s.unread, region.holds a = true) ∨
        ((∃ region ∈ s.unordered, region.holds a = true) ∧ ¬(addr ≤ a ∧ a < addr + bytes.length)) := by
  rw [unsettled_iff, ← holds_flatMap_without]
  rfl

/-- Where the host's duty has ended, a host write settles the bytes it writes. -/
theorem settled_hostStored_of_written {addr a : Nat} {bytes : List Byte} (hwritten : addr ≤ a ∧ a < addr + bytes.length)
    (hoff : ¬(s.phase = .busy ∧ (outputRegion s.job).holds a = true) ∧ ∀ region ∈ s.unread, region.holds a = false) :
    unsettled (hostStored addr bytes s) a = false := by
  obtain ⟨hbusy, hunread⟩ := hoff
  rw [Bool.eq_false_iff, ne_eq, unsettled_hostStored_iff]
  rintro (h | ⟨region, hmem, h⟩ | ⟨-, h⟩)
  · exact hbusy h
  · exact Bool.eq_false_iff.mp (hunread region hmem) h
  · exact h hwritten

theorem unsettled_hostStored_of_not_written {addr a : Nat} {bytes : List Byte}
    (hout : ¬(addr ≤ a ∧ a < addr + bytes.length)) : unsettled (hostStored addr bytes s) a = unsettled s a := by
  rw [Bool.eq_iff_iff, unsettled_hostStored_iff, unsettled_iff]
  simp only [hout, not_false_eq_true, and_true]

/-! ### What a host read returns -/

theorem hostRead_of_fits {addr : Word} {count : Nat} (h : addr.toNat + count ≤ dataSpaceSize) :
    hostRead addr count s = .next { s with
      host := { s.host with memData := hostBytes s addr.toNat count }
      draws := s.draws + count } :=
  if_neg (Nat.not_lt.mpr h)

/-- R57: settled bytes read as the host wrote them. -/
theorem hostBytes_hostStored {addr : Nat} {bytes : List Byte} (hfits : addr + bytes.length ≤ dataSpaceSize)
    (hsettled : ∀ a, addr ≤ a → a < addr + bytes.length → unsettled (hostStored addr bytes s) a = false) :
    hostBytes (hostStored addr bytes s) addr bytes.length = bytes := by
  apply List.ext_getElem
  · simp [hostBytes]
  · intro k hk hk'
    have hbyte := hsettled (addr + k) (by omega) (by omega)
    simp only [hostBytes, List.getElem_map, List.getElem_range, hbyte, Bool.false_eq_true, if_false]
    exact readByte_writeBytes_in bytes addr s.mem k hk' hfits

/-- Settles O60: the write settles its own bytes, so that the read finds in memory what the write has put there. -/
theorem hostReadsBackWhatItWrote : Obligations.HostReadsBackWhatItWrote := by
  unfold Obligations.HostReadsBackWhatItWrote
  intro s addr v hfits hoff
  have hwritten : ∀ a, addr.toNat ≤ a → a < addr.toNat + 4 →
      unsettled (hostStored addr.toNat (wordBytes v) s) a = false :=
    fun a hlo hhi => settled_hostStored_of_written ⟨hlo, hhi⟩ (hoff a hlo hhi)
  refine ⟨_, _, hostWrite_of_fits hfits, hostRead_of_fits hfits, hostBytes_hostStored hfits hwritten, fun a => ?_⟩
  split
  · next h => exact hwritten a h.1 h.2
  · next h => exact unsettled_hostStored_of_not_written h

end Sys2Proof.Machine
end

section
/-!
PROOFS. 40_convolution.md sections 3 and 4: the window of a pixel. The scan visits it row by row (R109), and the image cuts
a rectangle out of it (R107, R119).
-/

namespace Sys2Proof.Machine

/-! ### The scan in order -/

/-- A scan lasts exactly as long as there is an offset of the window at its index. -/
theorem scanning_iff_scanIndex_lt {job : Job} {c : Ctx} (hr : 0 ≤ job.r) (h : CtxOk job c) :
    c.oj ≤ job.r ↔ scanIndex job.r c < windowSize job.r := by
  constructor
  · exact fun hscan => (scanIndex_scanning hr h hscan).2.2
  · intro hlt
    have ⟨_, _, _, _, _, hlast, _⟩ := h
    by_contra hpast
    have := scanIndex_finished hr h (by omega)
    omega

/-- A scan that does not leave its window goes forward one offset each step. -/
theorem ctxOk_iterate_advance {job : Job} {c : Ctx} (hr : 0 ≤ job.r) (h : CtxOk job c) (n : Nat)
    (hn : scanIndex job.r c + n ≤ windowSize job.r) :
    CtxOk job ((advance job.r)^[n] c) ∧ scanIndex job.r ((advance job.r)^[n] c) = scanIndex job.r c + n := by
  induction n with
  | zero => exact ⟨h, rfl⟩
  | succ n ih =>
    obtain ⟨hok, hidx⟩ := ih (by omega)
    have hscan := (scanning_iff_scanIndex_lt hr hok).mpr (by omega)
    have hnext := (scanIndex_scanning hr hok hscan).2.1
    rw [Function.iterate_succ_apply']
    exact ⟨ctxOk_advance hr hok hscan, by omega⟩

/-- The least image with a pixel, and a radius: all that the scan of a fresh context at that pixel needs of a job. -/
def scanJob (r : Nat) (p : Pixel) : Job := { Job.reset with w := p.x + 1, h := p.y + 1, r := r }

@[simp] theorem scanJob_r (r : Nat) (p : Pixel) : (scanJob r p).r = r := rfl

theorem scanJob_r_nonneg (r : Nat) (p : Pixel) : 0 ≤ (scanJob r p).r := Int.natCast_nonneg r

/-- R109: where the scan of a fresh context stands after n steps. -/
theorem freshCtx_iterate_advance {r n : Nat} (p : Pixel) (hn : n ≤ windowSize r) :
    CtxOk (scanJob r p) ((advance r)^[n] (freshCtx r p)) ∧ scanIndex r ((advance r)^[n] (freshCtx r p)) = n := by
  have hfresh : CtxOk (scanJob r p) (freshCtx r p) :=
    ctxOk_freshCtx (scanJob_r_nonneg r p) (Nat.lt_succ_self p.x) (Nat.lt_succ_self p.y)
  have h := ctxOk_iterate_advance (scanJob_r_nonneg r p) hfresh n (by simpa using hn)
  simpa using h

/-- Settles O37: a scan steps from each index of the scan order to the next, and past the last index stands in row r + 1. -/
theorem scanVisitsTheWindowRowByRow : Obligations.ScanVisitsTheWindowRowByRow := by
  unfold Obligations.ScanVisitsTheWindowRowByRow
  intro r p
  have hr := scanJob_r_nonneg r p
  have hsize : windowSize r = (2 * r + 1) * (2 * r + 1) := by rw [windowSize, windowSide_nat]
  rw [← hsize]
  constructor
  · intro n hn
    obtain ⟨hok, hidx⟩ := freshCtx_iterate_advance p hn.le
    have hscan := (scanning_iff_scanIndex_lt hr hok).mpr (by simpa [hidx] using hn)
    have hget := (scanIndex_scanning hr hok hscan).1
    rw [scanJob_r, hidx] at hget
    have hplace := hget.symm.trans (scanOffsets_get r n (hsize ▸ hn))
    rw [Option.some.injEq, Prod.mk.injEq] at hplace
    exact ⟨hplace.1, hplace.2, hget⟩
  · obtain ⟨hok, hidx⟩ := freshCtx_iterate_advance p (le_refl (windowSize r))
    have hpast : ¬((advance r)^[windowSize r] (freshCtx r p)).oj ≤ (scanJob r p).r := by
      rw [scanning_iff_scanIndex_lt hr hok]
      simp [hidx]
    obtain ⟨-, -, -, -, -, hlast, hcolumn⟩ := hok
    have hrow := le_antisymm hlast (not_le.mp hpast)
    exact ⟨hcolumn hrow, hrow⟩

/-! ### The part of the window inside the image -/

/-- How many pairs of a row and a column pass a test that asks one thing of the column and one of the row. -/
theorem length_filter_flatMap_map {α β γ : Type} (rows : List α) (columns : List β) (f : α → β → γ) {test : γ → Bool}
    {p : α → Bool} {q : β → Bool} (h : ∀ b a, test (f b a) = (q a && p b)) :
    ((rows.flatMap fun b => columns.map (f b)).filter test).length = columns.countP q * rows.countP p := by
  induction rows with
  | nil => simp
  | cons b rows ih =>
    have hrow : ((columns.map (f b)).filter test).length = if p b then columns.countP q else 0 := by
      rw [← List.countP_eq_length_filter, List.countP_map]
      cases hb : p b <;> simp [Function.comp_def, h, hb]
    rw [List.flatMap_cons, List.filter_append, List.length_append, ih, hrow, List.countP_cons]
    split <;> ring

/-- R107 in one direction: does the a-th offset of a row, or a column, stay inside an image of n pixels? -/
def inside (n r x a : Nat) : Bool := decide (0 ≤ (x : Int) + (a - r)) && decide ((x : Int) + (a - r) < n)

theorem inBounds_eq_inside (w h r x y a b : Nat) :
    inBounds w h (x + ((a : Int) - r)) (y + ((b : Int) - r)) = (inside w r x a && inside h r y b) := by
  simp only [inBounds, inside, Bool.and_assoc]

/-- R119: cx, and cy. -/
theorem countP_inside {n x : Nat} (r : Nat) (hx : x < n) :
    (List.range (2 * r + 1)).countP (inside n r x) = min x r + min (n - 1 - x) r + 1 := by
  have hinterval : (Finset.range (2 * r + 1)).filter (fun a => inside n r x a = true) =
      Finset.Ico (r - min x r) (r + min (n - 1 - x) r + 1) := by
    ext a
    simp only [inside, Bool.and_eq_true, decide_eq_true_eq, Finset.mem_filter, Finset.mem_range, Finset.mem_Ico]
    omega
  have hcount : (List.range (2 * r + 1)).countP (inside n r x) =
      ((Finset.range (2 * r + 1)).filter (fun a => inside n r x a = true)).card := by
    rw [← Nat.count_eq_card_filter_range, Nat.count]
    simp
  rw [hcount, hinterval, Nat.card_Ico]
  omega

/-- Settles O38: an offset is in bounds when its column and its row are, so the offsets in bounds form a rectangle. -/
theorem windowOffsetsInBounds : Obligations.WindowOffsetsInBounds := by
  unfold Obligations.WindowOffsetsInBounds
  intro w h r x y hx hy
  constructor
  · rw [scanOffsets_length (Int.natCast_nonneg r), windowSize, windowSide_nat]
  · rw [scanOffsets, windowSide_nat, length_filter_flatMap_map _ _ _ fun b a => inBounds_eq_inside w h r x y a b,
      countP_inside r hx, countP_inside r hy]

end Sys2Proof.Machine
end

section
/-!
PROOFS. 40_convolution.md section 2: the weight generator. The exponent is a rounded quotient of -(i² + j²), never above +0
(R102 to R104), and falls as i² + j² grows, so that P1 to P4 of the exponential bound and order the weights (R105, R106).
-/

namespace Sys2Proof.Machine

/-! ### Values by their place in the order -/

/-- A value with a sign and a magnitude pattern lies on the number line at that pattern, or at infinity's. -/
theorem frank_ofMag (neg : Bool) (m : Nat) :
    frank (ofMag neg m) = some (if neg then -min (m : Int) 0x7F800000 else min (m : Int) 0x7F800000) := by
  by_cases hm : m < 0x7F800000
  · rw [ofMag_of_lt neg hm, min_eq_left (by omega)]
    rfl
  · rw [ofMag_of_ge neg hm, min_eq_right (by omega)]
    rfl

theorem fle_iff_of_frank {a b : F32} {x y : Int} (ha : frank a = some x) (hb : frank b = some y) :
    fle a b = true ↔ x ≤ y := by
  rw [fle, ha, hb, decide_eq_true_eq]

/-- R103: a denominator that START accepts is positive and finite, or +inf. -/
theorem goodDenominator_cases {d : F32} (h : GoodDenominator d) :
    d = .inf false ∨ ∃ m : Fin 0x7F800000, d = .fin false m ∧ m.val ≠ 0 := by
  unfold GoodDenominator flt at h
  cases d with
  | nan n => simp [frank] at h
  | inf neg => cases neg <;> simp [frank, F32.zero] at h ⊢
  | fin neg m =>
    cases neg
    · exact .inr ⟨m, rfl, by simpa [frank, F32.zero, Nat.pos_iff_ne_zero] using h⟩
    · simp [frank, F32.zero] at h
      omega

/-! ### The exponent -/

/-- Far below the overflow bound a rounded value is finite. -/
theorem rnd32_eq_fin_of_lt {num den : Nat} (neg : Bool) (hd : 0 < den) (h : num < 2 ^ 252 * den) :
    ∃ hm : rndMag num den < 0x7F800000, rnd32 neg num den = .fin neg ⟨rndMag num den, hm⟩ := by
  have hpow : 2 ^ 277 = 2 ^ 25 * 2 ^ 252 := by rw [← pow_add]
  exact rnd32_eq_fin neg hd (h.trans_le (Nat.mul_le_mul_right _ (by omega)))

/-- i² + j², the squared distance of an offset. -/
def distSq (i j : Int) : Nat := (i * i + j * j).toNat

theorem distSq_cast (i j : Int) : (distSq i j : Int) = i * i + j * j :=
  Int.toNat_of_nonneg (add_nonneg (mul_self_nonneg i) (mul_self_nonneg j))

/-- The offsets of any window: their squared distance has a finite binary32 value. -/
theorem distSq_le {i j : Int} (hi : |i| ≤ 2 ^ 31) (hj : |j| ≤ 2 ^ 31) : distSq i j ≤ 2 ^ 63 := by
  have hi' : i * i ≤ 2 ^ 31 * 2 ^ 31 := abs_mul_abs_self i ▸ mul_self_le_mul_self (abs_nonneg i) hi
  have hj' : j * j ≤ 2 ^ 31 * 2 ^ 31 := abs_mul_abs_self j ▸ mul_self_le_mul_self (abs_nonneg j) hj
  zify
  rw [distSq_cast]
  linarith

/-- The magnitude of R102's numerator. -/
def numeratorMag (n : Nat) : Nat := rndMag (n * 2 ^ 149) 1

theorem numerator_eq (i j : Int) : numerator i j = rnd32 (decide (0 < distSq i j)) (distSq i j * 2 ^ 149) 1 := by
  have h := distSq_cast i j
  rw [numerator, intToF32, ← h, Int.natAbs_neg, Int.natAbs_natCast]
  congr 2
  simp

theorem numerator_eq_fin {i j : Int} (h : distSq i j ≤ 2 ^ 63) :
    ∃ hm : numeratorMag (distSq i j) < 0x7F800000,
      numerator i j = .fin (decide (0 < distSq i j)) ⟨numeratorMag (distSq i j), hm⟩ := by
  rw [numerator_eq]
  exact rnd32_eq_fin_of_lt _ Nat.one_pos (by omega)

/-- The magnitude of R104's exponent for a denominator that START accepts. -/
def exponentMag : F32 → Nat → Nat
  | .fin _ m, n => rndMag (magUnits (numeratorMag n) * 2 ^ 149) (magUnits m.val)
  | _, _ => 0

theorem exponentMag_zero (d : F32) : exponentMag d 0 = 0 := by
  cases d <;> simp [exponentMag, numeratorMag]

theorem exponentMag_mono {d : F32} (hd : GoodDenominator d) : Monotone (exponentMag d) := by
  intro n n' h
  rcases goodDenominator_cases hd with rfl | ⟨m, rfl, hm⟩
  · exact le_rfl
  · have hnum : numeratorMag n ≤ numeratorMag n' := rndMag_mono Nat.one_pos Nat.one_pos (by omega)
    have hpos := magUnits_pos (Nat.pos_of_ne_zero hm)
    exact rndMag_mono hpos hpos (by gcongr; exact magUnits_strictMono.monotone hnum)

/-- R104 for every offset of a window: the exponent is zero at the center and negative elsewhere. -/
theorem exponent_eq {d : F32} (hd : GoodDenominator d) {i j : Int} (h : distSq i j ≤ 2 ^ 63) :
    exponent d i j = ofMag (decide (0 < distSq i j)) (exponentMag d (distSq i j)) := by
  obtain ⟨hm, hnum⟩ := numerator_eq_fin h
  rw [exponent, hnum]
  rcases goodDenominator_cases hd with rfl | ⟨m, rfl, hne⟩
  · simp [fdiv, exponentMag]
  · simp [fdiv_fin _ _ _ _ hne, exponentMag]

theorem frank_exponent {d : F32} (hd : GoodDenominator d) {i j : Int} (h : distSq i j ≤ 2 ^ 63) :
    frank (exponent d i j) = some (-min (exponentMag d (distSq i j) : Int) 0x7F800000) := by
  rw [exponent_eq hd h, frank_ofMag]
  rcases Nat.eq_zero_or_pos (distSq i j) with h0 | hpos
  · simp [h0, exponentMag_zero]
  · simp [hpos]

/-- A larger i² + j² gives an exponent that is not larger. -/
theorem exponent_antitone {d : F32} (hd : GoodDenominator d) {i j i' j' : Int} (h' : distSq i' j' ≤ 2 ^ 63)
    (hle : distSq i j ≤ distSq i' j') : fle (exponent d i' j') (exponent d i j) = true := by
  rw [fle_iff_of_frank (frank_exponent hd h') (frank_exponent hd (hle.trans h'))]
  have := exponentMag_mono hd hle
  omega

theorem exponent_center {d : F32} (hd : GoodDenominator d) : exponent d 0 0 = .zero := by
  have h0 : distSq 0 0 = 0 := rfl
  rw [exponent_eq hd (by simp [h0]), h0, exponentMag_zero]
  rfl

theorem exponent_le_zero {d : F32} (hd : GoodDenominator d) {i j : Int} (h : distSq i j ≤ 2 ^ 63) :
    fle (exponent d i j) .zero = true := by
  rw [← exponent_center hd]
  exact exponent_antitone hd h (Nat.zero_le _)

/-! ### The weight -/

/-- R102: the weight reads i and j in the sum of their squares alone. -/
theorem weight_congr (exp : F32 → F32) (d : F32) {i j i' j' : Int} (h : i * i + j * j = i' * i' + j' * j') :
    weight exp d i j = weight exp d i' j' := by
  simp only [weight, exponent, numerator, h]

theorem weight_center {exp : F32 → F32} (hexp : ExpLaws exp) {d : F32} (hd : GoodDenominator d) :
    weight exp d 0 0 = .one := by
  rw [weight, exponent_center hd, hexp.at_zero]

/-- P3: a weight is +0 or positive, and at most 1.0. -/
theorem weight_atMost_one {exp : F32 → F32} (hexp : ExpLaws exp) {d : F32} (hd : GoodDenominator d) {i j : Int}
    (h : distSq i j ≤ 2 ^ 63) : AtMost 0x3F800000 (weight exp d i j) :=
  hexp.range _ (exponent_le_zero hd h)

/-- R103: where 2σ² overflows, every exponent is a zero, and every weight is 1.0. -/
theorem weight_infinite_denominator {exp : F32 → F32} (hexp : ExpLaws exp) {i j : Int} (h : distSq i j ≤ 2 ^ 63) :
    weight exp (.inf false) i j = .one := by
  rw [weight, exponent_eq (show GoodDenominator (.inf false) from rfl) h]
  cases decide (0 < distSq i j)
  · exact hexp.at_zero
  · exact hexp.at_negZero

/-- Settles O39: the exponent is at most +0, where P1 and P3 speak, and the squares hide the signs and the order of i and j. -/
theorem weightsAreBoundedAndSymmetric : Obligations.WeightsAreBoundedAndSymmetric := by
  unfold Obligations.WeightsAreBoundedAndSymmetric
  refine ⟨fun exp d i j i' j' => weight_congr exp d, fun exp d i j hexp hd hi hj => ?_⟩
  have hdist := distSq_le hi hj
  exact ⟨weight_center hexp hd, weight_atMost_one hexp hd hdist, weight_congr exp d (by ring),
    weight_congr exp d (by ring), weight_congr exp d (by ring), weight_infinite_denominator hexp hdist⟩

/-- Settles O40: the exponent falls with distance, and P4 carries its order to the weights. -/
theorem weightsFallWithDistance : Obligations.WeightsFallWithDistance := by
  unfold Obligations.WeightsFallWithDistance
  intro exp d i j i' j' hexp hd hi hj hi' hj' hle
  have hle' : distSq i j ≤ distSq i' j' := Int.toNat_le_toNat hle
  exact hexp.mono _ _ (exponent_antitone hd (distSq_le hi' hj') hle') (exponent_le_zero hd (distSq_le hi hj))

end Sys2Proof.Machine
end

section
/-!
PROOFS. 40_convolution.md R115: the quantizer rounds to the nearest integer, ties to even, saturates to a byte, and keeps
the order of values.
-/

namespace Sys2Proof.Machine

/-! ### The rounded quotient -/

/-- A rounded quotient is a nearest integer, and even where the exact one is half-way between two. -/
theorem roundDiv_nearest {num den : Nat} (hd : 0 < den) :
    2 * |(roundDiv num den * den : Int) - num| ≤ den ∧
      (2 * |(roundDiv num den * den : Int) - num| = den → roundDiv num den % 2 = 0) := by
  have habove := mt (lt_roundDiv_iff (num := num) (j := roundDiv num den) hd).mpr (lt_irrefl _)
  have hbelow : ∀ j, roundDiv num den = j + 1 →
      (2 * j + 1) * den < 2 * num ∨ ((2 * j + 1) * den = 2 * num ∧ j % 2 = 1) :=
    fun j hj => (lt_roundDiv_iff hd).mp (by omega)
  generalize roundDiv num den = q at *
  have hscale : (2 * q + 1) * den = 2 * (q * den) + den := by ring
  rcases Nat.le_total num (q * den) with hle | hle
  · have habs : |(q * den : Int) - num| = q * den - num := abs_of_nonneg (by zify at hle; linarith)
    rw [habs]
    cases q with
    | zero => simp at hle ⊢; omega
    | succ j =>
      have hlast := hbelow j rfl
      have hhalf : (2 * j + 1) * den + den = 2 * ((j + 1) * den) := by ring
      zify at *
      omega
  · have habs : |(q * den : Int) - num| = num - q * den := by
      rw [abs_sub_comm]
      exact abs_of_nonneg (by zify at hle; linarith)
    rw [habs]
    zify at *
    omega

theorem roundDiv_mono {num num' den : Nat} (hd : 0 < den) (h : num ≤ num') : roundDiv num den ≤ roundDiv num' den := by
  by_contra hlt
  rw [not_le, lt_roundDiv_iff hd] at hlt
  have hself := mt (lt_roundDiv_iff (num := num') (j := roundDiv num' den) hd).mpr (lt_irrefl _)
  omega

/-! ### The byte -/

/-- The byte of the value at a place of the number line, as a number. -/
def byteAt (x : Int) : Nat := min (roundDiv (magUnits x.toNat) (2 ^ 149)) 255

theorem byteAt_mono : Monotone byteAt := fun _ _ h =>
  min_le_min_right 255 (roundDiv_mono (by norm_num) (magUnits_strictMono.monotone (Int.toNat_le_toNat h)))

theorem byteAt_of_nonpos {x : Int} (h : x ≤ 0) : byteAt x = 0 := by
  rw [byteAt, Int.toNat_of_nonpos h]
  rfl

/-- From 254.5 on the rounded value is at least 255. -/
theorem byteAt_eq_255 {x : Int} (h : 511 * 2 ^ 149 ≤ 2 * magUnits x.toNat) : byteAt x = 255 := by
  refine Nat.min_eq_right (Nat.succ_le_of_lt ?_)
  rw [lt_roundDiv_iff (by norm_num)]
  omega

theorem byteAt_of_lt {x : Int} (h : 2 * magUnits x.toNat < 511 * 2 ^ 149) :
    byteAt x = roundDiv (magUnits x.toNat) (2 ^ 149) := by
  refine Nat.min_eq_left (not_lt.mp ?_)
  rw [lt_roundDiv_iff (by norm_num)]
  omega

/-- The quantizer reads a value by its place in the order. -/
theorem q8_toNat {a : F32} {x : Int} (h : frank a = some x) : (q8 a).toNat = byteAt x := by
  cases a with
  | nan n => cases h
  | inf neg =>
    cases neg <;> cases h
    · rw [byteAt_eq_255 (by decide)]
      rfl
    · rw [byteAt_of_nonpos (by decide)]
      rfl
  | fin neg m =>
    cases neg <;> cases h
    · simp only [q8, roundTiesEven, clamp, byteAt, Bool.false_eq_true, if_false, BitVec.toNat_ofNat, Int.toNat_natCast]
      omega
    · rw [byteAt_of_nonpos (by simp)]
      simp [q8, roundTiesEven, clamp]

/-- Settles O42: below 255.5 the byte is the rounded quotient of the value by 1.0, and from there on that is at least 255. -/
theorem quantizerRoundsAndSaturates : Obligations.QuantizerRoundsAndSaturates := by
  unfold Obligations.QuantizerRoundsAndSaturates
  refine ⟨fun n => rfl, rfl, rfl, fun m => ?_, fun m => ?_⟩
  · apply BitVec.eq_of_toNat_eq
    rw [q8_toNat rfl]
    exact byteAt_of_nonpos (by simp)
  · have hbyte : (q8 (.fin false m)).toNat = byteAt m.val := q8_toNat rfl
    constructor
    · intro hlt
      rw [hbyte, byteAt_of_lt (x := m.val) hlt]
      exact_mod_cast roundDiv_nearest (num := magUnits m.val) (den := 2 ^ 149) (by norm_num)
    · intro hge
      apply BitVec.eq_of_toNat_eq
      rw [hbyte, byteAt_eq_255 (x := m.val) hge]
      rfl

/-- Settles O43: comparable values have places in the order, and the byte rises with the place. -/
theorem quantizerIsMonotone : Obligations.QuantizerIsMonotone := by
  unfold Obligations.QuantizerIsMonotone
  intro a b hle
  unfold fle at hle
  split at hle
  · next x y ha hb =>
    rw [q8_toNat ha, q8_toNat hb]
    exact byteAt_mono (of_decide_eq_true hle)
  · cases hle

end Sys2Proof.Machine
end

section
/-!
PROOFS. 40_convolution.md section 4: PIXEL (R118). Its channels are independent (R112), radius 0 keeps the image, and the
total weight and every quotient stay in range however large the window is (R116).
-/

namespace Sys2Proof.Machine

/-! ### Channel by channel -/

/-- The channels of R112. -/
inductive Channel where
  | red
  | green
  | blue
  | alpha

/-- A channel's value. -/
def Channel.of {α : Type} : Channel → Rgba α → α
  | .red, p => p.r
  | .green, p => p.g
  | .blue, p => p.b
  | .alpha, p => p.a

@[simp] theorem Channel.of_map {α β : Type} (ch : Channel) (f : α → β) (p : Rgba α) :
    ch.of (Rgba.map f p) = f (ch.of p) := by
  cases ch <;> rfl

@[simp] theorem Channel.of_zip {α β γ : Type} (ch : Channel) (f : α → β → γ) (p : Rgba α) (q : Rgba β) :
    ch.of (Rgba.zip f p q) = f (ch.of p) (ch.of q) := by
  cases ch <;> rfl

theorem rgba_ext {α : Type} {p q : Rgba α} (h : ∀ ch : Channel, ch.of p = ch.of q) : p = q := by
  obtain ⟨r, g, b, a⟩ := p
  obtain ⟨r', g', b', a'⟩ := q
  rw [Rgba.mk.injEq]
  exact ⟨h .red, h .green, h .blue, h .alpha⟩

@[simp] theorem accAdd_total (w : F32) (p : Rgba Byte) (acc : Accum) : (accAdd w p acc).total = fadd acc.total w := rfl

/-- R110, R112: a channel's sum takes that channel of the neighbor. -/
@[simp] theorem accAdd_sum (ch : Channel) (w : F32) (p : Rgba Byte) (acc : Accum) :
    ch.of (accAdd w p acc).sums = fadd (ch.of acc.sums) (fmul w (u8ToF32 (ch.of p))) := by
  rw [accAdd, Channel.of_zip]

/-- R114: a channel's byte is the quantized quotient of its sum. -/
@[simp] theorem pixel_channel (ch : Channel) (exp : F32 → F32) (img : Image) (w h : Nat) (r : Int) (d : F32) (x y : Nat) :
    ch.of (pixel exp img w h r d x y) =
      q8 (fdiv (ch.of (pixelAcc exp img w h r d x y).sums) (pixelAcc exp img w h r d x y).total) := by
  rw [pixel, quantize, Channel.of_map]

/-- The sum of a channel and the total weight read the image in that channel alone. -/
theorem pixelAcc_congr (ch : Channel) (exp : F32 → F32) (d : F32) {img img' : Image} (w h : Nat) (r : Int) (x y : Nat)
    (himg : ∀ u v, ch.of (img u v) = ch.of (img' u v)) :
    ch.of (pixelAcc exp img w h r d x y).sums = ch.of (pixelAcc exp img' w h r d x y).sums ∧
      (pixelAcc exp img w h r d x y).total = (pixelAcc exp img' w h r d x y).total := by
  refine List.foldl_rel (r := fun acc acc' : Accum => ch.of acc.sums = ch.of acc'.sums ∧ acc.total = acc'.total) ⟨rfl, rfl⟩ ?_
  rintro o - acc acc' ⟨hsum, htotal⟩
  unfold visit
  split
  · simp [hsum, htotal, himg]
  · exact ⟨hsum, htotal⟩

theorem pixel_congr (ch : Channel) (exp : F32 → F32) (d : F32) {img img' : Image} (w h : Nat) (r : Int) (x y : Nat)
    (himg : ∀ u v, ch.of (img u v) = ch.of (img' u v)) :
    ch.of (pixel exp img w h r d x y) = ch.of (pixel exp img' w h r d x y) := by
  obtain ⟨hsum, htotal⟩ := pixelAcc_congr ch exp d w h r x y himg
  rw [pixel_channel, pixel_channel, hsum, htotal]

/-- Settles O45: the sum of a channel, the total weight and so the quotient read the image in that channel alone. -/
theorem channelsAreIndependent : Obligations.ChannelsAreIndependent := by
  unfold Obligations.ChannelsAreIndependent
  intro exp d img img' w h r x y
  exact ⟨pixel_congr .red exp d w h r x y, pixel_congr .green exp d w h r x y, pixel_congr .blue exp d w h r x y,
    pixel_congr .alpha exp d w h r x y⟩

/-! ### Exact arithmetic -/

/-- Every integer of at most 24 bits is a binary32 magnitude. -/
theorem exists_magUnits_eq {n : Nat} (h : n < 2 ^ 24) : ∃ m, magUnits m = n * 2 ^ 149 := by
  rcases Nat.eq_zero_or_pos n with rfl | hpos
  · exact ⟨0, by simp⟩
  · have hlo := Nat.log2_self_le hpos.ne'
    have hhi := Nat.lt_log2_self (n := n)
    have hlog : n.log2 < 24 := (Nat.pow_lt_pow_iff_right (by norm_num)).mp (hlo.trans_lt h)
    generalize n.log2 = l at *
    refine ⟨n * 2 ^ (23 - l) + (126 + l) * 2 ^ 23, ?_⟩
    have hlo' : 2 ^ 23 ≤ n * 2 ^ (23 - l) := by
      calc 2 ^ 23 = 2 ^ l * 2 ^ (23 - l) := by rw [← pow_add]; congr 1; omega
        _ ≤ _ := Nat.mul_le_mul_right _ hlo
    have hhi' : n * 2 ^ (23 - l) ≤ 2 ^ 24 := by
      calc n * 2 ^ (23 - l) ≤ 2 ^ (l + 1) * 2 ^ (23 - l) := Nat.mul_le_mul_right _ hhi.le
        _ = 2 ^ 24 := by rw [← pow_add]; congr 1; omega
    rw [magUnits_scaled _ _ hhi' (.inr hlo'), Nat.mul_assoc, ← pow_add]
    congr 2
    omega

/-- R12: a byte's value is exact. -/
theorem u8ToF32_exact (p : Byte) :
    ∃ m : Fin 0x7F800000, u8ToF32 p = .fin false m ∧ magUnits m.val = p.toNat * 2 ^ 149 := by
  have hp := p.isLt
  obtain ⟨m, hm⟩ := exists_magUnits_eq (n := p.toNat) (by omega)
  have hround : rndMag (p.toNat * 2 ^ 149) 1 = m := by
    rw [← hm]
    simpa using rndMag_exact m Nat.one_pos
  have hval : u8ToF32 p = rnd32 false (p.toNat * 2 ^ 149) 1 := rfl
  obtain ⟨hfin, heq⟩ := rnd32_eq_fin_of_lt (num := p.toNat * 2 ^ 149) false Nat.one_pos (by omega)
  exact ⟨⟨_, hfin⟩, hval.trans heq, by simpa only [hround] using hm⟩

theorem zero_fadd (m : Fin 0x7F800000) : fadd .zero (.fin false m) = .fin false m := by
  have hround := rndMag_exact (den := 1) m.val Nat.one_pos
  rw [F32.zero, fadd_pos, magUnits_zero, Nat.zero_add, ← Nat.mul_one (magUnits m.val), hround]
  exact ofMag_of_lt false m.isLt

theorem one_fmul (m : Fin 0x7F800000) : fmul .one (.fin false m) = .fin false m := by
  rw [F32.one, fmul_pos, magUnits_one, Nat.mul_comm, rndMag_exact _ (by positivity)]
  exact ofMag_of_lt false m.isLt

theorem fdiv_one (m : Fin 0x7F800000) : fdiv (.fin false m) .one = .fin false m := by
  rw [F32.one, fdiv_fin _ _ _ _ (by decide), magUnits_one, rndMag_exact _ (by positivity)]
  exact ofMag_of_lt false m.isLt

/-- A byte quantizes to itself. -/
theorem q8_u8ToF32 (p : Byte) : q8 (u8ToF32 p) = p := by
  have hp := p.isLt
  obtain ⟨m, hval, hm⟩ := u8ToF32_exact p
  have hunits : magUnits (m.val : Int).toNat = p.toNat * 2 ^ 149 := hm
  have hround : roundDiv (p.toNat * 2 ^ 149) (2 ^ 149) = p.toNat :=
    le_antisymm (roundDiv_le (by positivity) le_rfl) (le_roundDiv (by positivity) le_rfl)
  apply BitVec.eq_of_toNat_eq
  rw [hval, q8_toNat rfl]
  simp only [Bool.false_eq_true, if_false, byteAt, hunits, hround]
  omega

/-! ### Radius 0 -/

theorem visit_center {exp : F32 → F32} (hexp : ExpLaws exp) {d : F32} (hd : GoodDenominator d) (img : Image) {w h x y : Nat}
    (hx : x < w) (hy : y < h) (acc : Accum) : visit exp img w h d x y acc (0, 0) = accAdd .one (img x y) acc := by
  have hin : inBounds w h x y = true := (inBounds_iff w h x y).mpr (by omega)
  simp [visit, hin, weight_center hexp hd]

theorem scanOffsets_zero : scanOffsets 0 = [(0, 0)] := rfl

/-- Settles O44: the window is its center, of weight 1.0, and a byte over 1.0 comes back as it is. -/
theorem radiusZeroIsTheIdentity : Obligations.RadiusZeroIsTheIdentity := by
  unfold Obligations.RadiusZeroIsTheIdentity
  intro exp d img w h x y hexp hd hx hy
  have hacc : pixelAcc exp img w h 0 d x y = accAdd .one (img x y) accZero := by
    rw [pixelAcc, scanOffsets_zero]
    exact visit_center hexp hd img hx hy accZero
  refine rgba_ext fun ch => ?_
  obtain ⟨m, hval, -⟩ := u8ToF32_exact (ch.of (img x y))
  have hzero : ch.of accZero.sums = .zero := by cases ch <;> rfl
  have htotal : fadd accZero.total .one = .one := zero_fadd _
  rw [pixel_channel, hacc, accAdd_sum, accAdd_total, hzero, htotal, hval, one_fmul, zero_fadd, fdiv_one, ← hval, q8_u8ToF32]

/-! ### Bounds that rounding keeps -/

theorem AtMost.mono {k k' : Nat} {f : F32} (h : AtMost k f) (hle : k ≤ k') : AtMost k' f := by
  obtain ⟨m, hf, hm⟩ := h
  exact ⟨m, hf, hm.trans hle⟩

theorem atMost_ofMag_iff {k m : Nat} (hk : k < 0x7F800000) : AtMost k (ofMag false m) ↔ m ≤ k := by
  constructor
  · rintro ⟨n, hn, hle⟩
    by_cases hm : m < 0x7F800000
    · rw [ofMag_of_lt false hm, F32.fin.injEq] at hn
      rwa [← hn.2] at hle
    · rw [ofMag_of_ge false hm] at hn
      cases hn
  · exact fun hle => ⟨⟨m, by omega⟩, ofMag_of_lt false _, hle⟩

section

variable {k l : Nat} {a b : F32} (hk : k < 0x7F800000)

include hk

/-- A sum stays at most k, an even pattern, when what is added is at most half of the gap above k. -/
theorem atMost_fadd (heven : k % 2 = 0) (hhalf : magUnits k + 2 * magUnits l ≤ magUnits (k + 1)) (ha : AtMost k a)
    (hb : AtMost l b) : AtMost k (fadd a b) := by
  obtain ⟨m, rfl, hm⟩ := ha
  obtain ⟨n, rfl, hn⟩ := hb
  have hm' := magUnits_strictMono.monotone hm
  have hn' := magUnits_strictMono.monotone hn
  rw [fadd_pos, atMost_ofMag_iff hk, ← not_lt, lt_rndMag_iff _ Nat.one_pos]
  omega

/-- A factor of at most 1.0 makes no value larger. -/
theorem atMost_fmul (ha : AtMost 0x3F800000 a) (hb : AtMost k b) : AtMost k (fmul a b) := by
  obtain ⟨m, rfl, hm⟩ := ha
  obtain ⟨n, rfl, hn⟩ := hb
  rw [fmul_pos, atMost_ofMag_iff hk, ← magUnits_one]
  refine rndMag_le (magUnits_pos (by norm_num)) ?_
  rw [Nat.mul_comm (magUnits k)]
  exact Nat.mul_le_mul (magUnits_strictMono.monotone hm) (magUnits_strictMono.monotone hn)

/-- A divisor of at least 1.0 makes no value larger. -/
theorem atMost_fdiv (ha : AtMost k a) (hb : AtLeastOne b) : AtMost k (fdiv a b) := by
  obtain ⟨m, rfl, hm⟩ := ha
  obtain ⟨n, rfl, hn⟩ := hb
  rw [fdiv_fin _ _ _ _ (by omega), bne_self_eq_false, atMost_ofMag_iff hk, ← magUnits_one]
  exact rndMag_le (magUnits_pos (by omega))
    (Nat.mul_le_mul (magUnits_strictMono.monotone hm) (magUnits_strictMono.monotone hn))

/-- A finite sum of values that are not negative is at least 1.0 when one of them is. -/
theorem atLeastOne_fadd (ha : AtMost k a) (hb : AtMost l b) (hfin : AtMost k (fadd a b))
    (h : AtLeastOne a ∨ AtLeastOne b) : AtLeastOne (fadd a b) := by
  obtain ⟨m, rfl, -⟩ := ha
  obtain ⟨n, rfl, -⟩ := hb
  rw [fadd_pos] at hfin ⊢
  have hsum := (atMost_ofMag_iff hk).mp hfin
  have hm : m.val ≤ rndMag (magUnits m.val + magUnits n.val) 1 := le_rndMag Nat.one_pos (by omega)
  have hn : n.val ≤ rndMag (magUnits m.val + magUnits n.val) 1 := le_rndMag Nat.one_pos (by omega)
  refine ⟨⟨_, hsum.trans_lt hk⟩, ofMag_of_lt false _, ?_⟩
  rcases h with ⟨m', ha, hone⟩ | ⟨n', hb, hone⟩
  · cases ha
    exact hone.trans hm
  · cases hb
    exact hone.trans hn

end

theorem atMost_u8ToF32 (p : Byte) : AtMost 0x437F0000 (u8ToF32 p) := by
  obtain ⟨m, hval, hm⟩ := u8ToF32_exact p
  have h255 : magUnits 0x437F0000 = 255 * 2 ^ 149 := by decide
  have hp := p.isLt
  exact ⟨m, hval, magUnits_strictMono.le_iff_le.mp (by omega)⟩

/-! ### The accumulator of a window of any size -/

/-- R116: the total weight is at most 2^24, and each sum at most 2^32. There a weight, and a product of a weight and a
byte, is at most half of the gap to the next value, so rounding takes the sum back. -/
structure InRange (acc : Accum) : Prop where
  total : AtMost 0x4B800000 acc.total
  sums : ∀ ch : Channel, AtMost 0x4F800000 (ch.of acc.sums)

theorem inRange_accZero : InRange accZero where
  total := ⟨_, rfl, Nat.zero_le _⟩
  sums ch := by cases ch <;> exact ⟨_, rfl, Nat.zero_le _⟩

theorem inRange_accAdd {w : F32} {acc : Accum} (h : InRange acc) (hw : AtMost 0x3F800000 w) (p : Rgba Byte) :
    InRange (accAdd w p acc) where
  total := atMost_fadd (by norm_num) (by norm_num) (by decide) h.total hw
  sums ch := by
    rw [accAdd_sum]
    exact atMost_fadd (by norm_num) (by norm_num) (by decide) (h.sums ch)
      (atMost_fmul (by norm_num) hw (atMost_u8ToF32 _))

section

variable {exp : F32 → F32} {d : F32} (hexp : ExpLaws exp) (hd : GoodDenominator d) (img : Image) {w h x y : Nat}

include hexp hd

theorem inRange_visit {acc : Accum} (hacc : InRange acc) {o : Int × Int} (ho : distSq o.1 o.2 ≤ 2 ^ 63) :
    InRange (visit exp img w h d x y acc o) ∧ (AtLeastOne acc.total → AtLeastOne (visit exp img w h d x y acc o).total) := by
  unfold visit
  split
  · have hw := weight_atMost_one hexp hd ho
    have hnext := inRange_accAdd hacc hw (img (x + o.1).toNat (y + o.2).toNat)
    exact ⟨hnext, fun hone => atLeastOne_fadd (by norm_num) hacc.total hw hnext.total (.inl hone)⟩
  · exact ⟨hacc, id⟩

/-- The rest of a window keeps the range, and a total weight of at least 1.0. -/
theorem inRange_foldl {acc : Accum} (hacc : InRange acc) {offsets : List (Int × Int)}
    (hdist : ∀ o ∈ offsets, distSq o.1 o.2 ≤ 2 ^ 63) :
    InRange (offsets.foldl (visit exp img w h d x y) acc) ∧
      (AtLeastOne acc.total → AtLeastOne (offsets.foldl (visit exp img w h d x y) acc).total) := by
  induction offsets generalizing acc with
  | nil => exact ⟨hacc, id⟩
  | cons o offsets ih =>
    obtain ⟨hvisit, hone⟩ := inRange_visit hexp hd img hacc (hdist o (by simp))
    obtain ⟨hrest, hone'⟩ := ih hvisit fun o' ho' => hdist o' (by simp [ho'])
    exact ⟨hrest, hone' ∘ hone⟩

theorem pixelAcc_inRange {r : Nat} (hr : r < 2 ^ 31) (hx : x < w) (hy : y < h) :
    InRange (pixelAcc exp img w h r d x y) ∧ AtLeastOne (pixelAcc exp img w h r d x y).total := by
  have hdist : ∀ o ∈ scanOffsets r, distSq o.1 o.2 ≤ 2 ^ 63 := fun o ho => by
    obtain ⟨hi, hj⟩ := mem_scanOffsets.mp ho
    exact distSq_le (abs_le.mpr (by omega)) (abs_le.mpr (by omega))
  have hcenter : ((0, 0) : Int × Int) ∈ scanOffsets r := mem_scanOffsets.mpr (by simp)
  obtain ⟨before, behind, hsplit⟩ := List.append_of_mem hcenter
  rw [hsplit, List.forall_mem_append, List.forall_mem_cons] at hdist
  obtain ⟨hdistBefore, -, hdistBehind⟩ := hdist
  have hone : AtMost 0x3F800000 .one := ⟨_, rfl, le_rfl⟩
  have hbefore : InRange (before.foldl (visit exp img w h d x y) accZero) :=
    (inRange_foldl hexp hd img inRange_accZero hdistBefore).1
  have hat := inRange_accAdd hbefore hone (img x y)
  have hatOne := atLeastOne_fadd (by norm_num) hbefore.total hone hat.total (.inr ⟨_, rfl, le_rfl⟩)
  obtain ⟨hall, hkept⟩ := inRange_foldl hexp hd img hat hdistBehind
  rw [pixelAcc, hsplit, List.foldl_append, List.foldl_cons, visit_center hexp hd img hx hy]
  exact ⟨hall, hkept hatOne⟩

end

/-- Settles O46: the center adds 1.0 to the total weight, no later weight takes it away, and rounding holds every sum in
range, so that the quotients are finite. -/
theorem totalWeightIsAtLeastOne : Obligations.TotalWeightIsAtLeastOne := by
  unfold Obligations.TotalWeightIsAtLeastOne
  intro exp d img w h r x y hexp hd hr hx hy
  obtain ⟨hrange, hone⟩ := pixelAcc_inRange hexp hd img hr hx hy
  have hquotient : ∀ ch : Channel, AtMost 0x7F7FFFFF
      (fdiv (ch.of (pixelAcc exp img w h r d x y).sums) (pixelAcc exp img w h r d x y).total) := fun ch =>
    (atMost_fdiv (by norm_num) (hrange.sums ch) hone).mono (by norm_num)
  exact ⟨_, _, rfl, hone, hquotient .red, hquotient .green, hquotient .blue, hquotient .alpha⟩

end Sys2Proof.Machine
end

section
/-!
PROOFS. 40_convolution.md section 4: the work-item steps WI_ISSUE (R108), WI_OFFSET (R110, R111) and WI_FINISH (R114), each
as one equation for the state it leads to.
-/

namespace Sys2Proof.Machine

variable {P : Params} {s : State} {k : Nat} {c : Ctx}

/-! ### WI_ISSUE -/

/-- Settles O30: the condition of WI_ISSUE decides between the step and no step. -/
theorem issueMakesAFreshContext : Obligations.IssueMakesAFreshContext := by
  unfold Obligations.IssueMakesAFreshContext
  constructor
  · intro P k p s busy waiting lane free
    have hcan := (canIssue_iff P k p s).mpr ⟨busy, waiting, lane, free⟩
    rw [takeTurn, wiIssue, if_pos hcan]
    rfl
  · intro P k p s hcondition
    have hcannot : ¬canIssue P k p s = true := by
      rw [canIssue_iff]
      rintro ⟨busy, waiting, lane, free⟩
      rcases hcondition with h | h | h | h
      · exact h busy
      · exact h waiting
      · exact absurd lane (not_lt.mpr h)
      · exact h free
    rw [takeTurn, wiIssue, if_neg hcannot]

/-! ### The accesses of a context -/

theorem memRead_of_fits {a : Nat} (m : Memory) (h : a + 4 ≤ dataSpaceSize) :
    memRead P m a = if P.busFault a .read = true then .busFault else .ok (readWord m a) :=
  if_neg (not_lt.mpr h)

theorem memWrite_of_fits {a : Nat} (v : Word) (m : Memory) (h : a + 4 ≤ dataSpaceSize) :
    memWrite P m a v = if P.busFault a .write = true then .busFault else .ok (writeWord a v m) :=
  if_neg (not_lt.mpr h)

/-! ### The steps of a valid context of a running job -/

/-- R114, the state that WI_FINISH leads to. -/
def finished (k : Nat) (c : Ctx) (s : State) : State :=
  { s with
    mem := writeWord (outputAddr s.job c) (packPixel (quantize c.acc)) s.mem
    ctxs := cellErase k s.ctxs
    job := { s.job with pending := s.job.pending - 1 } }

section

variable (busy : s.phase = .busy) (valid : cellFind k s.ctxs = some c)

include busy valid

theorem contextTurn_of_valid (P : Params) : contextTurn P k s = contextStep P k c s := by
  rw [contextTurn, valid]
  exact if_pos busy

/-- R111 -/
theorem contextTurn_offsetOut (P : Params) (scan : c.oj ≤ s.job.r)
    (outside : inBounds s.job.w s.job.h (c.x + c.oi) (c.y + c.oj) = false) :
    contextTurn P k s = .next (putCtx k (advance s.job.r c) s) := by
  rw [contextTurn_of_valid busy valid, contextStep, if_pos scan, outside]
  rfl

/-- R110 -/
theorem contextTurn_offsetIn (P : Params) (scan : c.oj ≤ s.job.r)
    (inside : inBounds s.job.w s.job.h (c.x + c.oi) (c.y + c.oj) = true)
    (fits : neighborAddr s.job c + 4 ≤ dataSpaceSize) :
    contextTurn P k s = .next
      (if P.busFault (neighborAddr s.job c) .read = true then jobFault (neighborAddr s.job c) s
       else accumulate P k c (readWord s.mem (neighborAddr s.job c)) s) := by
  rw [contextTurn_of_valid busy valid, contextStep, if_pos scan, if_pos inside, wiOffsetIn, memRead_of_fits _ fits]
  cases P.busFault (neighborAddr s.job c) .read <;> rfl

/-- R114 -/
theorem contextTurn_finish (P : Params) (done : c.oj = s.job.r + 1) (fits : outputAddr s.job c + 4 ≤ dataSpaceSize) :
    contextTurn P k s = .next
      (if P.busFault (outputAddr s.job c) .write = true then jobFault (outputAddr s.job c) s else finished k c s) := by
  have hscan : ¬c.oj ≤ s.job.r := by omega
  rw [contextTurn_of_valid busy valid, contextStep, if_neg hscan, if_pos done, wiFinish, memWrite_of_fits _ _ fits]
  cases P.busFault (outputAddr s.job c) .write <;> rfl

end

/-- Settles O31: the neighbor's address is that of its pixel, and its word is accumulated channel by channel. -/
theorem offsetStepAccumulatesTheNeighbor : Obligations.OffsetStepAccumulatesTheNeighbor := by
  unfold Obligations.OffsetStepAccumulatesTheNeighbor
  intro P k c s nx ny busy valid scan hx hy hxw hyh fits
  have haddr : neighborAddr s.job c = s.job.inBase + 4 * (ny * s.job.w + nx) := by
    rw [neighborAddr, ← hx, ← hy]
    rfl
  have inside : inBounds s.job.w s.job.h (c.x + c.oi) (c.y + c.oj) = true := by
    rw [inBounds_iff]
    omega
  refine ⟨_, _, rfl, rfl, ?_⟩
  have hstep := contextTurn_offsetIn busy valid P scan inside (by rw [haddr]; exact fits)
  rw [takeTurn, hstep, haddr, accumulate, advance_eq]
  rfl

/-- Settles O32: an offset out of bounds fails the test before any access. -/
theorem outOfBoundsOffsetIsSkipped : Obligations.OutOfBoundsOffsetIsSkipped := by
  unfold Obligations.OutOfBoundsOffsetIsSkipped
  intro P k c s busy valid scan hout
  have outside : inBounds s.job.w s.job.h (c.x + c.oi) (c.y + c.oj) = false := by
    rw [Bool.eq_false_iff, ne_eq, inBounds_iff]
    omega
  rw [takeTurn, contextTurn_offsetOut busy valid P scan outside, advance_eq]
  rfl

/-- Settles O33: the output pixel's word is the four quantized quotients, alpha in the highest byte. -/
theorem finishStepWritesThePixel : Obligations.FinishStepWritesThePixel := by
  unfold Obligations.FinishStepWritesThePixel
  intro P k c s busy valid done fits
  exact contextTurn_finish busy valid P done fits

end Sys2Proof.Machine
end

section
/-!
PROOFS. 40_convolution.md R117: the steps of two contexts of a running job commute. Each reads input words and its own
context, and writes its own context and its own output pixel, and the invariant keeps these apart (20_memory.md R54, R60).
-/

namespace Sys2Proof.Machine

variable {P : Params} {s t : State}

/-! ### Writes to different places commute -/

theorem cellFind_cellErase {α : Type} (k j : Nat) {l : List (Nat × α)} (h : Rising l) :
    cellFind j (cellErase k l) = if j = k then none else cellFind j l := by
  split
  · next hj => rw [hj, cellFind_cellErase_same k h]
  · next hj => exact cellFind_cellErase_ne hj l

theorem cellErase_cellSet_comm {α : Type} {j k : Nat} (hne : j ≠ k) (v : α) {l : List (Nat × α)} (h : Rising l) :
    cellErase k (cellSet j v l) = cellSet j v (cellErase k l) := by
  refine rising_ext (rising_cellErase _ (rising_cellSet _ _ h)) (rising_cellSet _ _ (rising_cellErase _ h)) fun i => ?_
  rw [cellFind_cellErase _ _ (rising_cellSet _ _ h), cellFind_cellSet, cellFind_cellSet, cellFind_cellErase _ _ h]
  by_cases hij : i = j
  · simp [hij, hne]
  · simp [hij]

theorem cellErase_comm {α : Type} (j k : Nat) {l : List (Nat × α)} (h : Rising l) :
    cellErase k (cellErase j l) = cellErase j (cellErase k l) := by
  refine rising_ext (rising_cellErase _ (rising_cellErase _ h)) (rising_cellErase _ (rising_cellErase _ h)) fun i => ?_
  rw [cellFind_cellErase _ _ (rising_cellErase _ h), cellFind_cellErase _ _ (rising_cellErase _ h),
    cellFind_cellErase _ _ h, cellFind_cellErase _ _ h]
  split_ifs <;> rfl

theorem writeByte_comm {a b : Nat} (hne : a ≠ b) (v w : Byte) {m : Memory} (h : Memory.wf m) :
    writeByte a v (writeByte b w m) = writeByte b w (writeByte a v m) := by
  by_cases ha : a < dataSpaceSize
  · by_cases hb : b < dataSpaceSize
    · simp only [writeByte, if_pos ha, if_pos hb]
      exact cellSet_comm hne v w h.1
    · rw [writeByte_outside hb, writeByte_outside hb]
  · rw [writeByte_outside ha, writeByte_outside ha]

theorem writeByte_writeBytes_comm (vs : List Byte) {a b : Nat} (hapart : b < a ∨ a + vs.length ≤ b) (w : Byte) {m : Memory}
    (h : Memory.wf m) : writeByte b w (writeBytes a vs m) = writeBytes a vs (writeByte b w m) := by
  induction vs generalizing a m with
  | nil => rfl
  | cons v vs ih =>
    rw [List.length_cons] at hapart
    rw [writeBytes, writeBytes, ih (by omega) (writeByte_wf _ _ h), writeByte_comm (by omega) _ _ h]

theorem writeBytes_comm (vs ws : List Byte) {a b : Nat} (hapart : a + vs.length ≤ b ∨ b + ws.length ≤ a) {m : Memory}
    (h : Memory.wf m) : writeBytes a vs (writeBytes b ws m) = writeBytes b ws (writeBytes a vs m) := by
  induction vs generalizing a m with
  | nil => rfl
  | cons v vs ih =>
    rw [List.length_cons] at hapart
    rw [writeBytes, writeBytes, writeByte_writeBytes_comm ws (by omega) _ h, ih (by omega) (writeByte_wf _ _ h)]

/-! ### What a context's step does when its access does not fault -/

/-- R110, R111: what WI_OFFSET makes of a context of the job, over the words that memory holds. -/
def scanned (P : Params) (job : Job) (m : Memory) (c : Ctx) : Ctx :=
  if inBounds job.w job.h (c.x + c.oi) (c.y + c.oj) then
    advance job.r { c with
      acc := accAdd (weight P.expF32 job.d c.oi c.oj) (unpackPixel (readWord m (neighborAddr job c))) c.acc }
  else advance job.r c

/-- The next step of a context, where there is one and its access gets no error response. -/
def moved (P : Params) (k : Nat) (s : State) : State :=
  match cellFind k s.ctxs with
  | none => s
  | some c => if c.oj ≤ s.job.r then putCtx k (scanned P s.job s.mem c) s else finished k c s

section

variable {k : Nat} {c : Ctx}

theorem moved_of_free (P : Params) (free : cellFind k s.ctxs = none) : moved P k s = s := by
  rw [moved, free]

theorem moved_of_scanning (P : Params) (valid : cellFind k s.ctxs = some c) (scan : c.oj ≤ s.job.r) :
    moved P k s = putCtx k (scanned P s.job s.mem c) s := by
  rw [moved, valid]
  exact if_pos scan

theorem moved_of_finished (P : Params) (valid : cellFind k s.ctxs = some c) (done : ¬c.oj ≤ s.job.r) :
    moved P k s = finished k c s := by
  rw [moved, valid]
  exact if_neg done

/-- R54: an in-bounds neighbor's word lies in the input region. -/
theorem neighborAddr_region {job : Job} (inside : inBounds job.w job.h (c.x + c.oi) (c.y + c.oj) = true) :
    job.inBase ≤ neighborAddr job c ∧ neighborAddr job c + 4 ≤ job.inBase + imageBytes job.w job.h := by
  rw [inBounds_iff] at inside
  exact pixelAddr_region (by omega) (by omega)

theorem contextTurn_of_free (P : Params) (free : cellFind k s.ctxs = none) : contextTurn P k s = .next s := by
  rw [contextTurn, free]

/-- A step that leaves the job running took no JOB_FAULT. -/
theorem eq_of_not_fault {o : Host.Outcome State Fault Refusal} {bad : Bool} {a : Nat} {u : State} (h : o = .next t)
    (hstep : o = .next (if bad = true then jobFault a s else u)) (tbusy : t.phase = .busy) : t = u := by
  rw [hstep, Host.Outcome.next.injEq] at h
  subst h
  cases bad with
  | false => rfl
  | true => cases tbusy

theorem contextTurn_eq_moved (hs : JobInv P s) (busy : s.phase = .busy) (h : contextTurn P k s = .next t)
    (tbusy : t.phase = .busy) : t = moved P k s := by
  obtain ⟨hlatched, -, hcontexts⟩ := hs.2 busy
  obtain ⟨-, -, -, hinFits, houtFits, -⟩ := latched_bounds hlatched
  cases hc : cellFind k s.ctxs with
  | none =>
    rw [contextTurn_of_free P hc, Host.Outcome.next.injEq] at h
    rw [moved_of_free P hc, h]
  | some c =>
    have hok := hcontexts.ctxOk hc
    by_cases scan : c.oj ≤ s.job.r
    · rw [moved_of_scanning P hc scan, scanned]
      cases inside : inBounds s.job.w s.job.h (c.x + c.oi) (c.y + c.oj) with
      | false =>
        rw [contextTurn_offsetOut busy hc P scan inside, Host.Outcome.next.injEq] at h
        exact h.symm
      | true =>
        have hfits := (neighborAddr_region inside).2.trans hinFits
        exact eq_of_not_fault h (contextTurn_offsetIn busy hc P scan inside hfits) tbusy
    · have ⟨_, _, _, _, _, hlast, _⟩ := hok
      have hfits := (outputAddr_region hok).2.trans houtFits
      rw [moved_of_finished P hc scan]
      exact eq_of_not_fault h (contextTurn_finish busy hc P (by omega) hfits) tbusy

end

/-! ### Two contexts -/

theorem putCtx_comm {j k : Nat} (hne : j ≠ k) (c c' : Ctx) (hr : Rising s.ctxs) :
    putCtx k c' (putCtx j c s) = putCtx j c (putCtx k c' s) := by
  simp only [putCtx, cellSet_comm hne c c' hr]

theorem finished_putCtx_comm {j k : Nat} (hne : j ≠ k) (c c' : Ctx) (hr : Rising s.ctxs) :
    finished k c' (putCtx j c s) = putCtx j c (finished k c' s) := by
  simp only [finished, putCtx, cellErase_cellSet_comm hne c hr]

/-- Finished contexts of different pixels write different words. -/
theorem finished_comm (j k : Nat) {c c' : Ctx} (hr : Rising s.ctxs) (hmem : Memory.wf s.mem)
    (hapart : outputAddr s.job c + 4 ≤ outputAddr s.job c' ∨ outputAddr s.job c' + 4 ≤ outputAddr s.job c) :
    finished k c' (finished j c s) = finished j c (finished k c' s) := by
  have hwords (v v' : Word) : writeWord (outputAddr s.job c') v' (writeWord (outputAddr s.job c) v s.mem) =
      writeWord (outputAddr s.job c) v (writeWord (outputAddr s.job c') v' s.mem) :=
    writeBytes_comm _ _ hapart.symm hmem
  simp only [outputAddr] at hwords
  simp only [finished, outputAddr, hwords, cellErase_comm j k hr]

/-- WI_OFFSET reads memory at its neighbor alone. -/
theorem scanned_congr {job : Job} {m m' : Memory} {c : Ctx}
    (hword : inBounds job.w job.h (c.x + c.oi) (c.y + c.oj) = true →
      readWord m' (neighborAddr job c) = readWord m (neighborAddr job c)) :
    scanned P job m' c = scanned P job m c := by
  unfold scanned
  split
  · next inside => rw [hword inside]
  · rfl

/-- R55: the word that WI_FINISH writes is no word that WI_OFFSET reads. -/
theorem scanned_finished (k : Nat) {c c' : Ctx} (hlatched : Latched s) (hok : CtxOk s.job c') :
    scanned P (finished k c' s).job (finished k c' s).mem c = scanned P s.job s.mem c := by
  obtain ⟨-, -, -, -, -, hdisjoint⟩ := latched_bounds hlatched
  refine scanned_congr (job := s.job) fun inside => readWord_writeWord_out _ _ ?_
  obtain ⟨hin, hin'⟩ := neighborAddr_region inside
  obtain ⟨hout, hout'⟩ : s.job.outBase ≤ _ ∧ _ ≤ s.job.outBase + imageBytes s.job.w s.job.h := outputAddr_region hok
  omega

theorem outputAddr_apart (hpixels : PixelsOk s) (hcontexts : ContextsOk P s) {j k : Nat} (hne : j ≠ k) {c c' : Ctx}
    (hj : cellFind j s.ctxs = some c) (hk : cellFind k s.ctxs = some c') :
    outputAddr s.job c + 4 ≤ outputAddr s.job c' ∨ outputAddr s.job c' + 4 ≤ outputAddr s.job c := by
  obtain ⟨-, -, hnodup, -⟩ := hpixels
  obtain ⟨hx, -⟩ := hcontexts.ctxOk hj
  obtain ⟨hx', -⟩ := hcontexts.ctxOk hk
  refine pixelAddr_apart hx hx' fun hsame => hne ?_
  have hpixel : ctxPixel c = ctxPixel c' := by rw [ctxPixel, ctxPixel, hsame.1, hsame.2]
  exact congrArg Prod.fst (List.inj_on_of_nodup_map hnodup (cellFind_mem hj) (cellFind_mem hk) hpixel)

theorem cellFind_moved {j k : Nat} (hne : k ≠ j) : cellFind k (moved P j s).ctxs = cellFind k s.ctxs := by
  unfold moved
  split
  · rfl
  · split
    · exact cellFind_cellSet_ne hne _ _
    · exact cellFind_cellErase_ne hne _

theorem moved_job_r (P : Params) (j : Nat) (s : State) : (moved P j s).job.r = s.job.r := by
  unfold moved
  split
  · rfl
  · split <;> rfl

/-- A context that scans, and any other. -/
theorem moved_comm_of_scanning (hs : JobInv P s) (busy : s.phase = .busy) {j k : Nat} (hne : j ≠ k) {c c' : Ctx}
    (hj : cellFind j s.ctxs = some c) (hk : cellFind k s.ctxs = some c') (scan : c.oj ≤ s.job.r) :
    moved P k (moved P j s) = moved P j (moved P k s) := by
  obtain ⟨hlatched, -, hcontexts⟩ := hs.2 busy
  have hrising := hcontexts.1
  have hj' : cellFind j (moved P k s).ctxs = some c := (cellFind_moved hne).trans hj
  have hk' : cellFind k (moved P j s).ctxs = some c' := (cellFind_moved hne.symm).trans hk
  have scan' : c.oj ≤ (moved P k s).job.r := scan.trans_eq (moved_job_r P k s).symm
  rw [moved_of_scanning P hj' scan']
  by_cases hscan : c'.oj ≤ s.job.r
  · have hscan' : c'.oj ≤ (moved P j s).job.r := hscan.trans_eq (moved_job_r P j s).symm
    rw [moved_of_scanning P hk' hscan', moved_of_scanning P hj scan, moved_of_scanning P hk hscan]
    exact putCtx_comm hne _ _ hrising
  · have hdone' : ¬c'.oj ≤ (moved P j s).job.r := moved_job_r P j s ▸ hscan
    rw [moved_of_finished P hk' hdone', moved_of_scanning P hj scan, moved_of_finished P hk hscan,
      scanned_finished k hlatched (hcontexts.ctxOk hk)]
    exact finished_putCtx_comm hne _ _ hrising

theorem moved_comm (hs : JobInv P s) (hmem : Memory.wf s.mem) (busy : s.phase = .busy) {j k : Nat} (hne : j ≠ k) :
    moved P k (moved P j s) = moved P j (moved P k s) := by
  cases hj : cellFind j s.ctxs with
  | none => rw [moved_of_free P hj, moved_of_free P ((cellFind_moved hne).trans hj)]
  | some c =>
    cases hk : cellFind k s.ctxs with
    | none => rw [moved_of_free P hk, moved_of_free P ((cellFind_moved hne.symm).trans hk)]
    | some c' =>
      by_cases scan : c.oj ≤ s.job.r
      · exact moved_comm_of_scanning hs busy hne hj hk scan
      · by_cases scan' : c'.oj ≤ s.job.r
        · exact (moved_comm_of_scanning hs busy hne.symm hk hj scan').symm
        · obtain ⟨-, hpixels, hcontexts⟩ := hs.2 busy
          have hdone : ¬c.oj ≤ (moved P k s).job.r := moved_job_r P k s ▸ scan
          have hdone' : ¬c'.oj ≤ (moved P j s).job.r := moved_job_r P j s ▸ scan'
          rw [moved_of_finished P ((cellFind_moved hne.symm).trans hk) hdone',
            moved_of_finished P ((cellFind_moved hne).trans hj) hdone, moved_of_finished P hj scan,
            moved_of_finished P hk scan']
          exact finished_comm j k hcontexts.1 hmem (outputAddr_apart hpixels hcontexts hne hj hk)

/-- Two steps of contexts that leave the job running are the two moves. -/
theorem contextTurn_twice_eq_moved {a b : State} {j k : Nat} (hs : JobInv P s) (busy : s.phase = .busy)
    (ha : contextTurn P j s = .next a) (hb : contextTurn P k a = .next b) (bbusy : b.phase = .busy) :
    b = moved P k (moved P j s) := by
  have abusy : a.phase = .busy := by
    by_contra idle
    rw [contextTurn_of_not_busy P k idle, Host.Outcome.next.injEq] at hb
    exact idle (hb ▸ bbusy)
  have hinv : JobInv P a := blockStep_jobInv (contextTurn_cases ha) hs
  rw [contextTurn_eq_moved hinv abusy hb bbusy, contextTurn_eq_moved hs busy ha abusy]

/-! ### Reads of input words beside those of R110 -/

section

variable {k : Nat} {c : Ctx} (busy : s.phase = .busy) (valid : cellFind k s.ctxs = some c) (scan : c.oj ≤ s.job.r)
  (inside : inBounds s.job.w s.job.h (c.x + c.oi) (c.y + c.oj) = true)

include busy valid scan inside

/-- R54: which extra reads a context that processes an in-bounds neighbor makes, and what they come to. -/
theorem fetchTurn_of_processing (hlatched : Latched s) (oi oj : Int) :
    fetchTurn P k oi oj s = .next
      (if (|oi| ≤ s.job.r ∧ |oj| ≤ s.job.r ∧ inBounds s.job.w s.job.h (c.x + oi) (c.y + oj) = true) ∧
          P.busFault (neighborAddr s.job { c with oi := oi, oj := oj }) .read = true then
        jobFault (neighborAddr s.job { c with oi := oi, oj := oj }) s
      else s) := by
  have hcan : canFetch c oi oj s = true ↔
      |oi| ≤ s.job.r ∧ |oj| ≤ s.job.r ∧ inBounds s.job.w s.job.h (c.x + oi) (c.y + oj) = true := by
    rw [canFetch_iff, abs_le, abs_le]
    exact and_iff_right ((processes_iff c s).mpr ⟨busy, scan, inside⟩)
  rw [fetchTurn, valid]
  simp only [← hcan]
  by_cases hfetch : canFetch c oi oj s = true
  · obtain ⟨-, -, hin⟩ := hcan.mp hfetch
    obtain ⟨-, -, -, hinFits, -⟩ := latched_bounds hlatched
    have hfits := (neighborAddr_region (c := { c with oi := oi, oj := oj }) hin).2.trans hinFits
    simp only [hfetch, if_true, true_and, memRead_of_fits _ hfits]
    cases P.busFault (neighborAddr s.job { c with oi := oi, oj := oj }) .read <;> rfl
  · simp [hfetch]

/-- R57: a WI_OFFSET that makes no access finds the word that memory holds. -/
theorem heldTurn_of_processing (hlatched : Latched s) :
    .next (heldTurn P k s) = contextTurn { P with busFault := fun _ _ => false } k s := by
  obtain ⟨-, -, -, hinFits, -⟩ := latched_bounds hlatched
  have hprocesses := (processes_iff c s).mpr ⟨busy, scan, inside⟩
  rw [contextTurn_offsetIn busy valid _ scan inside ((neighborAddr_region inside).2.trans hinFits), heldTurn, valid]
  simp only [hprocesses, if_true]
  rfl

end

/-- Settles O57: steps that do not fault are moves, and moves commute, since each changes its own context and at most the
word of its own output pixel; an extra read only asks whether BUS_FAULT holds. -/
theorem contextStepsCommute : Obligations.ContextStepsCommute := by
  unfold Obligations.ContextStepsCommute
  constructor
  · intro P k c oi oj s hinv busy valid scan inside
    obtain ⟨-, -, hjob⟩ := machineInv_iff.mp hinv
    obtain ⟨hlatched, -⟩ := hjob.2 busy
    exact ⟨fetchTurn_of_processing busy valid scan inside hlatched oi oj,
      heldTurn_of_processing busy valid scan inside hlatched⟩
  · intro P j k s a b c d hinv busy hne ha hb hc hd bbusy dbusy
    obtain ⟨hmem, -, hjob⟩ := machineInv_iff.mp hinv
    rw [contextTurn_twice_eq_moved hjob busy ha hb bbusy, contextTurn_twice_eq_moved hjob busy hc hd dbusy]
    exact moved_comm hjob hmem busy hne

end Sys2Proof.Machine
end

section
/-!
PROOFS. 41_dispatch.md sections 1 and 2: what START does with the checks of R141 (R142, R143), whose turn is next (R145), and
the two ends of a job, JOB_COMPLETE (R146) and JOB_FAULT (R147).
-/

namespace Sys2Proof.Machine

open Sys2Proof.Slice0

variable {s : State}

/-! ### START -/

theorem exec_start_of_valid (idle : s.phase ≠ .busy) (hchecks : firstFailingCheck s.regs = none) :
    exec .start s = .next (respondOk (setupJob (operandsOf s.regs) s)) := by
  rw [firstFailingCheck_eq_validate] at hchecks
  rw [exec_start_of_not_busy idle, startJob_of_valid hchecks]

/-- R142, the state of a job that runs. -/
theorem setupJob_of_pixels {o : Operands} (h : pixelCount o.w o.h ≠ 0) (s : State) :
    setupJob o s = { s with
      job := jobOf o, phase := .busy, ecode := .noError, errAddr := 0, breach := false
      unread := outputRegion (jobOf o) :: s.unread } := by
  simp only [setupJob, if_neg h]

/-- R143, the state after an empty image. -/
theorem setupJob_of_empty {o : Operands} (h : pixelCount o.w o.h = 0) (s : State) :
    setupJob o s = { s with
      job := { jobOf o with todo := [] }, phase := .done, ecode := .noError, errAddr := 0, breach := false } := by
  have htodo : jobOf o = { jobOf o with todo := [] } := by
    have hgrid : grid o.w o.h = [] := List.length_eq_zero_iff.mp ((length_grid _ _).trans h)
    rw [jobOf, hgrid]
  rw [← htodo, setupJob, if_pos h, if_pos h]

/-- Settles O24: setup issues no pixel yet, so that the whole grid waits, each pixel of it once. -/
theorem startBeginsTheJob : Obligations.StartBeginsTheJob := by
  unfold Obligations.StartBeginsTheJob
  intro s idle hchecks hwidth hheight
  have hpixels : pixelCount (operandsOf s.regs).w (operandsOf s.regs).h ≠ 0 :=
    Nat.mul_ne_zero (BitVec.toNat_ne_iff_ne.mpr hwidth) (BitVec.toNat_ne_iff_ne.mpr hheight)
  refine ⟨grid s.regs.width.toNat s.regs.height.toNat, nodup_grid _ _, mem_grid _ _, ?_⟩
  rw [exec_start_of_valid idle hchecks, setupJob_of_pixels hpixels]
  rfl

/-- Settles O25: where a side is 0 there is no pixel, and setup goes to DONE. -/
theorem emptyImageIsDoneAtOnce : Obligations.EmptyImageIsDoneAtOnce := by
  unfold Obligations.EmptyImageIsDoneAtOnce
  intro s idle hchecks hempty
  have hpixels : pixelCount (operandsOf s.regs).w (operandsOf s.regs).h = 0 := by
    rw [pixelCount, Nat.mul_eq_zero]
    exact hempty.imp (congrArg BitVec.toNat) (congrArg BitVec.toNat)
  rw [exec_start_of_valid idle hchecks, setupJob_of_empty hpixels]
  rfl

/-- Settles O23: the checks written out on the registers are those of START, and a failing one is the entry to ERROR. -/
theorem startReportsTheFirstFailingCheck : Obligations.StartReportsTheFirstFailingCheck := by
  unfold Obligations.StartReportsTheFirstFailingCheck
  intro s code idle hfails
  rw [firstFailingCheck_eq_validate] at hfails
  rw [exec_start_of_not_busy idle, startJob, hfails]
  rfl

/-! ### The turn that is next -/

/-- Settles O6: the first turn of the list is next, or the host's outside BUSY, and the host performs the access it stands
at, which using up the turn does not move. -/
theorem stepRunsTheFetchedInstruction : Obligations.StepRunsTheFetchedInstruction := by
  unfold Obligations.StepRunsTheFetchedInstruction
  refine ⟨fun s turn rest hturns => ?_, fun s hturns idle => ?_, fun s desc data hnext hfetch => ?_⟩
  · rw [step, nextTurn, popTurn, hturns]
  · simp only [step, nextTurn, popTurn, hturns, if_neg idle]
  · have hfetch' : fetch (popTurn s) = some (.access desc data) := by
      rw [fetch, popTurn_host]
      exact hfetch
    rw [step, hnext, takeTurn, hostTurn_of_fetch hfetch', popTurn_host, hostOp]

/-! ### The ends of a job -/

/-- Settles O34: JOB_FAULT is the havoc of the output region and then the entry to ERROR, which leaves memory alone. -/
theorem jobFaultEntersError : Obligations.JobFaultEntersError := by
  unfold Obligations.JobFaultEntersError
  intro a s
  exact ⟨_, _, rfl, fun b hout => readByte_havoc_out _ s hout, fun b hin hb => readByte_havoc_in _ s hin hb⟩

/-- Settles O35: the condition of JOB_COMPLETE decides between the step and no step. -/
theorem jobCompleteEntersDone : Obligations.JobCompleteEntersDone := by
  unfold Obligations.JobCompleteEntersDone
  constructor
  · intro P s busy issued finished hclean
    have hcan := (canComplete_iff s).mpr ⟨busy, issued, finished⟩
    rw [takeTurn, jobComplete, if_pos hcan, hclean]
    rfl
  · intro P s hcondition
    have hcannot : ¬canComplete s = true := by
      rw [canComplete_iff]
      rintro ⟨busy, issued, finished⟩
      rcases hcondition with h | h | h
      · exact h busy
      · exact h issued
      · exact h finished
    rw [takeTurn, jobComplete, if_neg hcannot]

end Sys2Proof.Machine
end

section
/-!
PROOFS. 41_dispatch.md R150: every access that the block can make from a state with the invariant lies in a region of its
job, so none leaves the data space.
-/

namespace Sys2Proof.Machine

variable {P : Params} {s : State}

/-! ### The addresses of a running job -/

theorem pixelAddr_mod_four {base : Nat} (h : base % 4 = 0) (w x y : Nat) : pixelAddr base w x y % 4 = 0 := by
  unfold pixelAddr
  omega

/-- R58, R141: no byte is both an input and an output byte. -/
theorem Latched.regions_disjoint (h : Latched s) (a : Nat) :
    ¬((inputRegion s.job).holds a = true ∧ (outputRegion s.job).holds a = true) := by
  obtain ⟨-, -, -, -, -, hdisjoint⟩ := latched_bounds h
  rw [holds_iff, holds_iff]
  simp only [inputRegion, outputRegion]
  omega

/-- Settles O47: a pixel's word lies in the bytes of its image, and START has checked where both images lie. -/
theorem engineAddressesStayInTheirRegions : Obligations.EngineAddressesStayInTheirRegions := by
  unfold Obligations.EngineAddressesStayInTheirRegions
  intro P s k c hinv busy valid
  obtain ⟨-, -, hjob⟩ := machineInv_iff.mp hinv
  obtain ⟨hlatched, -, hcontexts⟩ := hjob.2 busy
  obtain ⟨-, hinAligned, houtAligned, hinFits, houtFits, -⟩ := latched_bounds hlatched
  obtain ⟨hlow, hhigh⟩ := outputAddr_region (hcontexts.ctxOk valid)
  refine ⟨fun oi oj inside => ?_, pixelAddr_mod_four houtAligned _ _ _, hlow, hhigh, hinFits, houtFits,
    hlatched.regions_disjoint⟩
  have hregion := neighborAddr_region (c := { c with oi := oi, oj := oj }) inside
  exact ⟨pixelAddr_mod_four hinAligned _ _ _, hregion⟩

/-! ### What a turn can answer -/

/-- Some access of a valid context would leave the data space. -/
def AccessOutside (s : State) : Prop :=
  ∃ k c, cellFind k s.ctxs = some c ∧
    ((∃ oi oj, inBounds s.job.w s.job.h (c.x + oi) (c.y + oj) = true ∧
        dataSpaceSize < neighborAddr s.job { c with oi := oi, oj := oj } + 4) ∨
      dataSpaceSize < outputAddr s.job c + 4)

theorem JobInv.not_accessOutside (hs : JobInv P s) (busy : s.phase = .busy) : ¬AccessOutside s := by
  obtain ⟨hlatched, -, hcontexts⟩ := hs.2 busy
  obtain ⟨-, -, -, hinFits, houtFits, -⟩ := latched_bounds hlatched
  rintro ⟨k, c, valid, ⟨oi, oj, inside, hout⟩ | hout⟩
  · have hregion := neighborAddr_region (c := { c with oi := oi, oj := oj }) inside
    exact absurd (hregion.2.trans hinFits) (not_le.mpr hout)
  · have hregion := outputAddr_region (hcontexts.ctxOk valid)
    exact absurd (hregion.2.trans houtFits) (not_le.mpr hout)

/-- A valid context's step answers a next state, but for an access outside the data space. -/
theorem contextStep_answers {k : Nat} {c : Ctx} (P : Params) (valid : cellFind k s.ctxs = some c) :
    (∃ t, contextStep P k c s = .next t) ∨ (contextStep P k c s = .fault .engineAddress ∧ AccessOutside s) := by
  unfold contextStep
  split
  · split
    · next inside =>
      unfold wiOffsetIn
      rcases memRead_cases P s.mem (neighborAddr s.job c) with ⟨e, hout⟩ | ⟨e, -⟩ | ⟨e, -⟩ <;> rw [e]
      · exact .inr ⟨rfl, k, c, valid, .inl ⟨c.oi, c.oj, inside, hout⟩⟩
      · exact .inl ⟨_, rfl⟩
      · exact .inl ⟨_, rfl⟩
    · exact .inl ⟨_, rfl⟩
  · split
    · unfold wiFinish
      rcases memWrite_cases P s.mem (outputAddr s.job c) (packPixel (quantize c.acc)) with
        ⟨e, hout⟩ | ⟨e, -⟩ | ⟨e, -⟩ <;> rw [e]
      · exact .inr ⟨rfl, k, c, valid, .inr hout⟩
      · exact .inl ⟨_, rfl⟩
      · exact .inl ⟨_, rfl⟩
    · exact .inl ⟨_, rfl⟩

/-- A turn of the block answers a next state, but for an access outside the data space while a job runs. -/
theorem blockTurn_answers {turn : Turn} (P : Params) (hblock : isBlockTurn turn = true) (s : State) :
    (∃ t, takeTurn P turn s = .next t) ∨
      (takeTurn P turn s = .fault .engineAddress ∧ s.phase = .busy ∧ AccessOutside s) := by
  by_cases busy : s.phase = .busy
  · cases turn with
    | host | reset => cases hblock
    | issue | held | complete => exact .inl ⟨_, rfl⟩
    | context k =>
      rw [takeTurn]
      cases hc : cellFind k s.ctxs with
      | none => exact .inl ⟨s, contextTurn_of_free P hc⟩
      | some c =>
        rw [contextTurn_of_valid busy hc]
        exact (contextStep_answers P hc).imp_right fun ⟨hfault, hout⟩ => ⟨hfault, busy, hout⟩
    | fetch k oi oj =>
      rcases fetchTurn_cases P k oi oj s with hnext | ⟨c, hc, hfetch, ⟨hnext, -⟩ | ⟨hfault, hout⟩⟩
      · exact .inl ⟨_, hnext⟩
      · exact .inl ⟨_, hnext⟩
      · obtain ⟨-, -, -, inside⟩ := (canFetch_iff c oi oj s).mp hfetch
        exact .inr ⟨hfault, busy, k, c, hc, .inl ⟨oi, oj, inside, hout⟩⟩
  · exact .inl ⟨s, blockIsStillOutsideBusy P turn s busy hblock⟩

/-- R150: with the invariant a turn of the block answers a next state. -/
theorem JobInv.blockTurn_next (hs : JobInv P s) {turn : Turn} (hblock : isBlockTurn turn = true) :
    ∃ t, takeTurn P turn s = .next t := by
  rcases blockTurn_answers P hblock s with hnext | ⟨-, busy, hout⟩
  · exact hnext
  · exact absurd hout (hs.not_accessOutside busy)

/-- The host's turn answers a next state, but for an access of its own that runs past the last byte. -/
theorem hostTurn_answers (s : State) : (∃ t, hostTurn s = .next t) ∨ hostTurn s = .fault .hostAddress := by
  unfold hostTurn
  split
  · exact .inl ⟨_, rfl⟩
  · next op _ =>
    cases op with
    | access desc data => exact .inl (exec_next _ _)
    | memWrite addr bytes =>
      rw [hostOp, hostWrite]
      split
      · exact .inr rfl
      · exact .inl ⟨_, rfl⟩
    | memRead addr count =>
      rw [hostOp, hostRead]
      split
      · exact .inr rfl
      · exact .inl ⟨_, rfl⟩
    | branchEq | branchNe => exact .inl ⟨_, rfl⟩

/-- A turn's answer is a next state, a host access past the last byte, or an engine access outside the data space that the
invariant excludes. -/
theorem takeTurn_answers (P : Params) (turn : Turn) (s : State) :
    (∃ t, takeTurn P turn s = .next t) ∨ takeTurn P turn s = .fault .hostAddress ∨
      (takeTurn P turn s = .fault .engineAddress ∧ ¬JobInv P s) := by
  cases turn with
  | host => exact (hostTurn_answers s).imp_right .inl
  | reset => exact .inl ⟨_, rfl⟩
  | issue | context | fetch | held | complete =>
    refine (blockTurn_answers P rfl s).imp_right fun ⟨hfault, busy, hout⟩ => .inr ⟨hfault, fun hs => ?_⟩
    exact hs.not_accessOutside busy hout

/-- Settles O52: of the answers that a turn can give, the invariant excludes the engine's fault, and none is a refusal. -/
theorem engineNeverLeavesTheDataSpace : Obligations.EngineNeverLeavesTheDataSpace := by
  unfold Obligations.EngineNeverLeavesTheDataSpace
  intro s
  constructor
  · intro hinv
    obtain ⟨-, -, hjob⟩ := machineInv_iff.mp hinv
    have hjob' : JobInv Config.params (popTurn s) := (popTurn_same s).1.jobInv hjob
    rw [step]
    rcases takeTurn_answers Config.params (nextTurn s) (popTurn s) with ⟨t, h⟩ | h | ⟨-, hbroken⟩
    · rw [h]
      nofun
    · rw [h]
      nofun
    · exact absurd hjob' hbroken
  · intro r
    rw [step]
    rcases takeTurn_answers Config.params (nextTurn s) (popTurn s) with ⟨t, h⟩ | h | ⟨h, -⟩ <;> rw [h] <;> nofun

end Sys2Proof.Machine
end

section
/-!
PROOFS. 41_dispatch.md R149: a job that is on course stays so, whoever steps, as long as the host keeps its hands off both
regions, and when it ends in DONE every pixel of the output region holds PIXEL.
-/

namespace Sys2Proof.Machine

variable {P : Params} {exp : F32 → F32} {m₀ : Memory} {s t : State}

/-! ### The three parts of being on course -/

/-- R54, R61: the input region is as it stood at START. -/
def InputKept (m₀ : Memory) (job : Job) (m : Memory) : Prop :=
  ∀ a, (inputRegion job).holds a = true → readByte m a = readByte m₀ a

/-- The context will end with the sums of its pixel (R118). -/
def SumsOnCourse (exp : F32 → F32) (m₀ : Memory) (job : Job) (c : Ctx) : Prop :=
  finalAcc exp (imageAt m₀ job.inBase job.w) job c =
    pixelAcc exp (imageAt m₀ job.inBase job.w) job.w job.h job.r job.d c.x c.y

/-- The place of a pixel in the output region holds PIXEL. -/
def PixelWritten (exp : F32 → F32) (m₀ : Memory) (job : Job) (m : Memory) (p : Pixel) : Prop :=
  readWord m (pixelAddr job.outBase job.w p.x p.y) = packPixel (jobPixel exp m₀ job p.x p.y)

theorem onCourse_iff :
    OnCourse exp m₀ s ↔ InputKept m₀ s.job s.mem ∧ (∀ e ∈ s.ctxs, SumsOnCourse exp m₀ s.job e.2) ∧
      ∀ p : Pixel, p.x < s.job.w → p.y < s.job.h → p ∉ s.job.todo → p ∉ ctxPixels s →
        PixelWritten exp m₀ s.job s.mem p := by
  have hctxs (p : Pixel) : p ∉ ctxPixels s ↔ ∀ e ∈ s.ctxs, ctxPixel e.2 ≠ p := by simp [ctxPixels]
  simp only [hctxs]
  exact and_congr_right' (and_congr_right' ⟨fun h p => h p.x p.y, fun h x y => h ⟨x, y⟩⟩)

/-! ### The sums of one context -/

/-- The sums that an unfinished context will end with do not depend on whether its next offset is still to come. -/
theorem finalAcc_next {img : Image} {job : Job} {c : Ctx} (hr : 0 ≤ job.r) (hok : CtxOk job c) (scan : c.oj ≤ job.r) :
    finalAcc exp img job
        (advance job.r { c with acc := visit exp img job.w job.h job.d c.x c.y c.acc (c.oi, c.oj) }) =
      finalAcc exp img job c := by
  obtain ⟨hget, -, -⟩ := scanIndex_scanning hr hok scan
  obtain ⟨hlt, hoffset⟩ := List.getElem?_eq_some_iff.mp hget
  have hnext (acc : Accum) : scanIndex job.r (advance job.r { c with acc := acc }) = scanIndex job.r c + 1 :=
    (scanIndex_scanning (c := { c with acc := acc }) hr hok scan).2.1
  simp only [finalAcc, hnext, advance_x, advance_y, advance_acc]
  rw [List.drop_eq_getElem_cons hlt, hoffset, List.foldl_cons]

theorem finalAcc_finished {img : Image} {job : Job} {c : Ctx} (hr : 0 ≤ job.r) (hok : CtxOk job c)
    (done : c.oj = job.r + 1) : finalAcc exp img job c = c.acc := by
  rw [finalAcc, scanIndex_finished hr hok done, ← scanOffsets_length hr, List.drop_length, List.foldl_nil]

theorem sumsOnCourse_freshCtx (exp : F32 → F32) (m₀ : Memory) (job : Job) (p : Pixel) :
    SumsOnCourse exp m₀ job (freshCtx job.r p) := by
  rw [SumsOnCourse, finalAcc, scanIndex_freshCtx, List.drop_zero]
  rfl

/-- The word of a pixel depends on the bytes of its image alone. -/
theorem readWord_pixel_congr {base w h x y : Nat} {m m' : Memory} (hx : x < w) (hy : y < h)
    (hm : ∀ a, Region.holds ⟨base, imageBytes w h⟩ a = true → readByte m a = readByte m' a) :
    readWord m (pixelAddr base w x y) = readWord m' (pixelAddr base w x y) := by
  obtain ⟨hlow, hhigh⟩ := pixelAddr_region (base := base) hx hy
  refine readWord_congr fun a hlo hhi => hm a ((holds_iff _ _).mpr ⟨hlow.trans hlo, ?_⟩)
  exact lt_of_lt_of_le hhi hhigh

/-- R54: a neighbor's word is the one that memory held at START. -/
theorem InputKept.imageAt_eq {job : Job} {m : Memory} (h : InputKept m₀ job m) {x y : Nat} (hx : x < job.w)
    (hy : y < job.h) : imageAt m job.inBase job.w x y = imageAt m₀ job.inBase job.w x y :=
  congrArg unpackPixel (readWord_pixel_congr hx hy h)

/-- WI_OFFSET is the body of R118's loops, over the image as it stood at START. -/
theorem scanned_eq_visit {job : Job} {m : Memory} (h : InputKept m₀ job m) (c : Ctx) :
    scanned P job m c = advance job.r { c with
      acc := visit P.expF32 (imageAt m₀ job.inBase job.w) job.w job.h job.d c.x c.y c.acc (c.oi, c.oj) } := by
  unfold scanned visit
  by_cases inside : inBounds job.w job.h (c.x + c.oi) (c.y + c.oj) = true
  · have ⟨_, hx, _, hy⟩ := (inBounds_iff _ _ _ _).mp inside
    have hword : unpackPixel (readWord m (neighborAddr job c)) = imageAt m₀ job.inBase job.w _ _ :=
      h.imageAt_eq (by omega) (by omega)
    rw [if_pos inside, if_pos inside, hword]
  · rw [if_neg inside, if_neg inside]

@[simp] theorem ctxPixel_scanned (P : Params) (job : Job) (m : Memory) (c : Ctx) :
    ctxPixel (scanned P job m c) = ctxPixel c := by
  unfold scanned ctxPixel
  split <;> simp

theorem SumsOnCourse.scanned {job : Job} {m : Memory} {c : Ctx} (hc : SumsOnCourse P.expF32 m₀ job c)
    (hm : InputKept m₀ job m) (hr : 0 ≤ job.r) (hok : CtxOk job c) (scan : c.oj ≤ job.r) :
    SumsOnCourse P.expF32 m₀ job (scanned P job m c) := by
  rw [scanned_eq_visit hm, SumsOnCourse, finalAcc_next hr hok scan, advance_x, advance_y]
  exact hc

/-- R114: WI_FINISH stores the quantized sums of its pixel. -/
theorem SumsOnCourse.pixelWritten {job : Job} {m : Memory} {c : Ctx} (hc : SumsOnCourse exp m₀ job c) (hr : 0 ≤ job.r)
    (hok : CtxOk job c) (done : c.oj = job.r + 1) (fits : outputAddr job c + 4 ≤ dataSpaceSize) :
    PixelWritten exp m₀ job (writeWord (outputAddr job c) (packPixel (quantize c.acc)) m) (ctxPixel c) := by
  rw [SumsOnCourse, finalAcc_finished hr hok done] at hc
  rw [hc]
  exact readWord_writeWord_same fits _ m

/-! ### Steps of the block -/

theorem blockStep_inputKept (h : BlockStep P s t) (hs : JobInv P s) (busy : s.phase = .busy)
    (hin : InputKept m₀ s.job s.mem) : InputKept m₀ s.job t.mem := by
  obtain ⟨hlatched, -, -⟩ := hs.2 busy
  intro a ha
  have hout : (outputRegion s.job).holds a = false :=
    Bool.eq_false_iff.mpr fun hboth => hlatched.regions_disjoint a ⟨ha, hboth⟩
  rw [blockStep_readByte_outside h hs hout]
  exact hin a ha

theorem OnCourse.issue (h : OnCourse exp m₀ s) {k : Nat} {p : Pixel} (free : cellFind k s.ctxs = none) :
    OnCourse exp m₀ { s with
      job := { s.job with todo := s.job.todo.erase p, pending := s.job.pending + 1 }
      ctxs := cellSet k (freshCtx s.job.r p) s.ctxs } := by
  obtain ⟨hin, hsums, hwritten⟩ := onCourse_iff.mp h
  refine onCourse_iff.mpr ⟨hin, fun e he => ?_, fun q hx hy htodo hctxs => ?_⟩
  · rcases mem_cellSet he with rfl | he
    · exact sumsOnCourse_freshCtx exp m₀ s.job p
    · exact hsums e he
  · have hpixels : ((cellSet k (freshCtx s.job.r p) s.ctxs).map fun e => ctxPixel e.2).Perm (p :: ctxPixels s) :=
      (cellSet_perm _ free).map _
    have hnew : q ∉ p :: ctxPixels s := fun hq => hctxs (hpixels.mem_iff.mpr hq)
    rw [List.mem_cons, not_or] at hnew
    obtain ⟨hne, hold⟩ := hnew
    exact hwritten q hx hy (fun hq => htodo ((List.mem_erase_of_ne hne).mpr hq)) hold

theorem OnCourse.put (h : OnCourse exp m₀ s) (hr : Rising s.ctxs) {k : Nat} {c c' : Ctx}
    (valid : cellFind k s.ctxs = some c) (hpixel : ctxPixel c' = ctxPixel c)
    (hsums' : SumsOnCourse exp m₀ s.job c') : OnCourse exp m₀ (putCtx k c' s) := by
  obtain ⟨hin, hsums, hwritten⟩ := onCourse_iff.mp h
  have hpixels : ctxPixels (putCtx k c' s) = ctxPixels s := map_cellSet_old ctxPixel hr valid hpixel
  refine onCourse_iff.mpr ⟨hin, fun e he => ?_, ?_⟩
  · rcases mem_cellSet he with rfl | he
    · exact hsums'
    · exact hsums e he
  · rw [hpixels]
    exact hwritten

/-- R110, R111 -/
theorem OnCourse.scanned (h : OnCourse P.expF32 m₀ s) (hs : JobInv P s) (busy : s.phase = .busy) {k : Nat} {c : Ctx}
    (valid : cellFind k s.ctxs = some c) (scan : c.oj ≤ s.job.r) :
    OnCourse P.expF32 m₀ (putCtx k (Machine.scanned P s.job s.mem c) s) := by
  obtain ⟨hlatched, -, hcontexts⟩ := hs.2 busy
  obtain ⟨hin, hsums, -⟩ := onCourse_iff.mp h
  have hnext := (hsums _ (cellFind_mem valid)).scanned hin (latched_bounds hlatched).1 (hcontexts.ctxOk valid) scan
  exact h.put hcontexts.1 valid (ctxPixel_scanned P _ _ c) hnext

/-- R114 -/
theorem OnCourse.finished (h : OnCourse exp m₀ s) (hs : JobInv P s) (busy : s.phase = .busy) {k : Nat} {c : Ctx}
    (valid : cellFind k s.ctxs = some c) (done : c.oj = s.job.r + 1) (fits : outputAddr s.job c + 4 ≤ dataSpaceSize)
    (hin : InputKept m₀ s.job (finished k c s).mem) : OnCourse exp m₀ (finished k c s) := by
  obtain ⟨hlatched, -, hcontexts⟩ := hs.2 busy
  obtain ⟨-, hsums, hwritten⟩ := onCourse_iff.mp h
  have hok := hcontexts.ctxOk valid
  have hpixels : (ctxPixels s).Perm (ctxPixel c :: ctxPixels (Machine.finished k c s)) := (cellErase_perm valid).map _
  refine onCourse_iff.mpr ⟨hin, fun e he => hsums e (mem_of_mem_cellErase he), fun q hx hy htodo hctxs => ?_⟩
  by_cases hq : q = ctxPixel c
  · rw [hq]
    exact (hsums _ (cellFind_mem valid)).pixelWritten (latched_bounds hlatched).1 hok done fits
  · have hold : q ∉ ctxPixels s := by
      rw [hpixels.mem_iff, List.mem_cons, not_or]
      exact ⟨hq, hctxs⟩
    have hne : ¬(q.x = c.x ∧ q.y = c.y) := fun hsame => hq (by rw [ctxPixel, ← hsame.1, ← hsame.2])
    exact (readWord_writeWord_out _ _ (pixelAddr_apart hx hok.1 hne)).trans (hwritten q hx hy htodo hold)

theorem blockStep_onCourse (h : BlockStep P s t) (hs : JobInv P s) (busy : s.phase = .busy)
    (hc : OnCourse P.expF32 m₀ s) (tbusy : t.phase = .busy) : OnCourse P.expF32 m₀ t := by
  have hin := blockStep_inputKept h hs busy (onCourse_iff.mp hc).1
  cases h with
  | still => exact hc
  | issue k p _ _ _ free => exact hc.issue free
  | offsetIn k c _ valid scan inside =>
    have hstep := hc.scanned hs busy valid scan
    rwa [Machine.scanned, if_pos inside] at hstep
  | offsetOut k c _ valid scan outside =>
    have hstep := hc.scanned hs busy valid scan
    rwa [Machine.scanned, if_neg (by simp [outside])] at hstep
  | finish k c _ valid done fits => exact hc.finished hs busy valid done fits hin
  | fault => cases tbusy
  | complete => split at tbusy <;> cases tbusy

/-- R146, R149: JOB_COMPLETE finds no pixel that waits or is in a context, so every pixel is written. -/
theorem blockStep_blurred (h : BlockStep P s t) (hs : JobInv P s) (busy : s.phase = .busy)
    (hc : OnCourse exp m₀ s) (hclean : t.breach = false) (tdone : t.phase = .done) : Blurred exp m₀ s.job t.mem := by
  cases h with
  | still | issue | offsetIn | offsetOut | finish => cases busy.symm.trans tdone
  | fault => cases tdone
  | complete _ issued pending =>
    obtain ⟨-, -, -, -, hcount⟩ := hs.2 busy
    obtain ⟨-, -, hwritten⟩ := onCourse_iff.mp hc
    have hctxs : s.ctxs = [] := List.length_eq_zero_iff.mp (hcount ▸ pending)
    cases hb : s.breach with
    | true => simp [hb] at hclean
    | false =>
      intro x y hx hy
      exact hwritten ⟨x, y⟩ hx hy (by simp [issued]) (by simp [ctxPixels, hctxs])

/-! ### Steps of the host -/

/-- R161: in BUSY the host's turn leaves the block as it is, but for its own write to the data space. -/
theorem hostTurn_cases_of_busy (busy : s.phase = .busy) (h : hostTurn s = .next t) :
    SameBlock s t ∨
      ∃ (addr : Word) (bytes : List Byte), t.breach = (s.breach || breaches addr.toNat bytes.length s) ∧
        SameBlock { s with mem := writeBytes addr.toNat bytes s.mem } t := by
  rcases hostTurn_cases h with ⟨hsame, -⟩ | ⟨i, n, hexec⟩ | ⟨addr, bytes, n, -, rfl⟩
  · exact .inl hsame
  · cases exec_cases hexec with
    | same hsame => exact .inl ⟨hsame.regs, hsame.phase, hsame.ecode, hsame.errAddr, hsame.job, hsame.ctxs, hsame.mem⟩
    | param _ _ idle | start idle | clear idle | badCommand idle => exact absurd busy idle
  · exact .inr ⟨addr, bytes, rfl, ⟨rfl, rfl, rfl, rfl, rfl, rfl, rfl⟩⟩

theorem touches_of_holds {region : Region} {addr count a : Nat} (h : region.holds a = true)
    (hwritten : addr ≤ a ∧ a < addr + count) : touches region addr count = true := by
  rw [holds_iff] at h
  simp only [touches, Bool.and_eq_true, decide_eq_true_eq]
  omega

/-- R262: a host write that is no breach changes no byte of a region of the running job. -/
theorem readByte_hostWrite_of_no_breach {addr : Nat} {bytes : List Byte} (busy : s.phase = .busy)
    (hclean : breaches addr bytes.length s = false) {a : Nat}
    (ha : (inputRegion s.job).holds a = true ∨ (outputRegion s.job).holds a = true) :
    readByte (writeBytes addr bytes s.mem) a = readByte s.mem a := by
  simp only [breaches, busy, decide_true, Bool.true_and, Bool.or_eq_false_iff] at hclean
  obtain ⟨hin, hout⟩ := hclean
  have hapart : ¬(addr ≤ a ∧ a < addr + bytes.length) := by
    intro hwritten
    rcases ha with ha | ha
    · exact Bool.eq_false_iff.mp hin (touches_of_holds ha hwritten)
    · exact Bool.eq_false_iff.mp hout (touches_of_holds ha hwritten)
  exact readByte_writeBytes_out _ _ _ (by omega)

/-- Being on course reads memory in the two regions alone. -/
theorem OnCourse.of_memory (h : OnCourse exp m₀ s) {m : Memory}
    (hm : ∀ a, (inputRegion s.job).holds a = true ∨ (outputRegion s.job).holds a = true →
      readByte m a = readByte s.mem a) : OnCourse exp m₀ { s with mem := m } := by
  obtain ⟨hin, hsums, hwritten⟩ := onCourse_iff.mp h
  refine onCourse_iff.mpr ⟨fun a ha => (hm a (.inl ha)).trans (hin a ha), hsums, fun p hx hy htodo hctxs => ?_⟩
  have hword := readWord_pixel_congr hx hy fun a ha => hm a (.inr ha)
  exact hword.trans (hwritten p hx hy htodo hctxs)

theorem SameBlock.onCourse (h : SameBlock s t) (hs : OnCourse exp m₀ s) : OnCourse exp m₀ t := by
  unfold OnCourse
  rw [h.job, h.ctxs, h.mem]
  exact hs

theorem hostTurn_onCourse (busy : s.phase = .busy) (hc : OnCourse exp m₀ s) (h : hostTurn s = .next t)
    (hclean : t.breach = false) : t.phase = .busy ∧ OnCourse exp m₀ t := by
  rcases hostTurn_cases_of_busy busy h with hsame | ⟨addr, bytes, hbreach, hsame⟩
  · exact ⟨hsame.phase.trans busy, hsame.onCourse hc⟩
  · rw [hbreach, Bool.or_eq_false_iff] at hclean
    have hkept := hc.of_memory fun a => readByte_hostWrite_of_no_breach busy hclean.2
    exact ⟨hsame.phase.trans busy, hsame.onCourse hkept⟩

/-! ### Any step -/

/-- Settles O54: the host can leave the course only by a breach, reset ends the job in IDLE, and each step of the block
keeps the sums of every context and the pixels written. -/
theorem jobStaysOnCourseToTheBlurredImage : Obligations.JobStaysOnCourseToTheBlurredImage := by
  unfold Obligations.JobStaysOnCourseToTheBlurredImage
  intro m₀ s t hinv busy hc h hclean
  obtain ⟨-, -, hjob⟩ := machineInv_iff.mp hinv
  have hsame := (popTurn_same s).1
  have hjob' : JobInv Config.params (popTurn s) := hsame.jobInv hjob
  have hc' : OnCourse Config.params.expF32 m₀ (popTurn s) := hsame.onCourse hc
  have busy' : (popTurn s).phase = .busy := hsame.phase.trans busy
  rw [← hsame.job]
  rw [step] at h
  cases hturn : nextTurn s with
  | host =>
    rw [hturn] at h
    obtain ⟨tbusy, tcourse⟩ := hostTurn_onCourse busy' hc' h hclean
    exact ⟨fun _ => tcourse, fun tdone => by cases tbusy.symm.trans tdone⟩
  | reset =>
    rw [hturn] at h
    injection h with h
    subst h
    exact ⟨nofun, nofun⟩
  | issue | context | fetch | held | complete =>
    rw [hturn] at h
    have hstep := takeTurn_block rfl h
    exact ⟨blockStep_onCourse hstep hjob' busy' hc', blockStep_blurred hstep hjob' busy' hc' hclean⟩

end Sys2Proof.Machine
end

section
/-!
PROOFS. 41_dispatch.md R148: each step of the block that changes anything takes one from the steps that the job has left, and
in a weakly fair run one is always taken in the end, so that a job whose accesses do not fault reaches DONE.
-/

namespace Sys2Proof.Machine

open Sys2Proof.Slice0

variable {P : Params} {s t : State}

/-! ### The steps that a job has left -/

theorem cellErase_cellSet_same {α : Type} (k : Nat) (v : α) {l : List (Nat × α)} (h : Rising l) :
    cellErase k (cellSet k v l) = cellErase k l := by
  refine rising_ext (rising_cellErase _ (rising_cellSet _ _ h)) (rising_cellErase _ h) fun i => ?_
  rw [cellFind_cellErase _ _ (rising_cellSet _ _ h), cellFind_cellErase _ _ h, cellFind_cellSet]
  split_ifs <;> rfl

/-- The steps that the contexts have left. -/
def ctxsMeasure (r : Int) (ctxs : List (Nat × Ctx)) : Nat := (ctxs.map fun e => ctxMeasure r e.2).sum

theorem jobMeasure_eq (s : State) :
    jobMeasure s = s.job.todo.length * (windowSize s.job.r + 2) + ctxsMeasure s.job.r s.ctxs + 1 := rfl

section

variable {r : Int} {k : Nat} {c : Ctx} {ctxs : List (Nat × Ctx)}

theorem ctxsMeasure_cellSet_new (r : Int) (c : Ctx) (free : cellFind k ctxs = none) :
    ctxsMeasure r (cellSet k c ctxs) = ctxMeasure r c + ctxsMeasure r ctxs :=
  ((cellSet_perm c free).map _).sum_eq

theorem ctxsMeasure_cellErase (r : Int) (valid : cellFind k ctxs = some c) :
    ctxsMeasure r ctxs = ctxMeasure r c + ctxsMeasure r (cellErase k ctxs) :=
  ((cellErase_perm valid).map _).sum_eq

theorem ctxsMeasure_cellSet_old (r : Int) (c' : Ctx) (hr : Rising ctxs) (valid : cellFind k ctxs = some c) :
    ctxsMeasure r (cellSet k c' ctxs) + ctxMeasure r c = ctxsMeasure r ctxs + ctxMeasure r c' := by
  rw [ctxsMeasure_cellErase r (cellFind_cellSet_same k c' ctxs), cellErase_cellSet_same k c' hr,
    ctxsMeasure_cellErase r valid]
  omega

end

theorem ctxMeasure_freshCtx (r : Int) (p : Pixel) : ctxMeasure r (freshCtx r p) = windowSize r + 1 := by
  rw [ctxMeasure, scanIndex_freshCtx, Nat.sub_zero]

/-- Each WI_OFFSET is one step of those that a context has left. -/
theorem ctxMeasure_advance {job : Job} {c : Ctx} (acc : Accum) (hr : 0 ≤ job.r) (hok : CtxOk job c) (scan : c.oj ≤ job.r) :
    ctxMeasure job.r (advance job.r { c with acc := acc }) + 1 = ctxMeasure job.r c := by
  obtain ⟨-, hnext, hlt⟩ := scanIndex_scanning (c := { c with acc := acc }) hr hok scan
  have hsame : scanIndex job.r { c with acc := acc } = scanIndex job.r c := rfl
  rw [ctxMeasure, ctxMeasure, hnext, hsame]
  omega

/-- A context whose scan is finished has WI_FINISH left. -/
theorem ctxMeasure_finished {job : Job} {c : Ctx} (hr : 0 ≤ job.r) (hok : CtxOk job c) (done : c.oj = job.r + 1) :
    ctxMeasure job.r c = 1 := by
  rw [ctxMeasure, scanIndex_finished hr hok done, Nat.sub_self]

section

variable (hs : JobInv P s) (busy : s.phase = .busy) {k : Nat} {c : Ctx}

include hs busy

theorem jobMeasure_offset (valid : cellFind k s.ctxs = some c) (scan : c.oj ≤ s.job.r) (acc : Accum) :
    jobMeasure (putCtx k (advance s.job.r { c with acc := acc }) s) + 1 = jobMeasure s := by
  obtain ⟨hlatched, -, hcontexts⟩ := hs.2 busy
  have hctx := ctxMeasure_advance acc (latched_bounds hlatched).1 (hcontexts.ctxOk valid) scan
  have hsum := ctxsMeasure_cellSet_old s.job.r (advance s.job.r { c with acc := acc }) hcontexts.1 valid
  rw [jobMeasure_eq, jobMeasure_eq, putCtx_job, putCtx_ctxs]
  omega

theorem jobMeasure_finished (valid : cellFind k s.ctxs = some c) (done : c.oj = s.job.r + 1) :
    jobMeasure (finished k c s) + 1 = jobMeasure s := by
  obtain ⟨hlatched, -, hcontexts⟩ := hs.2 busy
  have hctx := ctxMeasure_finished (latched_bounds hlatched).1 (hcontexts.ctxOk valid) done
  have hsum := ctxsMeasure_cellErase s.job.r valid
  rw [jobMeasure_eq, jobMeasure_eq, finished]
  dsimp only
  omega

end

theorem jobMeasure_issue {k : Nat} {p : Pixel} (waiting : p ∈ s.job.todo) (free : cellFind k s.ctxs = none) :
    jobMeasure { s with
      job := { s.job with todo := s.job.todo.erase p, pending := s.job.pending + 1 }
      ctxs := cellSet k (freshCtx s.job.r p) s.ctxs } + 1 = jobMeasure s := by
  have hsum := ctxsMeasure_cellSet_new s.job.r (freshCtx s.job.r p) free
  have hpixels := List.length_erase_add_one waiting
  rw [ctxMeasure_freshCtx] at hsum
  rw [jobMeasure_eq, jobMeasure_eq]
  dsimp only
  rw [hsum, ← hpixels, Nat.succ_mul]
  omega

/-! ### Steps of the block -/

/-- R148: a step of the block changes nothing, ends the job, or is one of the steps left. -/
theorem blockStep_measure (h : BlockStep P s t) (hs : JobInv P s) :
    t = s ∨ t.phase = .done ∨ t.phase = .error ∨ (t.phase = s.phase ∧ jobMeasure t + 1 = jobMeasure s) := by
  cases h with
  | still => exact .inl rfl
  | issue k p busy waiting lane free => exact .inr (.inr (.inr ⟨rfl, jobMeasure_issue waiting free⟩))
  | offsetIn k c busy valid scan => exact .inr (.inr (.inr ⟨rfl, jobMeasure_offset hs busy valid scan _⟩))
  | offsetOut k c busy valid scan => exact .inr (.inr (.inr ⟨rfl, jobMeasure_offset hs busy valid scan c.acc⟩))
  | finish k c busy valid done => exact .inr (.inr (.inr ⟨rfl, jobMeasure_finished hs busy valid done⟩))
  | fault => exact .inr (.inr (.inl rfl))
  | complete => exact .inr (.inl (by split <;> rfl))

theorem windowSize_of_nonneg {r : Int} (hr : 0 ≤ r) :
    windowSize r = (2 * r.toNat + 1) * (2 * r.toNat + 1) := by
  obtain ⟨n, rfl⟩ := Int.eq_ofNat_of_zero_le hr
  rw [windowSize, windowSide_nat, Int.toNat_natCast]

/-- Settles O55: after setup every pixel waits, with its window, WI_ISSUE and WI_FINISH to come. -/
theorem jobStepsAreBounded : Obligations.JobStepsAreBounded := by
  unfold Obligations.JobStepsAreBounded
  constructor
  · intro P turn s t hinv busy hblock h
    obtain ⟨-, -, hjob⟩ := machineInv_iff.mp hinv
    rcases blockStep_measure (takeTurn_block hblock h) hjob with hstill | hdone | herror | ⟨-, hless⟩
    · exact .inl hstill
    · exact .inr (.inl (by simp [hdone]))
    · exact .inr (.inl (by simp [herror]))
    · exact .inr (.inr hless)
  · intro s idle hctxs hchecks hwidth hheight
    refine ⟨_, exec_start_of_valid idle hchecks, ?_⟩
    rw [firstFailingCheck_eq_validate] at hchecks
    obtain ⟨⟨hr, -⟩, -⟩ := validate_none hchecks
    have hsize : windowSize s.regs.radius.toInt = _ := windowSize_of_nonneg hr
    have hnone : ctxsMeasure s.regs.radius.toInt s.ctxs = 0 := by rw [hctxs]; rfl
    rw [← hsize, jobMeasure_eq]
    have htodo := length_grid s.regs.width.toNat s.regs.height.toNat
    simp only [respondOk_job, respondOk_ctxs, setupJob, jobOf, operandsOf, htodo, hnone, Nat.add_zero]

/-! ### A step that is always there -/

/-- A step that brings a running job nearer its end: of a context at work, or else of a pixel that waits, or else the
last. -/
def dueTurn (s : State) : Turn :=
  match s.ctxs, s.job.todo with
  | (k, _) :: _, _ => .context k
  | [], p :: _ => .issue 0 p
  | [], [] => .complete

theorem dueTurn_listed (s : State) : isListedTurn (dueTurn s) = true := by
  unfold dueTurn
  split <;> rfl

theorem dueTurn_congr (hjob : t.job = s.job) (hctxs : t.ctxs = s.ctxs) : dueTurn t = dueTurn s := by
  rw [dueTurn, dueTurn, hjob, hctxs]

theorem jobMeasure_congr (hjob : t.job = s.job) (hctxs : t.ctxs = s.ctxs) : jobMeasure t = jobMeasure s := by
  rw [jobMeasure, jobMeasure, hjob, hctxs]

theorem jobMeasure_moved (hs : JobInv P s) (busy : s.phase = .busy) {k : Nat} {c : Ctx}
    (valid : cellFind k s.ctxs = some c) : jobMeasure (moved P k s) + 1 = jobMeasure s := by
  by_cases scan : c.oj ≤ s.job.r
  · rw [moved_of_scanning P valid scan, scanned]
    split
    · exact jobMeasure_offset hs busy valid scan _
    · exact jobMeasure_offset hs busy valid scan c.acc
  · obtain ⟨-, -, hcontexts⟩ := hs.2 busy
    have ⟨_, _, _, _, _, hlast, _⟩ := hcontexts.ctxOk valid
    rw [moved_of_finished P valid scan]
    exact jobMeasure_finished hs busy valid (by omega)

/-- R148: a valid context always has a step. -/
theorem contextTurn_progress (hs : JobInv P s) (busy : s.phase = .busy) {k : Nat} {c : Ctx}
    (valid : cellFind k s.ctxs = some c) :
    ∃ t, contextTurn P k s = .next t ∧ (t.phase ≠ .busy ∨ jobMeasure t < jobMeasure s) := by
  obtain ⟨t, h⟩ := hs.blockTurn_next (turn := .context k) rfl
  refine ⟨t, h, ?_⟩
  by_cases tbusy : t.phase = .busy
  · have hless := jobMeasure_moved hs busy valid
    rw [contextTurn_eq_moved hs busy h tbusy]
    exact .inr (by omega)
  · exact .inl tbusy

theorem dueTurn_progress (hs : JobInv P s) (busy : s.phase = .busy) :
    ∃ t, takeTurn P (dueTurn s) s = .next t ∧ (t.phase ≠ .busy ∨ jobMeasure t < jobMeasure s) := by
  unfold dueTurn
  split
  · next k c rest hctxs =>
    have valid : cellFind k s.ctxs = some c := by rw [hctxs, cellFind, if_pos rfl]
    exact contextTurn_progress hs busy valid
  · next p rest hctxs htodo =>
    have waiting : p ∈ s.job.todo := htodo ▸ List.mem_cons_self
    have free : cellFind 0 s.ctxs = none := hctxs ▸ cellFind_nil 0
    have hless := jobMeasure_issue waiting free
    refine ⟨_, issueMakesAFreshContext.1 P 0 p s busy waiting P.lanes_pos free, .inr ?_⟩
    exact Nat.lt_of_succ_le hless.le
  · next hctxs htodo =>
    obtain ⟨-, -, -, -, hcount⟩ := hs.2 busy
    have hcan := (canComplete_iff s).mpr ⟨busy, htodo, hcount.trans (congrArg List.length hctxs)⟩
    refine ⟨_, rfl, .inl ?_⟩
    rw [jobComplete, if_pos hcan]
    split <;> nofun

theorem dueTurn_enabled (hs : JobInv P s) (busy : s.phase = .busy) : Enabled P (dueTurn s) s := by
  obtain ⟨t, h, hprogress⟩ := dueTurn_progress hs busy
  refine ⟨t, h, ?_⟩
  rintro rfl
  exact hprogress.elim (absurd busy) (lt_irrefl _)

/-! ### A run -/

theorem blockSteps_succ_le (run : Nat → State) (n : Nat) : blockSteps run (n + 1) ≤ blockSteps run n + 1 := by
  rw [blockSteps]
  split <;> omega

/-- What a turn of a running job can come to, but for reset: nothing that the job holds changes; or the block ends it, or takes
one of the steps left. -/
theorem takeTurn_measure {turn : Turn} (hs : JobInv P s) (busy : s.phase = .busy) (hturn : turn ≠ .reset)
    (h : takeTurn P turn s = .next t) :
    (t.phase = .busy ∧ t.job = s.job ∧ t.ctxs = s.ctxs ∧ (isBlockTurn turn = true → t = s)) ∨
      (t.phase = .done ∨ t.phase = .error) ∨
      (isBlockTurn turn = true ∧ t.phase = .busy ∧ jobMeasure t + 1 = jobMeasure s) := by
  cases turn with
  | reset => exact absurd rfl hturn
  | host =>
    refine .inl ?_
    rcases hostTurn_cases_of_busy busy h with hsame | ⟨_, _, -, hsame⟩ <;>
      exact ⟨hsame.phase.trans busy, hsame.job, hsame.ctxs, nofun⟩
  | issue | context | fetch | held | complete =>
    rcases blockStep_measure (takeTurn_block rfl h) hs with rfl | hdone | herror | ⟨hphase, hless⟩
    · exact .inl ⟨busy, rfl, rfl, fun _ => rfl⟩
    · exact .inr (.inl (.inl hdone))
    · exact .inr (.inl (.inr herror))
    · exact .inr (.inr ⟨rfl, hphase.trans busy, hless⟩)

section

variable {run : Nat → State} (hrun : IsRun P run) (hnoReset : ∀ n, nextTurn (run n) ≠ .reset) (hinv : JobInv P (run 0))

include hrun hinv

theorem run_jobInv (n : Nat) : JobInv P (run n) := by
  induction n with
  | zero => exact hinv
  | succ n ih => exact (jobInv_kept P).of_takeTurn ((popTurn_same _).1.jobInv ih) (hrun n)

include hnoReset

/-- One step of a running job in such a run, and how it counts. -/
theorem run_step {n : Nat} (busy : (run n).phase = .busy) :
    ((run (n + 1)).phase = .busy ∧ (run (n + 1)).job = (run n).job ∧ (run (n + 1)).ctxs = (run n).ctxs ∧
        blockSteps run (n + 1) = blockSteps run n) ∨
      ((run (n + 1)).phase = .done ∨ (run (n + 1)).phase = .error) ∨
      ((run (n + 1)).phase = .busy ∧ jobMeasure (run (n + 1)) + 1 = jobMeasure (run n) ∧
        blockSteps run (n + 1) = blockSteps run n + 1) := by
  have hsame := (popTurn_same (run n)).1
  have hmeasure := jobMeasure_congr hsame.job hsame.ctxs
  have hs := hsame.jobInv (run_jobInv hrun hinv n)
  rcases takeTurn_measure hs (hsame.phase.trans busy) (hnoReset n) (hrun n) with
    ⟨tbusy, hjob, hctxs, hstill⟩ | hends | ⟨hblock, tbusy, hless⟩
  · refine .inl ⟨tbusy, hjob.trans hsame.job, hctxs.trans hsame.ctxs, ?_⟩
    rw [blockSteps, if_neg, Nat.add_zero]
    rw [Bool.and_eq_true, decide_eq_true_eq]
    exact fun ⟨hblock, hchanged⟩ => hchanged (hstill hblock)
  · exact .inr (.inl hends)
  · have hchanged : run (n + 1) ≠ popTurn (run n) := fun heq => by rw [heq] at hless; omega
    refine .inr (.inr ⟨tbusy, hmeasure ▸ hless, ?_⟩)
    rw [blockSteps, if_pos]
    rw [Bool.and_eq_true, decide_eq_true_eq]
    exact ⟨hblock, hchanged⟩

/-- While the job runs, the steps taken and the steps left add up. -/
theorem blockSteps_add_jobMeasure {n : Nat} (busy : ∀ m, m ≤ n → (run m).phase = .busy) :
    blockSteps run n + jobMeasure (run n) = jobMeasure (run 0) := by
  induction n with
  | zero => exact Nat.zero_add _
  | succ n ih =>
    have hsum := ih fun m hm => busy m (hm.trans n.le_succ)
    have tbusy := busy (n + 1) le_rfl
    rcases run_step hrun hnoReset hinv (busy n n.le_succ) with
      ⟨-, hjob, hctxs, hcount⟩ | hends | ⟨-, hless, hcount⟩
    · rw [hcount, jobMeasure_congr hjob hctxs, hsum]
    · rcases hends with hends | hends <;> cases tbusy.symm.trans hends
    · omega

/-- Where the fewest steps are left, a job that runs forever stands still. -/
theorem run_stands (hforever : ∀ m, (run m).phase = .busy) {n : Nat}
    (hleast : ∀ m, jobMeasure (run n) ≤ jobMeasure (run m)) {m : Nat} (hm : n ≤ m) :
    (run m).job = (run n).job ∧ (run m).ctxs = (run n).ctxs := by
  induction m, hm using Nat.le_induction with
  | base => exact ⟨rfl, rfl⟩
  | succ m _ ih =>
    have hleft := jobMeasure_congr ih.1 ih.2
    rcases run_step hrun hnoReset hinv (hforever m) with ⟨-, hjob, hctxs, -⟩ | hends | ⟨-, hless, -⟩
    · exact ⟨hjob.trans ih.1, hctxs.trans ih.2⟩
    · rcases hends with hends | hends <;> cases (hforever (m + 1)).symm.trans hends
    · have := hleast (m + 1)
      omega

/-- In a weakly fair run a job does not run forever: where it stands still, the step that is due would stay enabled and be
taken. -/
theorem run_ends (hfair : WeaklyFair P run) : ∃ n, (run n).phase ≠ .busy := by
  by_contra hforever
  push Not at hforever
  obtain ⟨n, hleast⟩ : ∃ n, ∀ m, jobMeasure (run n) ≤ jobMeasure (run m) :=
    ⟨_, fun m => Function.argmin_le (fun m => jobMeasure (run m)) m⟩
  have hinvs := run_jobInv hrun hinv
  have hstands := fun m (hm : n ≤ m) => run_stands hrun hnoReset hinv hforever hleast hm
  have henabled : ∀ m, n ≤ m → Enabled P (dueTurn (run n)) (run m) := fun m hm => by
    rw [← dueTurn_congr (hstands m hm).1 (hstands m hm).2]
    exact dueTurn_enabled (hinvs m) (hforever m)
  obtain ⟨m, hm, hnext⟩ := hfair _ n (dueTurn_listed _) henabled
  have hsame := (popTurn_same (run m)).1
  have hjob := hsame.job.trans (hstands m hm).1
  have hctxs := hsame.ctxs.trans (hstands m hm).2
  obtain ⟨t, ht, hprogress⟩ := dueTurn_progress (hsame.jobInv (hinvs m)) (hsame.phase.trans (hforever m))
  rw [dueTurn_congr hjob hctxs, ← hnext, hrun m, Host.Outcome.next.injEq] at ht
  rw [← ht, jobMeasure_congr hjob hctxs] at hprogress
  rcases hprogress with hidle | hless
  · exact hidle (hforever (m + 1))
  · exact absurd hless (not_lt.mpr (hleast (m + 1)))

/-- The first state outside BUSY is DONE, since no access faults, and comes within the steps that the job had left. -/
theorem run_reaches_done (hfair : WeaklyFair P run) (busy : (run 0).phase = .busy) (hfaults : AccessesDoNotFault run) :
    ∃ n, (run n).phase = .done ∧ blockSteps run n ≤ jobMeasure (run 0) := by
  have hends := run_ends hrun hnoReset hinv hfair
  obtain ⟨n, hn⟩ := Nat.exists_eq_add_one_of_ne_zero fun hzero : Nat.find hends = 0 =>
    (hzero ▸ Nat.find_spec hends) busy
  have hbefore : ∀ m, m ≤ n → (run m).phase = .busy := fun m hm =>
    not_not.mp (Nat.find_min hends (by omega))
  have hafter : (run (n + 1)).phase ≠ .busy := hn ▸ Nat.find_spec hends
  refine ⟨n + 1, ?_, ?_⟩
  · rcases run_step hrun hnoReset hinv (hbefore n le_rfl) with ⟨tbusy, -⟩ | (hdone | herror) | ⟨tbusy, -⟩
    · exact absurd tbusy hafter
    · exact hdone
    · exact absurd herror (hfaults n hbefore)
    · exact absurd tbusy hafter
  · have hsum := blockSteps_add_jobMeasure hrun hnoReset hinv hbefore
    have hlast := blockSteps_succ_le run n
    rw [jobMeasure_eq (run n)] at hsum
    omega

end

/-! ### No access that faults -/

theorem not_faultAt_of_noBusFaults (hs : JobInv P s) (busy : s.phase = .busy) (hbus : NoBusFaults P s.job) (a : Nat) :
    ¬FaultAt P s a := by
  rintro (⟨k, c, oi, oj, -, inside, answer⟩ | ⟨k, c, valid, -, answer⟩)
  · rw [inBounds_iff] at inside
    have hread := (hbus ((c.x : Int) + oi).toNat ((c.y : Int) + oj).toNat (by omega) (by omega)).1
    cases answer.symm.trans hread
  · obtain ⟨-, -, hcontexts⟩ := hs.2 busy
    obtain ⟨hx, hy, -⟩ := hcontexts.ctxOk valid
    cases answer.symm.trans (hbus c.x c.y hx hy).2

theorem blockStep_ne_error (h : BlockStep P s t) (hs : JobInv P s) (busy : s.phase = .busy)
    (hbus : NoBusFaults P s.job) : t.phase ≠ .error := by
  cases h with
  | still | issue | offsetIn | offsetOut | finish => exact fun herror => by cases busy.symm.trans herror
  | fault a _ error => exact absurd error (not_faultAt_of_noBusFaults hs busy hbus a)
  | complete => split <;> nofun

/-- Settles O56: the step that is due is a step that is always there; a fair run takes it until the job ends; and only a
faulting access leads to ERROR. -/
theorem busyJobCanAlwaysStep : Obligations.BusyJobCanAlwaysStep := by
  unfold Obligations.BusyJobCanAlwaysStep
  refine ⟨fun P s hinv busy => ?_, fun P run hrun hfair hnoReset hinv busy hfaults => ?_,
    fun P turn s t hinv busy hbus hblock h => ?_⟩
  · obtain ⟨-, -, hjob⟩ := machineInv_iff.mp hinv
    obtain ⟨t, h, hprogress⟩ := dueTurn_progress hjob busy
    exact ⟨dueTurn s, t, dueTurn_listed s, h, hprogress⟩
  · obtain ⟨-, -, hjob⟩ := machineInv_iff.mp hinv
    exact run_reaches_done hrun hnoReset hjob hfair busy hfaults
  · obtain ⟨-, -, hjob⟩ := machineInv_iff.mp hinv
    exact blockStep_ne_error (takeTurn_block hblock h) hjob busy hbus

end Sys2Proof.Machine
end

section
/-!
PROOFS. 42_host_interface.md sections 1 to 3: what each transaction of the register window and each command answers and
changes (R160 to R204). A transaction is a change of the state and then its answer; the changes are few, and in BUSY there is
none (R161).
-/

namespace Sys2Proof.Machine

open Sys2Proof.Slice0

variable {i : Instr} {s t u : State}

/-! ### The transactions that share a meaning -/

theorem exec_readOf (p : Param) (s : State) : exec (readOf p) s = .next (respondData (readParam p s.regs) s) := by
  cases p <;> rfl

theorem exec_writeOf (p : Param) (data : Word) (s : State) :
    exec (writeOf p data) s = .next { s with
      regs := if s.phase = .busy then s.regs else setParam p data s.regs, resp := .ok } := by
  have hexec : exec (writeOf p data) s = writeTransaction p data s := by cases p <;> rfl
  rw [hexec, writeTransaction, writeParam]
  split <;> rfl

/-- R166, R200: CMD runs the command that its word decodes to. -/
theorem exec_wrCmd (word : Word) (s : State) : exec (.wrCmd word) s = exec (decode (.command word)) s := by
  simp only [decode, decodeCommand, exec, execWrCmd, runCommand]
  split_ifs <;> rfl

theorem command_eq (act : State → State) (s : State) :
    command act s = .next (if s.phase = .busy then respondOk s else respondOk (act s)) :=
  congrArg _ (apply_ite respondOk _ _ _)

/-! ### A change and an answer -/

/-- Everything that a transaction does to the state before it is answered. -/
inductive Change (s : State) : State → Prop
  | none : Change s s
  | status : Change s (ackStatus s)
  | param (p : Param) (data : Word) : Change s (writeParam p data s)
  | start (idle : s.phase ≠ .busy) : Change s (startJob s)
  | clear (idle : s.phase ≠ .busy) : Change s (clearStatus s)
  | badCommand (idle : s.phase ≠ .busy) : Change s (raiseError .badCommand 0 s)

/-- The transactions that R199 answers. -/
def isBadAccess : Instr → Bool
  | .badAccess _ _ _ => true
  | _ => false

theorem isBadAccess_iff (i : Instr) : isBadAccess i = true ↔ ∃ size we offset, i = .badAccess size we offset := by
  cases i <;> simp [isBadAccess]

theorem isBadAccess_of_isCommand (hi : isCommand i = true) : isBadAccess i = false := by
  cases i with
  | badAccess => cases hi
  | _ => rfl

/-- R160: the change is answered with OK or with data, and a BAD_ACCESS, which changes nothing, with SLVERR (R199). -/
inductive Answered (s : State) : Instr → State → Prop
  | ok {i : Instr} {u : State} (legal : isBadAccess i = false) (change : Change s u) : Answered s i (respondOk u)
  | data {i : Instr} {u : State} (legal : isBadAccess i = false) (v : Word) (change : Change s u) :
      Answered s i (respondData v u)
  | slverr (size : BitVec 2) (we : Bool) (offset : BitVec 6) : Answered s (.badAccess size we offset) (respondSlverr s)

/-- R166, R200: every command is ignored in BUSY, and is one of four changes otherwise. -/
theorem exec_command (hi : isCommand i = true) (s : State) :
    ∃ act, exec i s = command act s ∧ (s.phase ≠ .busy → Change s (act s)) := by
  cases i with
  | nop => exact ⟨id, rfl, fun _ => .none⟩
  | start => exact ⟨startJob, rfl, .start⟩
  | clear => exact ⟨clearStatus, rfl, .clear⟩
  | badCommand => exact ⟨raiseError .badCommand 0, rfl, .badCommand⟩
  | wrCmd word =>
    rw [exec_wrCmd, decode, decodeCommand]
    split_ifs
    · exact ⟨id, rfl, fun _ => .none⟩
    · exact ⟨startJob, rfl, .start⟩
    · exact ⟨clearStatus, rfl, .clear⟩
    · exact ⟨raiseError .badCommand 0, rfl, .badCommand⟩
  | _ => cases hi

theorem exec_command_of_busy (hi : isCommand i = true) (busy : s.phase = .busy) :
    exec i s = .next (respondOk s) := by
  obtain ⟨act, h, -⟩ := exec_command hi s
  rw [h, command_eq, if_pos busy]

theorem answered_of_command (hi : isCommand i = true) (h : exec i s = .next t) : Answered s i t := by
  have legal := isBadAccess_of_isCommand hi
  obtain ⟨act, hact, change⟩ := exec_command hi s
  rw [hact, command_eq, Host.Outcome.next.injEq] at h
  subst h
  split
  · exact .ok legal .none
  · next idle => exact .ok legal (change idle)

/-- What an instruction does to the whole state, where `exec_cases` speaks of the block alone. -/
theorem exec_answered (h : exec i s = .next t) : Answered s i t := by
  cases i
  case wrCmd | nop | start | clear | badCommand => exact answered_of_command rfl h
  all_goals
    injection h with h
    subst h
  case badAccess => exact .slverr _ _ _
  case rdStatus => exact .data rfl _ .status
  case wrWidth | wrHeight | wrRadius | wrSigma | wrInBase | wrInLen | wrOutBase | wrOutLen =>
    exact .ok rfl (.param _ _)
  case wrId | wrStatus | wrErrAddr | wrRsvd => exact .ok rfl .none
  all_goals exact .data rfl _ .none

theorem Change.frame (h : Change s u) :
    u.mem = s.mem ∧ u.turns = s.turns ∧ u.draws = s.draws ∧ u.host = s.host := by
  cases h with
  | start =>
    obtain ⟨hmem, hturns, hdraws, hhost, -, -⟩ := startJob_frame s
    exact ⟨hmem, hturns, hdraws, hhost⟩
  | none | status | param | clear | badCommand => simp

/-- R161 -/
theorem Change.eq_of_busy (h : Change s u) (busy : s.phase = .busy) : u = s := by
  cases h with
  | none => rfl
  | status => rw [ackStatus, busy]
  | param => exact if_pos busy
  | start idle | clear idle | badCommand idle => exact absurd busy idle

/-- Settles O16: each transaction is one change and one answer, and no change reaches memory, the schedule or the host. -/
theorem everyTransactionCompletes : Obligations.EveryTransactionCompletes := by
  unfold Obligations.EveryTransactionCompletes
  intro i s
  obtain ⟨t, h⟩ := exec_next i s
  refine ⟨t, h, ?_⟩
  rw [← isBadAccess_iff]
  cases exec_answered h with
  | ok legal change | data legal _ change =>
    obtain ⟨hmem, hturns, hdraws, hhost⟩ := change.frame
    simp [hmem, hturns, hdraws, hhost, legal]
  | slverr => simp [isBadAccess]

/-- Settles O18: in BUSY no change is left, only the answer. -/
theorem busyJobKeepsItsParameters : Obligations.BusyJobKeepsItsParameters := by
  unfold Obligations.BusyJobKeepsItsParameters
  intro i s t busy h
  cases exec_answered h with
  | ok _ change | data _ _ change => rw [change.eq_of_busy busy]; rfl
  | slverr => rfl

/-! ### Reads (R163 to R185, R197) -/

/-- Settles O8: each of these words is answered with its constant, whatever the state. -/
theorem constantWordsReadAsConstants : Obligations.ConstantWordsReadAsConstants :=
  fun _ _ => ⟨rfl, rfl, rfl⟩

/-- Settles O10: a read of a register answers with its value; ERR_ADDR is read as it stands. -/
theorem registersReadTheirValue : Obligations.RegistersReadTheirValue :=
  fun s => ⟨exec_readOf .width s, exec_readOf .height s, exec_readOf .radius s, exec_readOf .sigma s,
    exec_readOf .inBase s, exec_readOf .inLen s, exec_readOf .outBase s, exec_readOf .outLen s, rfl⟩

/-- 30_encoding.md R76: the fields of the STATUS word. -/
theorem statusWord_fields (phase : Phase) (ecode : ECode) :
    (statusWord phase ecode).extractLsb' 0 2 = phaseBits phase ∧ (statusWord phase ecode).extractLsb' 2 2 = 0 ∧
      (statusWord phase ecode).extractLsb' 4 4 = ecodeBits ecode ∧ (statusWord phase ecode).extractLsb' 8 24 = 0 := by
  cases phase <;> cases ecode <;> decide

/-- Settles O9: the STATUS word has its fields, and what the read settles for the host depends on STATE alone. -/
theorem statusReadsAsItsFields : Obligations.StatusReadsAsItsFields := by
  unfold Obligations.StatusReadsAsItsFields
  intro s
  obtain ⟨hstate, hgap, hecode, hzeros⟩ := statusWord_fields s.phase s.ecode
  refine ⟨statusWord s.phase s.ecode, hstate, hgap, hecode, hzeros, ?_⟩
  cases hphase : s.phase <;> simp [exec, execRdStatus, respondData, ackStatus, hphase]

/-! ### Writes (R164 to R186, R198, R199) -/

/-- Settles O11: none of these writes is stored. -/
theorem readOnlyWordsIgnoreWrites : Obligations.ReadOnlyWordsIgnoreWrites :=
  fun _ _ _ => ⟨rfl, rfl, rfl, rfl⟩

/-- Settles O12: the eight registers share one rule. -/
theorem registerWritesStoreOutsideBusy : Obligations.RegisterWritesStoreOutsideBusy :=
  fun s data => ⟨exec_writeOf .width data s, exec_writeOf .height data s, exec_writeOf .radius data s,
    exec_writeOf .sigma data s, exec_writeOf .inBase data s, exec_writeOf .inLen data s,
    exec_writeOf .outBase data s, exec_writeOf .outLen data s⟩

/-- Settles O13: in BUSY a register write stores nothing, and no command acts. -/
theorem busyIgnoresWritesAndCommands : Obligations.BusyIgnoresWritesAndCommands := by
  unfold Obligations.BusyIgnoresWritesAndCommands
  intro s data busy
  refine ⟨fun p => ?_, exec_command_of_busy rfl busy, exec_command_of_busy rfl busy, exec_command_of_busy rfl busy,
    exec_command_of_busy rfl busy, exec_command_of_busy rfl busy⟩
  rw [exec_writeOf, if_pos busy]

/-- Settles O15: SLVERR is all that a BAD_ACCESS gives, whatever its descriptor. -/
theorem badAccessAnswersSlverr : Obligations.BadAccessAnswersSlverr :=
  fun _ _ _ _ => rfl

/-! ### Commands (R200 to R204) -/

/-- Settles O19: CMD and the decoder read the word alike, and in BUSY neither acts. -/
theorem wrCmdRunsTheDecodedCommand : Obligations.WrCmdRunsTheDecodedCommand := by
  unfold Obligations.WrCmdRunsTheDecodedCommand
  refine ⟨⟨rfl, rfl, rfl, fun _ => decodeCommand_of_no_command⟩, fun s word => ?_⟩
  obtain ⟨t, h⟩ := exec_next (.wrCmd word) s
  refine ⟨t, exec_wrCmd word s ▸ h, h, fun busy => ?_⟩
  rw [exec_command_of_busy rfl busy, Host.Outcome.next.injEq] at h
  exact h.symm

/-- Settles O20: NOP is the command that changes nothing, in BUSY and outside it. -/
theorem nopHasNoEffect : Obligations.NopHasNoEffect :=
  fun s => (command_eq id s).trans (congrArg _ (ite_self _))

/-- Settles O21: CLEAR is a command, so it acts outside BUSY alone. -/
theorem clearReturnsToIdle : Obligations.ClearReturnsToIdle :=
  fun s => command_eq clearStatus s

/-- Settles O22: a bad command is the entry to ERROR with code 7 and address 0, and acts outside BUSY alone. -/
theorem badCommandEntersError : Obligations.BadCommandEntersError :=
  fun s _ => command_eq (raiseError .badCommand 0) s

end Sys2Proof.Machine
end

section
/-!
PROOFS. 60_exceptions.md section 3: the ways out of ERROR (R226). Only an instruction changes STATE there, since the block is
still and the host's other operations leave STATE as it is; and of the instructions only CLEAR and START can.
-/

namespace Sys2Proof.Machine

variable {i : Instr} {s t : State}

/-! ### Instructions -/

theorem exec_nop_phase (h : exec .nop s = .next t) : t.phase = s.phase := by
  rw [nopHasNoEffect, Host.Outcome.next.injEq] at h
  rw [← h]

/-- R227: a bad command in ERROR raises the new error over the old one. -/
theorem exec_badCommand_phase {word : Word} (idle : s.phase ≠ .busy) (h : exec (.badCommand word) s = .next t) :
    t.phase = .error := by
  rw [badCommandEntersError, if_neg idle, Host.Outcome.next.injEq] at h
  rw [← h]

theorem exec_leaves_error (error : s.phase = .error) (h : exec i s = .next t) (left : t.phase ≠ .error) :
    i = .clear ∨ i = .start ∨ i = .wrCmd 1 ∨ i = .wrCmd 2 := by
  have idle : s.phase ≠ .busy := by rw [error]; nofun
  cases hi : isCommand i with
  | false =>
    obtain ⟨hphase, -⟩ := onlyCommandsChangeTheJob i s t hi h
    exact absurd (hphase.trans error) left
  | true =>
    cases i with
    | clear => exact .inl rfl
    | start => exact .inr (.inl rfl)
    | nop => exact absurd ((exec_nop_phase h).trans error) left
    | badCommand word => exact absurd (exec_badCommand_phase idle h) left
    | wrCmd word =>
      rw [exec_wrCmd, decode, decodeCommand] at h
      split_ifs at h with _ hstart hclear
      · exact absurd ((exec_nop_phase h).trans error) left
      · exact .inr (.inr (.inl (congrArg _ hstart)))
      · exact .inr (.inr (.inr (congrArg _ hclear)))
      · exact absurd (exec_badCommand_phase idle h) left
    | _ => cases hi

/-! ### The host's turn -/

/-- R73: a command reaches the block only as the data of WR_CMD; encoding gives each frame its format back. -/
theorem decode_transaction_ne_decode_command (desc : BitVec 9) (data word : Word) :
    decode (.transaction desc data) ≠ decode (.command word) := by
  intro h
  have hframes : encode (decodeTransaction desc data) = encode (decodeCommand word) := congrArg encode h
  rw [encode_decodeTransaction, encode_decodeCommand] at hframes
  cases hframes

theorem hostWrite_phase {addr : Word} {bytes : List Byte} (h : hostWrite addr bytes s = .next t) :
    t.phase = s.phase := by
  unfold hostWrite at h
  split at h
  · cases h
  · injection h with h
    rw [← h]

theorem hostRead_phase {addr : Word} {count : Nat} (h : hostRead addr count s = .next t) : t.phase = s.phase := by
  unfold hostRead at h
  split at h
  · cases h
  · injection h with h
    rw [← h]

theorem hostOp_phase {op : HostOp} (h : hostOp op s = .next t) :
    t.phase = s.phase ∨ ∃ desc data, op = .access desc data := by
  cases op with
  | access desc data => exact .inr ⟨desc, data, rfl⟩
  | memWrite => exact .inl (hostWrite_phase h)
  | memRead => exact .inl (hostRead_phase h)
  | branchEq | branchNe =>
    injection h with h
    rw [← h]
    split <;> exact .inl rfl

/-- STATE changes on the host's turn only by a transaction of the register window. -/
theorem hostTurn_changes_phase (h : hostTurn s = .next t) (changed : t.phase ≠ s.phase) :
    ∃ desc data, fetch s = some (.access desc data) ∧
      exec (decode (.transaction desc data)) (hostGoto (s.host.pc + 1) s) = .next t := by
  cases hfetch : fetch s with
  | none =>
    rw [hostTurn, hfetch, Host.Outcome.next.injEq] at h
    exact absurd (h ▸ rfl) changed
  | some op =>
    rw [hostTurn_of_fetch hfetch] at h
    obtain hphase | ⟨desc, data, rfl⟩ := hostOp_phase h
    · exact absurd hphase changed
    · exact ⟨desc, data, rfl, h⟩

theorem hostTurn_leaves_error (error : s.phase = .error) (h : hostTurn s = .next t) (left : t.phase ≠ .error) :
    ∃ desc data, fetch s = some (.access desc data) ∧
      (decode (.transaction desc data) = .wrCmd 1 ∨ decode (.transaction desc data) = .wrCmd 2) := by
  obtain ⟨desc, data, hfetch, hexec⟩ := hostTurn_changes_phase h (error ▸ left)
  obtain hclear | hstart | hwrCmd := exec_leaves_error (s := hostGoto (s.host.pc + 1) s) error hexec left
  · exact absurd hclear (decode_transaction_ne_decode_command desc data 2)
  · exact absurd hstart (decode_transaction_ne_decode_command desc data 1)
  · exact ⟨desc, data, hfetch, hwrCmd⟩

/-- Settles O27: the instructions that leave ERROR, of which the host's turn can bring WR_CMD alone; the block's own turns do
nothing outside BUSY. -/
theorem errorIsLeftOnlyByClearOrStart : Obligations.ErrorIsLeftOnlyByClearOrStart := by
  unfold Obligations.ErrorIsLeftOnlyByClearOrStart
  refine ⟨fun i s t => exec_leaves_error, fun P turn s t error h left => ?_, fun P s => ⟨_, rfl, rfl⟩⟩
  cases turn with
  | reset => exact .inl rfl
  | host => exact .inr ⟨rfl, hostTurn_leaves_error error h left⟩
  | issue | context | fetch | held | complete =>
    have idle : s.phase ≠ .busy := by rw [error]; nofun
    rw [blockIsStillOutsideBusy P _ s idle rfl, Host.Outcome.next.injEq] at h
    exact absurd (h ▸ error) left

end Sys2Proof.Machine
end

section
/-!
PROOFS. 70_reset_and_hazards.md: the reset input (R250, R252), register accesses in a row (R260, R263), and the host's own
accesses to the data space while its duty runs (R262, R264).
-/

namespace Sys2Proof.Machine

open Sys2Proof.Slice0

variable {s : State}

/-! ### Register accesses in a row -/

theorem readParam_setParam (p q : Param) (v : Word) (g : Regs) :
    readParam q (setParam p v g) = if p = q then v else readParam q g := by
  cases p <;> cases q <;> rfl

/-- Settles O14: outside BUSY the write sets its own register alone, and in BUSY none. -/
theorem writtenRegisterReadsBack : Obligations.WrittenRegisterReadsBack := by
  unfold Obligations.WrittenRegisterReadsBack
  intro s p q data
  refine ⟨_, _, exec_writeOf p data s, exec_readOf q _, ?_⟩
  by_cases busy : s.phase = .busy <;> simp [busy, readParam_setParam]

/-! ### Reset -/

/-- R252: the reset value of SIGMA is +0.0, which the first check of START rejects. -/
theorem firstFailingCheck_reset : firstFailingCheck Regs.reset = some .invalidParameter :=
  if_pos (.inr (.inl (by decide)))

/-- Settles O26: the first check fails on the reset registers, and STATUS shows ERROR with the code 1. -/
theorem startAfterResetFails : Obligations.StartAfterResetFails := by
  unfold Obligations.StartAfterResetFails
  have hstart := startReportsTheFirstFailingCheck State.reset .invalidParameter (by nofun) firstFailingCheck_reset
  exact ⟨_, _, hstart, rfl, rfl, rfl⟩

theorem resetBlock_of_busy (busy : s.phase = .busy) :
    resetBlock s = { dropJob (havocOutput s) with
      regs := Regs.reset, phase := .idle, ecode := .noError, errAddr := 0, breach := false } := by
  rw [resetBlock, if_pos busy]

theorem resetBlock_of_not_busy (idle : s.phase ≠ .busy) :
    resetBlock s = { dropJob s with
      regs := Regs.reset, phase := .idle, ecode := .noError, errAddr := 0, breach := false } := by
  rw [resetBlock, if_neg idle]

/-- Settles O29: a reset havocs the output region of a running job, and leaves memory alone where none runs. -/
theorem resetTurnResetsTheBlock : Obligations.ResetTurnResetsTheBlock := by
  unfold Obligations.ResetTurnResetsTheBlock
  intro P s
  by_cases busy : s.phase = .busy
  · exact ⟨_, _, congrArg _ (resetBlock_of_busy busy), fun idle => absurd busy idle,
      fun a hout => readByte_havoc_out _ s hout, fun _ a hin ha => readByte_havoc_in _ s hin ha⟩
  · exact ⟨_, _, congrArg _ (resetBlock_of_not_busy busy), fun _ => rfl, fun _ _ => rfl,
      fun hbusy => absurd hbusy busy⟩

/-! ### Host writes -/

theorem touches_iff (region : Region) (addr count : Nat) :
    touches region addr count = true ↔ ∃ a, (addr ≤ a ∧ a < addr + count) ∧ region.holds a = true := by
  constructor
  · intro h
    simp only [touches, Bool.and_eq_true, decide_eq_true_eq] at h
    exact ⟨max addr region.base, by omega, (holds_iff _ _).mpr (by omega)⟩
  · rintro ⟨a, hwritten, hholds⟩
    exact touches_of_holds hholds hwritten

/-- R262: a host write is a breach exactly when a byte of it lies in a region of the running job. -/
theorem breaches_iff (addr count : Nat) (s : State) :
    breaches addr count s = true ↔ s.phase = .busy ∧ ∃ a, (addr ≤ a ∧ a < addr + count) ∧
      ((inputRegion s.job).holds a = true ∨ (outputRegion s.job).holds a = true) := by
  simp only [breaches, Bool.and_eq_true, Bool.or_eq_true, decide_eq_true_eq, touches_iff, and_or_left, exists_or]

theorem jobComplete_of_breach (hcan : canComplete s = true) (hbreach : s.breach = true) :
    jobComplete s = { havocOutput s with phase := .done } := by
  rw [jobComplete, if_pos hcan, if_pos hbreach]

/-- Settles O58: a write that fits stores and is judged by `breaches`, JOB_COMPLETE havocs after a breach, and a havoc is a
fill of the output region with free values. -/
theorem hostWriteIntoARunningJobIsABreach : Obligations.HostWriteIntoARunningJobIsABreach := by
  unfold Obligations.HostWriteIntoARunningJobIsABreach
  refine ⟨fun s addr bytes hfits => hostWrite_of_fits hfits, ?_, ?_, ?_, ?_⟩
  · intro s addr count a busy hlo hhi hregion
    exact (breaches_iff addr count s).mpr ⟨busy, a, ⟨hlo, hhi⟩, hregion⟩
  · intro s addr count h
    obtain ⟨busy, a, ⟨hlo, hhi⟩, hregion⟩ := (breaches_iff addr count s).mp h
    exact ⟨busy, a, hlo, hhi, hregion⟩
  · intro P s busy issued finished hbreach
    exact congrArg _ (jobComplete_of_breach ((canComplete_iff s).mpr ⟨busy, issued, finished⟩) hbreach)
  · intro s
    exact ⟨_, rfl, fun a hin ha => readByte_havoc_in _ s hin ha, fun a hout => readByte_havoc_out _ s hout⟩

/-! ### Host reads -/

@[simp] theorem length_hostBytes (s : State) (addr count : Nat) : (hostBytes s addr count).length = count := by
  simp [hostBytes]

theorem hostBytes_getElem?_of_settled {addr count k : Nat} (hk : k < count) (settled : unsettled s (addr + k) = false) :
    (hostBytes s addr count)[k]? = some (readByte s.mem (addr + k)) := by
  simp [hostBytes, hk, settled]

theorem exec_rdStatus (s : State) :
    exec .rdStatus s = .next (respondData (statusWord s.phase s.ecode) (ackStatus s)) := rfl

@[simp] theorem unsettled_respondData (v : Word) (s : State) (a : Nat) :
    unsettled (respondData v s) a = unsettled s a := rfl

/-- R64, R264: a STATUS read of DONE or ERROR orders the writes of every job before the host's later reads. -/
theorem unsettled_ackStatus_of_ended (ended : s.phase = .done ∨ s.phase = .error) (a : Nat) :
    unsettled (ackStatus s) a = false := by
  rcases ended with h | h <;> simp [ackStatus, unsettled, h]

/-- R264: a STATUS read of IDLE moves the regions that wait from one list to the other. -/
theorem unsettled_ackStatus_of_idle (idle : s.phase = .idle) (a : Nat) :
    unsettled (ackStatus s) a = unsettled s a := by
  simp [ackStatus, unsettled, idle]

/-- Settles O59: a host read takes each settled byte from memory, and a STATUS read changes which bytes are settled by STATE
alone. -/
theorem hostReadsSettledBytes : Obligations.HostReadsSettledBytes := by
  unfold Obligations.HostReadsSettledBytes
  refine ⟨fun s addr count hfits => ?_, unsettled_iff, fun s ended => ?_, fun s idle => ?_⟩
  · exact ⟨_, hostRead_of_fits hfits, rfl, length_hostBytes s addr.toNat count,
      fun k hk settled => hostBytes_getElem?_of_settled hk settled⟩
  · exact ⟨_, exec_rdStatus s, fun a => unsettled_ackStatus_of_ended ended a⟩
  · refine ⟨_, exec_rdStatus s, ?_, fun a => unsettled_ackStatus_of_idle idle a⟩
    simp [idle]

end Sys2Proof.Machine
end
